-- ==== Sys2Proof/Word.lean ====
section
/-!
DEFINITION. The words of the block and the two plainest integer operations its rules are written with
(spec/00_scope.md R10, R11).
-/

namespace Sys2Proof

/-- A byte of sample memory, of a FIFO ring, or of a command. -/
abbrev Byte := BitVec 8

/-- A 16-bit register value. -/
abbrev Half := BitVec 16

/-- A 32-bit register value or address. -/
abbrev Word := BitVec 32

/-- The index of a lane, and of the voice that drives it (R20, R43). -/
abbrev LaneIx := Fin 16

/-- The index of a capture unit (R20). -/
abbrev CapIx := Fin 2

/-- `x >> n`, the floor shift of R11: rounds toward minus infinity. -/
def asr (x : Int) (n : Nat) : Int := x / 2 ^ n

/-- `clamp(v, lo, hi) = min(max(v, lo), hi)` (R11). -/
def clamp (v lo hi : Int) : Int := min (max v lo) hi

end Sys2Proof
end

