-- ==== Sys2Proof/Machine/Flags.lean ====
section
/-!
DEFINITION. The flags of the block: the status bits that hardware itself sets or clears or that gate an operation.
Key-on (spec/10_state.md R29), the capture enable, format and one-shot bits (R40), the master enable and the bypass
bits (R22).
-/

namespace Sys2Proof.Machine

/-- Key-on, `cnt[31]` (R29). -/
def keyon (cnt : Word) : Bool := cnt.getLsbD 31

/-- `cnt[31] <- 0` (R195 to R197: one-shot completion). -/
def clearKeyon (cnt : Word) : Word := cnt &&& 0x7FFFFFFF

/-- Capture enable, bit 7 of SNDCAPuCNT (R40). -/
def capEnable (cnt : Byte) : Bool := cnt.getLsbD 7

/-- `cnt[7] <- 0` (R274). -/
def clearCapEnable (cnt : Byte) : Byte := cnt &&& 0x7F

/-- 8-bit capture format, bit 3 (R40). -/
def capFmt8 (cnt : Byte) : Bool := cnt.getLsbD 3

/-- One-shot capture, bit 2 (R40). -/
def capOneshot (cnt : Byte) : Bool := cnt.getLsbD 2

/-- Master enable, bit 15 of SOUNDCNT (R22). -/
def masterEnable (soundcnt : Half) : Bool := soundcnt.getLsbD 15

/-- byp1, bit 12 (R22): lane 1 is not added to the accumulators. -/
def byp1 (soundcnt : Half) : Bool := soundcnt.getLsbD 12

/-- byp3, bit 13 (R22): lane 3 is not added to the accumulators. -/
def byp3 (soundcnt : Half) : Bool := soundcnt.getLsbD 13

end Sys2Proof.Machine
end

