-- ==== Sys2Proof/Machine/Records.lean ====
section
/-!
DEFINITION. The typed records that commands carry and that the voice table holds (spec/30_encoding.md R127, R128;
spec/10_state.md R47), the real numbers in them (spec/00_scope.md R12), the names of bus registers (R112, R121), and what
can wait at the block's ports.
-/

namespace Sys2Proof

/-- A real number (R12, D21), as plain data: the closed expression that denotes it (`RealNum.val`). `named k` stands for
any real number, one for each `k`, of which nothing is known; the three constants are the OPEN reals of R8. Two expressions
may denote one number, and no rule looks at the expression. Log 8. -/
inductive RealNum where
  | rat (q : Rat)
  | named (k : Nat)
  | geomRatio
  | geomSbRatio
  | pitchTimer
  | add (x y : RealNum)
  | sub (x y : RealNum)
  | mul (x y : RealNum)
  | div (x y : RealNum)
  | exp (x : RealNum)
  | ln (x : RealNum)
  | pow2 (x : RealNum)
  | pow (x : RealNum) (n : Nat)
  deriving DecidableEq, Repr, Inhabited

/-- The class of an allocation request (R127, R291): pcm = 0, psg = 1, noise = 2. -/
inductive Category where
  | pcm
  | psg
  | noise
  deriving DecidableEq, Repr, Inhabited

/-- The kind of a trigger event (R127): note = 0, drum = 1. -/
inductive EventKind where
  | note
  | drum
  deriving DecidableEq, Repr, Inhabited

/-- One side of the stereo output (R244). -/
inductive Side where
  | left
  | right
  deriving DecidableEq, Repr, Inhabited

/-- R127. `ident` is opaque to the block and is only passed to RESOLVE. DESIGN CHOICE (log 11): a natural. -/
structure Event where
  tick : Nat
  kind : EventKind
  ident : Nat
  track : Nat
  panOffset : Int
  volMult : RealNum
  deriving DecidableEq, Repr, Inhabited

/-- R47: a sustain duration, a natural or INF. -/
inductive Duration where
  | ticks (n : Nat)
  | inf
  deriving DecidableEq, Repr, Inhabited

/-- R47, attack phase. -/
inductive Attack where
  | linear (volume : RealNum) (duration : Nat)
  | exactPoints (points : List (Nat × RealNum))
  deriving DecidableEq, Repr, Inhabited

/-- R47, decay phase. -/
inductive Decay where
  | linear (duration : Nat)
  | exponential (constant : RealNum) (duration : Nat)
  deriving DecidableEq, Repr, Inhabited

/-- R47, sustain phase. -/
structure Sustain where
  volume : RealNum
  duration : Duration
  deriving DecidableEq, Repr, Inhabited

/-- R47, the seven release variants. -/
inductive Release where
  | basic
  | geometric
  | geometricStopBlowing
  | exponential (duration : Nat) (floor : RealNum)
  | exponentialUntil (duration : Nat) (floor : RealNum)
  | staticValue (value : RealNum)
  | keepBlowing
  deriving DecidableEq, Repr, Inhabited

/-- R47: up to four optional phases. -/
structure Envelope where
  attack : Option Attack
  decay : Option Decay
  sustain : Option Sustain
  release : Option Release
  deriving DecidableEq, Repr, Inhabited

/-- R128, R340: the two pitch paths. -/
inductive Pitch where
  | formula (baseReload : Half) (offset : RealNum)
  | table (reload : Half)
  deriving DecidableEq, Repr, Inhabited

/-- R128: a timed re-programming of the lane's sample registers. -/
structure SampleSeg where
  src : Word
  loopWords : Half
  lenWords : BitVec 21
  volume : RealNum
  deriving DecidableEq, Repr, Inhabited

/-- R128: the result of RESOLVE. Each field has the width the rule gives it. -/
structure ResolvedTimbre where
  category : Category
  format : BitVec 2
  src : Word
  loopWords : Half
  lenWords : BitVec 21
  repeating : Bool
  shiftSel : BitVec 2
  duty : BitVec 3
  pitch : Pitch
  env : Envelope
  pitchAdj : List (Nat × Pitch)
  samples : List (Nat × SampleSeg)
  queue : List (Nat × Envelope)
  deriving DecidableEq, Repr, Inhabited

/-- The registers written 32 bits wide (R121). -/
inductive Reg32 where
  | cnt (n : LaneIx)
  | sad (n : LaneIx)
  | len (n : LaneIx)
  | capDad (u : CapIx)
  deriving DecidableEq, Repr

/-- The registers written 16 bits wide (R121). -/
inductive Reg16 where
  | tmr (n : LaneIx)
  | pnt (n : LaneIx)
  | soundcnt
  | soundbias
  | capLen (u : CapIx)
  deriving DecidableEq, Repr

/-- The registers written 8 bits wide (R121). -/
inductive Reg8 where
  | capCnt (u : CapIx)
  deriving DecidableEq, Repr

/-- One operation waiting to be performed, in the form it is presented (log 2): a command with its operand bytes
(R126), a register-bus write (R110), or a stored register word that selects a micro-operation of a lane, a capture
unit or an output side (R125). Hosts present commands and bus writes; a selector word is presented only to run one
micro-operation by itself (log 5). -/
inductive PortItem where
  | command (opcode : Byte) (operands : List Byte)
  | bus8 (addr : Word) (value : Byte)
  | bus16 (addr : Word) (value : Half)
  | bus32 (addr : Word) (value : Word)
  | selCnt (n : LaneIx) (cnt : Word)
  | selCap (u : CapIx) (cnt : Byte)
  | selOut (side : Side) (soundcnt : Half)
  deriving DecidableEq, Repr

end Sys2Proof
end

