-- ==== Sys2Proof/Machine/Reals.lean ====
section
/-!
DEFINITION. The real arithmetic of spec/00_scope.md R12. EXP, LN and POW2 are functions over the reals of which only the
properties R12 names are assumed (D21). A rule asks two things of a real number, whether it is at most another and what its
floor is; an oracle answers them for the expressions that State holds, and must answer them rightly for some such functions.
-/

namespace Sys2Proof

/-- What the block takes as given about real numbers (R8, R9, R12): EXP, LN and POW2 with the properties R12 names and no
others, the OPEN reals of R8 in their ranges, the real number behind each `named k`, and the quotient by zero, which no rule
gives (log 16). -/
structure RealInterp where
  exp : ℝ → ℝ
  ln : ℝ → ℝ
  pow2 : ℝ → ℝ
  named : Nat → ℝ
  geomRatio : ℝ
  geomSbRatio : ℝ
  pitchTimer : ℝ
  byZero : ℝ → ℝ
  exp_zero : exp 0 = 1
  exp_strictMono : ∀ x y, x < y → exp x < exp y
  exp_ln : ∀ y, 0 < y → exp (ln y) = y
  pow2_zero : pow2 0 = 1
  geomRatio_mem : 0 < geomRatio ∧ geomRatio < 1
  geomSbRatio_mem : 0 < geomSbRatio ∧ geomSbRatio < 1
  pitchTimer_pos : 0 < pitchTimer

/-- The real number an expression denotes. -/
noncomputable def RealInterp.val (I : RealInterp) : RealNum → ℝ
  | .rat q => q
  | .named k => I.named k
  | .geomRatio => I.geomRatio
  | .geomSbRatio => I.geomSbRatio
  | .pitchTimer => I.pitchTimer
  | .add x y => I.val x + I.val y
  | .sub x y => I.val x - I.val y
  | .mul x y => I.val x * I.val y
  | .div x y => if I.val y = 0 then I.byZero (I.val x) else I.val x / I.val y
  | .exp x => I.exp (I.val x)
  | .ln x => I.ln (I.val x)
  | .pow2 x => I.pow2 (I.val x)
  | .pow x n => I.val x ^ n

/-- Right answers to the two questions, for one interpretation. -/
structure RealOracle where
  le : RealNum → RealNum → Bool
  floor : RealNum → Int
  right : ∃ I : RealInterp, (∀ x y, le x y = true ↔ I.val x ≤ I.val y) ∧ ∀ x, floor x = ⌊I.val x⌋

/-- An expression whose value the named properties alone make rational, and that value. -/
def RealNum.rational? : RealNum → Option Rat
  | .rat q => some q
  | .add x y => x.rational?.bind fun p => y.rational?.map fun q => p + q
  | .sub x y => x.rational?.bind fun p => y.rational?.map fun q => p - q
  | .mul x y => x.rational?.bind fun p => y.rational?.map fun q => p * q
  | .div x y => x.rational?.bind fun p => y.rational?.bind fun q => if q = 0 then none else some (p / q)
  | .exp x => x.rational?.bind fun p => if p = 0 then some 1 else none
  | .pow2 x => x.rational?.bind fun p => if p = 0 then some 1 else none
  | .pow x n => x.rational?.map fun p => p ^ n
  | .named _ | .geomRatio | .geomSbRatio | .pitchTimer | .ln _ => none

/-- The simplest functions with the properties R12 names: EXP(x) = 1 + x. They only show that there are such functions
(`RealOracle.simplest`). -/
noncomputable def RealInterp.simplest : RealInterp where
  exp x := 1 + x
  ln x := x - 1
  pow2 x := 1 + x
  named _ := 0
  geomRatio := 1 / 2
  geomSbRatio := 1 / 2
  pitchTimer := 1
  byZero _ := 0
  exp_zero := by norm_num
  exp_strictMono := by intro x y h; linarith
  exp_ln := by intro y _; ring
  pow2_zero := by norm_num
  geomRatio_mem := by norm_num
  geomSbRatio_mem := by norm_num
  pitchTimer_pos := by norm_num

/-- The values of the simplest interpretation, which are rational. -/
def RealNum.simplestVal : RealNum → Rat
  | .rat q => q
  | .named _ => 0
  | .geomRatio => 1 / 2
  | .geomSbRatio => 1 / 2
  | .pitchTimer => 1
  | .add x y => x.simplestVal + y.simplestVal
  | .sub x y => x.simplestVal - y.simplestVal
  | .mul x y => x.simplestVal * y.simplestVal
  | .div x y => x.simplestVal / y.simplestVal
  | .exp x => 1 + x.simplestVal
  | .ln x => x.simplestVal - 1
  | .pow2 x => 1 + x.simplestVal
  | .pow x n => x.simplestVal ^ n

theorem RealNum.simplestVal_cast (x : RealNum) : (x.simplestVal : ℝ) = RealInterp.simplest.val x := by
  induction x with
  | div x y hx hy =>
    simp only [RealNum.simplestVal, RealInterp.val, ← hx, ← hy]
    split
    · rename_i h; simp [h, RealInterp.simplest]
    · push_cast; rfl
  | _ => simp_all [RealNum.simplestVal, RealInterp.val, RealInterp.simplest]

/-- An oracle for the simplest interpretation. -/
def RealOracle.simplest : RealOracle where
  le x y := decide (x.simplestVal ≤ y.simplestVal)
  floor x := x.simplestVal.floor
  right := ⟨RealInterp.simplest,
    fun x y => by rw [decide_eq_true_eq, ← x.simplestVal_cast, ← y.simplestVal_cast, Rat.cast_le],
    fun x => by rw [← x.simplestVal_cast, Rat.floor_cast]; rfl⟩

end Sys2Proof
end

