-- ==== Sys2Proof/Config.lean ====
section
/-!
DEFINITION. Cfg, part 1 (spec/00_scope.md R7 to R9): the sizes that State's types need, what an unlisted byte of
memory reads as, and the OPEN parameters and oracles, which are constants with no body. The remaining fields of
Cfg are in Sys2Proof/Machine/Params.lean, under the same names Config.x.
-/

namespace Sys2Proof.Config

/-- FIFO_BYTES (R7): the size of a lane's ring. -/
abbrev fifoBytes : Nat := 32

/-- FIFO_BYTES / 4: the ring in words (R192). -/
abbrev fifoWords : Nat := 8

/-- ADPCM_INDEX_MAX (R7). -/
abbrev adpcmIndexMax : Nat := 88

/-- What a byte of sample memory that nothing has written reads as. DESIGN CHOICE, unsafe (log 12): R48 leaves the
initial contents to the host. -/
abbrev unlistedByte : Byte := 0

/-- EVENT_TIMING less 1 (R8, OPEN; at least 1). Log 10. -/
opaque eventTimingLessOne : Nat

/-- RESOLVE (R9): the Timbre Catalog, outside the block. Log 11. -/
opaque resolve : Event → ResolvedTimbre

/-- The real arithmetic of the machine: EXP, LN, POW2 and the OPEN reals GEOM_RATIO, GEOM_SB_RATIO and PITCH_TIMER (R8, R9,
R12), as the answers to questions about them. Any right answers for any such functions are possible; `none` stands for
`RealOracle.simplest`, one of them. Log 9, log 10. -/
opaque realOracle? : Option RealOracle

end Sys2Proof.Config
end

