-- ==== Sys2Proof/Machine/Params.lean ====
section
/-!
DEFINITION. Cfg, part 2: the fields of spec/00_scope.md R7 and R8 at the values those rules give (log 13), and the
two questions the rules ask of real numbers, over the oracle of Sys2Proof/Config.lean (log 8, log 9).
-/

namespace Sys2Proof.Config

/-! ### R7: lanes, mixer, capture units -/

/-- BLOCKED_LANES. -/
def blockedLanes : List LaneIx := [1, 3]

/-- CH_BASE. -/
def chBase : Word := 0x04000400

/-- CH_STRIDE. -/
def chStride : Nat := 0x10

/-- VOL_SHIFT_TABLE, indexed by the 2-bit select. -/
def volShiftTable (sel : BitVec 2) : Nat :=
  match sel.toNat with
  | 0 => 4
  | 1 => 3
  | 2 => 2
  | _ => 0

/-- REPEAT_LSB. -/
def repeatLsb : Nat := 24

/-- DUTY_LSB. -/
def dutyLsb : Nat := 26

/-- TICK_CYCLES. -/
def tickCycles : Nat := 512

/-- TIMER_WRAP. -/
def timerWrap : Nat := 0x10000

/-- BURST_BYTES. -/
def burstBytes : Nat := 16

/-- REFILL_LEVEL. -/
def refillLevel : Int := 16

/-- PREBUFFER_BURSTS. -/
def prebufferBursts : Nat := 2

/-- START_POS_PCM. -/
def startPosPcm : Int := -3

/-- START_POS_PSG. -/
def startPosPsg : Int := -1

/-- ADPCM_STEP, the 89 entries of R197. -/
def adpcmStepTable : List Nat :=
  [    7,     8,     9,    10,    11,    12,    13,    14,    16,    17] ++
  [   19,    21,    23,    25,    28,    31,    34,    37,    41,    45] ++
  [   50,    55,    60,    66,    73,    80,    88,    97,   107,   118] ++
  [  130,   143,   157,   173,   190,   209,   230,   253,   279,   307] ++
  [  337,   371,   408,   449,   494,   544,   598,   658,   724,   796] ++
  [  876,   963,  1060,  1166,  1282,  1411,  1552,  1707,  1878,  2066] ++
  [ 2272,  2499,  2749,  3024,  3327,  3660,  4026,  4428,  4871,  5358] ++
  [ 5894,  6484,  7132,  7845,  8630,  9493, 10442, 11487, 12635, 13899] ++
  [15289, 16818, 18500, 20350, 22385, 24623, 27086, 29794, 32767]

/-- `ADPCM_STEP[i]`. -/
def adpcmStep (i : Fin (adpcmIndexMax + 1)) : Nat := adpcmStepTable.getD i.val 0

/-- `ADPCM_INDEX_DELTA[d]`. -/
def adpcmIndexDelta (d : BitVec 3) : Int :=
  match d.toNat with
  | 4 => 2
  | 5 => 4
  | 6 => 6
  | 7 => 8
  | _ => -1

/-- ADPCM_CLAMP. -/
def adpcmClamp : Int := 0x7FFF

/-- PSG_WAVE, the 8 x 8 table of R198 (H = 0x7FFF, L = -0x7FFF), one row a duty. -/
def psgWaveTable : List (List Int) :=
  let h : Int := 0x7FFF
  let l : Int := -0x7FFF
  [ [l, l, l, l, l, l, l, h],
    [l, l, l, l, l, l, h, h],
    [l, l, l, l, l, h, h, h],
    [l, l, l, l, h, h, h, h] ] ++
  [ [l, l, l, h, h, h, h, h],
    [l, l, h, h, h, h, h, h],
    [l, h, h, h, h, h, h, h],
    [l, l, l, l, l, l, l, l] ]

/-- `PSG_WAVE[duty][col]`. -/
def psgWave (duty : BitVec 3) (col : Nat) : Int := (psgWaveTable.getD duty.toNat []).getD col 0

/-- NOISE_INIT. -/
def noiseInit : Half := 0x7FFF

/-- NOISE_XOR. -/
def noiseXor : Half := 0x6000

/-- NOISE_LOW. -/
def noiseLow : Int := -0x7FFF

/-- NOISE_HIGH. -/
def noiseHigh : Int := 0x7FFF

/-- MIN_PLAY_BYTES. -/
def minPlayBytes : Nat := 0

/-- OUT_SHIFT. -/
def outShift : Nat := 8

/-- CAP_SHIFT. -/
def capShift : Nat := 8

/-- APPLY_BIAS. -/
def applyBias : Bool := false

/-- DEGRADE_10BIT. -/
def degrade10bit : Bool := false

/-- CAP_FLUSH_SAMPLES. -/
def capFlushSamples : Nat := 4

/-- MAPPED. -/
def mapped (a : Word) : Bool := a.toNat < 2 ^ 27

/-! ### R115 to R119: GLOBAL_MAP -/

/-- Address of SOUNDCNT (R115). -/
def addrSoundcnt : Word := 0x04000500
/-- Address of SOUNDBIAS (R116). -/
def addrSoundbias : Word := 0x04000504
/-- Address of SNDCAPuCNT (R117). -/
def addrCapCnt (u : CapIx) : Word := if u = 0 then 0x04000508 else 0x04000509
/-- Address of SNDCAPuDAD (R118). -/
def addrCapDad (u : CapIx) : Word := if u = 0 then 0x04000510 else 0x04000518
/-- Address of SNDCAPuLEN (R119). -/
def addrCapLen (u : CapIx) : Word := if u = 0 then 0x04000514 else 0x0400051C

/-! ### Real numbers (R12) -/

/-- The oracle in force (log 9). -/
def realOracle : RealOracle := realOracle?.getD RealOracle.simplest

/-- `x <= y`. Between expressions that the named properties make rational it is computed. -/
def realLe (x y : RealNum) : Bool :=
  match x.rational?, y.rational? with
  | some p, some q => decide (p ≤ q)
  | _, _ => realOracle.le x y

/-- `floor(x)` (R12). -/
def realFloor (x : RealNum) : Int :=
  match x.rational? with
  | some p => p.floor
  | none => realOracle.floor x

/-- A natural as a real. -/
def realNat (n : Nat) : RealNum := .rat n

/-- The interpretation the oracle answers for: what EXP, LN, POW2 and the OPEN reals are. Statements speak of it; no
operation uses it. -/
noncomputable def realInterp : RealInterp := Classical.choose realOracle.right

/-! ### R8: voice allocator and envelope engine -/

/-- EVENT_TIMING, a natural of at least 1. -/
def eventTiming : Nat := eventTimingLessOne + 1

/-- ENV_TIME_SCALE: its default, EVENT_TIMING. -/
def envTimeScale : Nat := eventTiming

/-- REL_DONE_THRESHOLD. -/
def relDoneThreshold : RealNum := .rat (3 / 2)

/-- FREE_SILENT. -/
def freeSilent : RealNum := .rat 1

/-- BASIC_K. -/
def basicK : RealNum := .rat (-17 / 100)

/-- KEEPBLOW_K. -/
def keepblowK : RealNum := .rat (-1 / 100)

/-- GEOM_RATIO. -/
def geomRatio : RealNum := .geomRatio

/-- GEOM_SB_RATIO. -/
def geomSbRatio : RealNum := .geomSbRatio

/-- NO_RELEASE_VALUE. -/
def noReleaseValue : RealNum := .rat 1

/-- ENV_FULL. -/
def envFull : RealNum := .rat 127

/-- PAN_CENTRE. -/
def panCentre : Int := 64

/-- PREF_PCM. -/
def prefPcm : List LaneIx := [0, 2, 4, 5, 6, 7]

/-- PREF_PSG. -/
def prefPsg : List LaneIx := [8, 9, 10, 11, 12, 13]

/-- PREF_NOISE. -/
def prefNoise : List LaneIx := [14, 15]

/-- MAX_RELOAD. -/
def maxReload : RealNum := .rat 0x10000

/-- PITCH_TIMER. -/
def pitchTimer : RealNum := .pitchTimer

/-- PITCH_ROUND: truncation toward zero. -/
def pitchRound (r : RealNum) : Int :=
  if realLe (.rat 0) r then realFloor r else -(realFloor (.sub (.rat 0) r))

end Sys2Proof.Config

namespace Sys2Proof

/-- The real number that an expression of the state denotes (R12). -/
noncomputable def RealNum.val (x : RealNum) : ℝ := Config.realInterp.val x

end Sys2Proof
end

