-- ==== Sys2Proof/Machine/Operands.lean ====
section
/-!
DEFINITION. Operand forms: the fields of the control words and their packing (spec/30_encoding.md R113, R114;
spec/10_state.md R22, R26 to R28), the masks and scalings of the registers (spec/40_register_writes.md), and the
register-bus address map (R111, R112, R115 to R121).
-/

namespace Sys2Proof.Machine

/-! ### The 127 to 128 boundary rule (R114) -/

/-- `dec7(f) = 128 if f = 127 else f`. -/
def dec7 (f : BitVec 7) : Nat := if f.toNat = 127 then 128 else f.toNat

/-- `enc7(x) = min(x, 127)`. -/
def enc7 (x : Nat) : BitVec 7 := BitVec.ofNat 7 (min x 127)

/-! ### The control word CHn_CNT (R26, R113, R114) -/

/-- `volume`, from `cnt[6:0]`. -/
def cntVolume (cnt : Word) : Nat := dec7 (cnt.extractLsb' 0 7)

/-- `vol_shift`, from `cnt[9:8]`. -/
def cntVolShift (cnt : Word) : Nat := Config.volShiftTable (cnt.extractLsb' 8 2)

/-- `pan`, from `cnt[22:16]`. -/
def cntPan (cnt : Word) : Nat := dec7 (cnt.extractLsb' 16 7)

/-- `repeat`, `cnt[REPEAT_LSB+1:REPEAT_LSB]`. -/
def cntRepeat (cnt : Word) : BitVec 2 := cnt.extractLsb' Config.repeatLsb 2

/-- `duty`, `cnt[DUTY_LSB+2:DUTY_LSB]`. -/
def cntDuty (cnt : Word) : BitVec 3 := cnt.extractLsb' Config.dutyLsb 3

/-- `format`, `cnt[30:29]`. -/
def cntFormat (cnt : Word) : BitVec 2 := cnt.extractLsb' 29 2

/-- `pack_cnt` (R114). -/
def packCnt (on : Bool) (format : BitVec 2) (duty : BitVec 3) (rep : BitVec 2) (pan : Nat) (shiftSel : BitVec 2)
    (volq : BitVec 7) : Word :=
  ((BitVec.ofBool on).setWidth 32 <<< 31) ||| (format.setWidth 32 <<< 29) ||| (duty.setWidth 32 <<< Config.dutyLsb)
    ||| (rep.setWidth 32 <<< Config.repeatLsb) ||| ((enc7 pan).setWidth 32 <<< 16) ||| (shiftSel.setWidth 32 <<< 8)
    ||| volq.setWidth 32

/-- `(cnt & 0xFFFFFF80) | q` (R339). -/
def withVolumeField (cnt : Word) (q : BitVec 7) : Word := (cnt &&& 0xFFFFFF80) ||| q.setWidth 32

/-- What a generator does at the end of the sample (R27). -/
inductive EndAction where
  | loop
  | stop
  | none
  deriving DecidableEq, Repr

/-- R27: loop if bit 0 of the repeat field is set, stop if it is 2, none if it is 0. -/
def endAction (cnt : Word) : EndAction :=
  if (cntRepeat cnt).getLsbD 0 then .loop else if (cntRepeat cnt).toNat = 2 then .stop else .none

/-- The generator a lane runs (R28, R190). -/
inductive Gen where
  | pcm8
  | pcm16
  | adpcm
  | psg
  | noise
  | none
  deriving DecidableEq, Repr

/-- `gen(n)` (R190). -/
def genOf (n : LaneIx) (cnt : Word) : Gen :=
  match (cntFormat cnt).toNat with
  | 0 => .pcm8
  | 1 => .pcm16
  | 2 => .adpcm
  | _ => if 14 ≤ n.val then .noise else if 8 ≤ n.val then .psg else .none

/-! ### SOUNDCNT (R22) -/

/-- `master_vol`, from bits 6:0. -/
def masterVol (soundcnt : Half) : Nat := dec7 (soundcnt.extractLsb' 0 7)

/-- `lsel`, bits 9:8, or `rsel`, bits 11:10. -/
def outSelect (soundcnt : Half) : Side → BitVec 2
  | .left => soundcnt.extractLsb' 8 2
  | .right => soundcnt.extractLsb' 10 2

/-! ### Masks and scalings of written values -/

/-- CHn_SAD and SNDCAPuDAD: `value & 0x07FFFFFC` (R151, R161). -/
def maskAddr (v : Word) : Word := v &&& 0x07FFFFFC

/-- CHn_PNT: `value << 2` (R153). -/
def loopBytes (v : Half) : Nat := v.toNat * 4

/-- CHn_LEN: `(value & 0x001FFFFF) << 2` (R154). -/
def lengthBytes (v : Word) : Nat := (v &&& 0x001FFFFF).toNat * 4

/-- SNDCAPuLEN: `value << 2`, and 4 if that is 0 (R162). -/
def capLengthBytes (v : Half) : Nat := if v.toNat * 4 = 0 then 4 else v.toNat * 4

/-- SOUNDCNT: `value & 0xBF7F` (R156). -/
def maskSoundcnt (v : Half) : Half := v &&& 0xBF7F

/-- SOUNDBIAS: `value & 0x03FF` (R157). -/
def biasOf (v : Half) : BitVec 10 := v.extractLsb' 0 10

/-- SNDCAPuCNT: `value & 0x8F` (R160). -/
def maskCapCnt (v : Byte) : Byte := v &&& 0x8F

/-- `sext_8(b)` (R10). -/
def sext8 (b : Nat) : Int := (BitVec.ofNat 8 b).toInt

/-- `sext_16(h)` (R10). -/
def sext16 (h : Nat) : Int := (BitVec.ofNat 16 h).toInt

/-! ### The bus map (R121) -/

/-- `CH_BASE + CH_STRIDE * n + offset` (R111). -/
def laneAddr (n : LaneIx) (offset : Nat) : Word :=
  Config.chBase + BitVec.ofNat 32 (Config.chStride * n.val + offset)

/-- `n = addr[7:4]` (R111). -/
def laneOfAddr (addr : Word) : LaneIx := ⟨(addr.extractLsb' 4 4).toNat, (addr.extractLsb' 4 4).isLt⟩

/-- `addr & 0xFFFFFF00 = 0x04000400` and `addr[3:0] = offset` (R111, R112). -/
def isLaneReg (addr : Word) (offset : Nat) : Bool :=
  addr &&& 0xFFFFFF00 = Config.chBase && (addr.extractLsb' 0 4).toNat = offset

/-- The 32-bit registers of the bus map (R121). -/
def reg32 (addr : Word) : Option Reg32 :=
  if isLaneReg addr 0x0 then some (.cnt (laneOfAddr addr))
  else if isLaneReg addr 0x4 then some (.sad (laneOfAddr addr))
  else if isLaneReg addr 0xC then some (.len (laneOfAddr addr))
  else if addr = Config.addrCapDad 0 then some (.capDad 0)
  else if addr = Config.addrCapDad 1 then some (.capDad 1)
  else none

/-- The 16-bit registers of the bus map (R121). -/
def reg16 (addr : Word) : Option Reg16 :=
  if isLaneReg addr 0x8 then some (.tmr (laneOfAddr addr))
  else if isLaneReg addr 0xA then some (.pnt (laneOfAddr addr))
  else if addr = Config.addrSoundcnt then some .soundcnt
  else if addr = Config.addrSoundbias then some .soundbias
  else if addr = Config.addrCapLen 0 then some (.capLen 0)
  else if addr = Config.addrCapLen 1 then some (.capLen 1)
  else none

/-- The 8-bit registers of the bus map (R121). -/
def reg8 (addr : Word) : Option Reg8 :=
  if addr = Config.addrCapCnt 0 then some (.capCnt 0)
  else if addr = Config.addrCapCnt 1 then some (.capCnt 1)
  else none

end Sys2Proof.Machine
end

