-- ==== Sys2Proof/Syntax.lean ====
section
/-!
DEFINITION. The operations of the block: one constructor for each row of spec/opcode_table.json. The commands of
spec/30_encoding.md R126, the register writes of R112 and R115 to R119, and the micro-operations of R125.
-/

namespace Sys2Proof

/-- One constructor per row of the opcode table. A micro-operation carries what its selecting word carries: the
lane, unit or side the word belongs to, and the named bits of its pattern (the duty of GEN_PSG, the one-shot bit of
the capture rows). -/
inductive Instr where
  | reset
  | step
  | memw (addr : Word) (byte : Byte)
  | loadEvents (events : List Event)
  | trigger (ev : Event)
  | reqch (category : Category) (track : Nat)
  | populate (lane : Int) (ev : Event) (rt : ResolvedTimbre)
  | release (track tick : Nat)
  | wr8 (addr : Word) (value : Byte)
  | wr16 (addr : Word) (value : Half)
  | wr32 (addr : Word) (value : Word)
  | chCnt (n : LaneIx) (value : Word)
  | chSad (n : LaneIx) (value : Word)
  | chTmr (n : LaneIx) (value : Half)
  | chPnt (n : LaneIx) (value : Half)
  | chLen (n : LaneIx) (value : Word)
  | soundcnt (value : Half)
  | soundbias (value : Half)
  | sndcap0cnt (value : Byte)
  | sndcap1cnt (value : Byte)
  | sndcap0dad (value : Word)
  | sndcap0len (value : Half)
  | sndcap1dad (value : Word)
  | sndcap1len (value : Half)
  | genPcm8 (n : LaneIx)
  | genPcm16 (n : LaneIx)
  | genAdpcm (n : LaneIx)
  | genPsg (n : LaneIx) (duty : BitVec 3)
  | genNoise (n : LaneIx)
  | genNone (n : LaneIx)
  | genOff (n : LaneIx)
  | capPcm16 (u : CapIx) (oneshot : Bool)
  | capPcm8 (u : CapIx) (oneshot : Bool)
  | outMixer (side : Side)
  | outCh1 (side : Side)
  | outCh3 (side : Side)
  | outCh1Ch3 (side : Side)
  deriving DecidableEq, Repr

end Sys2Proof
end

