-- ==== Sys2Proof/WellFormed.lean ====
section
/-!
DEFINITION. Which terms of Instr stand for an operation of the block. The typed operands carry their own widths;
what is left to check is the lane of the three generators that share one bit pattern (spec/30_encoding.md R125).
-/

namespace Sys2Proof

/-- R125, R190: GEN_PSG runs on lanes 8 to 13, GEN_NOISE on 14 and 15, GEN_NONE on 0 to 7. Every other term is an
operation the block can be asked for (an address outside the bus map, a lane index out of range or an incomplete
envelope is refused by the operation itself, with the fatal error of its rule). -/
def Instr.wellFormed : Instr → Bool
  | .genPsg n _ => 8 ≤ n.val && n.val ≤ 13
  | .genNoise n => 14 ≤ n.val
  | .genNone n => n.val ≤ 7
  | .reset | .step | .memw _ _ | .loadEvents _ | .trigger _ | .reqch _ _ | .populate _ _ _ | .release _ _
  | .wr8 _ _ | .wr16 _ _ | .wr32 _ _ | .chCnt _ _ | .chSad _ _ | .chTmr _ _ | .chPnt _ _ | .chLen _ _
  | .soundcnt _ | .soundbias _ | .sndcap0cnt _ | .sndcap1cnt _ | .sndcap0dad _ | .sndcap0len _
  | .sndcap1dad _ | .sndcap1len _ | .genPcm8 _ | .genPcm16 _ | .genAdpcm _ | .genOff _
  | .capPcm16 _ _ | .capPcm8 _ _ | .outMixer _ | .outCh1 _ | .outCh3 _ | .outCh1Ch3 _ => true

end Sys2Proof
end

