-- ==== Sys2Proof/Decode.lean ====
section
/-!
DEFINITION. From what is presented at the ports to an operation, and back. The opcodes are spec/30_encoding.md R126,
the bus map R121, the selector patterns R125, the record tags R127 and R128. The byte layout of the records is the
model's own (log 3), since the spec defines none.
-/

namespace Sys2Proof

/-- Why the operand bytes of a command were not a record of its type. -/
inductive Malformed where
  | unknownOpcode
  | truncated
  | badTag
  deriving DecidableEq, Repr

/-- Why what was presented is no operation: a command that is none (R406), a bus write to no register of its width
(R405), or a stored word that selects no micro-operation (an idle capture unit, a disabled output, R125). -/
inductive Reject where
  | badCommand (opcode : Byte) (why : Malformed)
  | badRegister (width : Nat) (addr : Word)
  | selectsNothing
  deriving DecidableEq, Repr

namespace Wire

/-! ### Reading -/

/-- A reader of operand bytes: the value and the bytes left, or why there is none. -/
abbrev Reader (α : Type) := List Byte → Except Malformed (α × List Byte)

/-- Read nothing. -/
def done {α : Type} (a : α) : Reader α := fun bs => .ok (a, bs)

/-- One reader after another. -/
def andThen {α β : Type} (p : Reader α) (f : α → Reader β) : Reader β := fun bs =>
  match p bs with
  | .error e => .error e
  | .ok (a, rest) => f a rest

/-- Read and convert. -/
def mapped {α β : Type} (f : α → β) (p : Reader α) : Reader β := andThen p fun a => done (f a)

/-- One byte. -/
def byte : Reader Byte
  | [] => .error .truncated
  | b :: bs => .ok (b, bs)

/-- `k` bytes, least significant first, as a natural. -/
def leNat : Nat → Reader Nat
  | 0 => done 0
  | k + 1 => andThen byte fun b => mapped (fun hi => b.toNat + 256 * hi) (leNat k)

/-- A bit vector of at most `8 k` bits in `k` bytes. -/
def bits (w k : Nat) : Reader (BitVec w) := mapped (BitVec.ofNat w) (leNat k)

/-- A natural of any size, seven bits a byte, least significant first, bit 7 set on all but the last. -/
def nat : Reader Nat
  | [] => .error .truncated
  | b :: bs =>
    if b.toNat < 128 then .ok (b.toNat, bs)
    else
      match nat bs with
      | .error e => .error e
      | .ok (n, rest) => .ok (b.toNat - 128 + 128 * n, rest)

/-- An integer: an even natural `2 k` is `k`, an odd one `2 k + 1` is `-(k + 1)`. -/
def int : Reader Int := mapped (fun z => if z % 2 = 0 then ((z / 2 : Nat) : Int) else Int.negSucc (z / 2)) nat

/-- A rational: its numerator, then its denominator less 1. -/
def rat : Reader Rat := andThen int fun num => mapped (fun d => mkRat num (d + 1)) nat

/-- One byte that must be a tag of a closed sum of `k` alternatives (R406). -/
def tag (k : Nat) : Reader Nat := andThen byte fun b bs => if b.toNat < k then .ok (b.toNat, bs) else .error .badTag

/-- Two operands of a binary operation. -/
def binary (f : RealNum → RealNum → RealNum) (p : Reader RealNum) : Reader RealNum :=
  andThen p fun x => mapped (f x) p

/-- An expression of depth at most `fuel`: the tag of its operation, then its operands. -/
def realUpTo : Nat → Reader RealNum
  | 0 => fun _ => .error .truncated
  | fuel + 1 =>
    andThen (tag 13) fun t =>
      match t with
      | 0 => mapped RealNum.rat rat
      | 1 => mapped RealNum.named nat
      | 2 => done .geomRatio
      | 3 => done .geomSbRatio
      | 4 => done .pitchTimer
      | 5 => binary .add (realUpTo fuel)
      | 6 => binary .sub (realUpTo fuel)
      | 7 => binary .mul (realUpTo fuel)
      | 8 => binary .div (realUpTo fuel)
      | 9 => mapped RealNum.exp (realUpTo fuel)
      | 10 => mapped RealNum.ln (realUpTo fuel)
      | 11 => mapped RealNum.pow2 (realUpTo fuel)
      | _ => andThen (realUpTo fuel) fun x => mapped (RealNum.pow x) nat

/-- A real number, as the expression that denotes it; every level of it takes a byte. -/
def real : Reader RealNum := fun bs => realUpTo bs.length bs

/-- Exactly `k` items. -/
def items {α : Type} (p : Reader α) : Nat → Reader (List α)
  | 0 => done []
  | k + 1 => andThen p fun a => mapped (fun as => a :: as) (items p k)

/-- A count, then that many items. -/
def list {α : Type} (p : Reader α) : Reader (List α) := andThen nat (items p)

/-- Absent (0) or present (1). -/
def opt {α : Type} (p : Reader α) : Reader (Option α) :=
  andThen (tag 2) fun t => if t = 0 then done none else mapped some p

/-- Two values in a row. -/
def pair {α β : Type} (p : Reader α) (q : Reader β) : Reader (α × β) :=
  andThen p fun a => mapped (fun b => (a, b)) q

/-- R127: pcm = 0, psg = 1, noise = 2. -/
def category : Reader Category :=
  mapped (fun t => match t with | 0 => Category.pcm | 1 => Category.psg | _ => Category.noise) (tag 3)

/-- R127: note = 0, drum = 1. -/
def kind : Reader EventKind := mapped (fun t => if t = 0 then EventKind.note else EventKind.drum) (tag 2)

/-- R127. -/
def event : Reader Event :=
  andThen nat fun tick => andThen kind fun kind => andThen nat fun ident => andThen nat fun track =>
  andThen int fun panOffset => mapped (fun volMult => Event.mk tick kind ident track panOffset volMult) real

/-- R128: Linear = 0, Exact = 1. -/
def attack : Reader Attack :=
  andThen (tag 2) fun t =>
    if t = 0 then andThen real fun v => mapped (fun d => Attack.linear v d) nat
    else mapped Attack.exactPoints (list (pair nat real))

/-- R128: Linear = 0, Exponential = 1. -/
def decay : Reader Decay :=
  andThen (tag 2) fun t =>
    if t = 0 then mapped Decay.linear nat
    else andThen real fun c => mapped (fun d => Decay.exponential c d) nat

/-- A sustain: its volume, then INF (0) or a duration (1). -/
def sustain : Reader Sustain :=
  andThen real fun v => mapped (fun d : Option Nat =>
    Sustain.mk v (match d with | none => Duration.inf | some n => Duration.ticks n)) (opt nat)

/-- R128: Basic = 0, Geometric = 1, GeometricStopBlowing = 2, Exponential = 3, ExponentialUntil = 4, Static = 5,
KeepBlowing = 6. -/
def release : Reader Release :=
  andThen (tag 7) fun t =>
    match t with
    | 0 => done .basic
    | 1 => done .geometric
    | 2 => done .geometricStopBlowing
    | 3 => andThen nat fun d => mapped (fun f => Release.exponential d f) real
    | 4 => andThen nat fun d => mapped (fun f => Release.exponentialUntil d f) real
    | 5 => mapped Release.staticValue real
    | _ => done .keepBlowing

/-- R47. -/
def envelope : Reader Envelope :=
  andThen (opt attack) fun a => andThen (opt decay) fun d => andThen (opt sustain) fun s =>
  mapped (fun r => Envelope.mk a d s r) (opt release)

/-- R128: Formula = 0, Table = 1 (the model's tags). -/
def pitch : Reader Pitch :=
  andThen (tag 2) fun t =>
    if t = 0 then andThen (bits 16 2) fun b => mapped (fun o => Pitch.formula b o) real
    else mapped Pitch.table (bits 16 2)

/-- R128. -/
def sampleSeg : Reader SampleSeg :=
  andThen (bits 32 4) fun src => andThen (bits 16 2) fun lw => andThen (bits 21 3) fun len =>
  mapped (fun v => SampleSeg.mk src lw len v) real

/-- R128. -/
def timbre : Reader ResolvedTimbre :=
  andThen category fun cat => andThen (bits 2 1) fun format => andThen (bits 32 4) fun src =>
  andThen (bits 16 2) fun lw => andThen (bits 21 3) fun len => andThen (tag 2) fun rep =>
  andThen (bits 2 1) fun sh => andThen (bits 3 1) fun duty => andThen pitch fun p => andThen envelope fun env =>
  andThen (list (pair nat pitch)) fun adj => andThen (list (pair nat sampleSeg)) fun smp =>
  mapped (fun q => ResolvedTimbre.mk cat format src lw len (rep == 1) sh duty p env adj smp q)
    (list (pair nat envelope))

/-- The operand record of the command with this opcode (R126), as an operation. -/
def command (opcode : Byte) : Reader Instr :=
  match opcode.toNat with
  | 0x00 => done .reset
  | 0x01 => done .step
  | 0x02 => andThen (bits 32 4) fun a => mapped (fun b => Instr.memw a b) byte
  | 0x03 => mapped Instr.loadEvents (list event)
  | 0x04 => mapped Instr.trigger event
  | 0x05 => andThen category fun c => mapped (fun t => Instr.reqch c t) nat
  | 0x06 => andThen int fun n => andThen event fun ev => mapped (fun rt => Instr.populate n ev rt) timbre
  | 0x07 => andThen nat fun tr => mapped (fun t => Instr.release tr t) nat
  | 0x10 => andThen (bits 32 4) fun a => mapped (fun v => Instr.wr8 a v) (bits 8 1)
  | 0x11 => andThen (bits 32 4) fun a => mapped (fun v => Instr.wr16 a v) (bits 16 2)
  | 0x12 => andThen (bits 32 4) fun a => mapped (fun v => Instr.wr32 a v) (bits 32 4)
  | _ => fun _ => .error .unknownOpcode

/-! ### Writing -/

/-- `k` bytes, least significant first. -/
def putLe : Nat → Nat → List Byte
  | 0, _ => []
  | k + 1, n => BitVec.ofNat 8 (n % 256) :: putLe k (n / 256)

/-- At most `fuel + 1` groups of seven bits, least significant first. -/
def putGroups : Nat → Nat → List Byte
  | 0, n => [BitVec.ofNat 8 n]
  | fuel + 1, n => if n < 128 then [BitVec.ofNat 8 n] else BitVec.ofNat 8 (n % 128 + 128) :: putGroups fuel (n / 128)

/-- A natural (see `nat`). -/
def putNat (n : Nat) : List Byte := putGroups n n

/-- An integer (see `int`). -/
def putInt : Int → List Byte
  | .ofNat k => putNat (2 * k)
  | .negSucc k => putNat (2 * k + 1)

/-- A rational (see `rat`). -/
def putRat (q : Rat) : List Byte := putInt q.num ++ putNat (q.den - 1)

/-- A tag. -/
def putTag (t : Nat) : List Byte := [BitVec.ofNat 8 t]

/-- A real number (see `real`). -/
def putReal : RealNum → List Byte
  | .rat q => putTag 0 ++ putRat q
  | .named k => putTag 1 ++ putNat k
  | .geomRatio => putTag 2
  | .geomSbRatio => putTag 3
  | .pitchTimer => putTag 4
  | .add x y => putTag 5 ++ (putReal x ++ putReal y)
  | .sub x y => putTag 6 ++ (putReal x ++ putReal y)
  | .mul x y => putTag 7 ++ (putReal x ++ putReal y)
  | .div x y => putTag 8 ++ (putReal x ++ putReal y)
  | .exp x => putTag 9 ++ putReal x
  | .ln x => putTag 10 ++ putReal x
  | .pow2 x => putTag 11 ++ putReal x
  | .pow x n => putTag 12 ++ (putReal x ++ putNat n)

/-- A list (see `list`). -/
def putList {α : Type} (f : α → List Byte) (as : List α) : List Byte := putNat as.length ++ as.flatMap f

/-- An option (see `opt`). -/
def putOpt {α : Type} (f : α → List Byte) : Option α → List Byte
  | none => putTag 0
  | some a => putTag 1 ++ f a

/-- Two values in a row. -/
def putPair {α β : Type} (f : α → List Byte) (g : β → List Byte) (p : α × β) : List Byte := f p.1 ++ g p.2

/-- See `category`. -/
def putCategory : Category → List Byte
  | .pcm => putTag 0
  | .psg => putTag 1
  | .noise => putTag 2

/-- See `kind`. -/
def putKind : EventKind → List Byte
  | .note => putTag 0
  | .drum => putTag 1

/-- See `event`. -/
def putEvent (ev : Event) : List Byte :=
  putNat ev.tick ++ (putKind ev.kind ++ (putNat ev.ident ++ (putNat ev.track ++ (putInt ev.panOffset ++
    putReal ev.volMult))))

/-- See `attack`. -/
def putAttack : Attack → List Byte
  | .linear v d => putTag 0 ++ (putReal v ++ putNat d)
  | .exactPoints ps => putTag 1 ++ putList (putPair putNat putReal) ps

/-- See `decay`. -/
def putDecay : Decay → List Byte
  | .linear d => putTag 0 ++ putNat d
  | .exponential c d => putTag 1 ++ (putReal c ++ putNat d)

/-- See `sustain`. -/
def putSustain (s : Sustain) : List Byte :=
  putReal s.volume ++ putOpt putNat (match s.duration with | .inf => none | .ticks n => some n)

/-- See `release`. -/
def putRelease : Release → List Byte
  | .basic => putTag 0
  | .geometric => putTag 1
  | .geometricStopBlowing => putTag 2
  | .exponential d f => putTag 3 ++ (putNat d ++ putReal f)
  | .exponentialUntil d f => putTag 4 ++ (putNat d ++ putReal f)
  | .staticValue v => putTag 5 ++ putReal v
  | .keepBlowing => putTag 6

/-- See `envelope`. -/
def putEnvelope (e : Envelope) : List Byte :=
  putOpt putAttack e.attack ++ (putOpt putDecay e.decay ++ (putOpt putSustain e.sustain ++
    putOpt putRelease e.release))

/-- See `pitch`. -/
def putPitch : Pitch → List Byte
  | .formula b o => putTag 0 ++ (putLe 2 b.toNat ++ putReal o)
  | .table r => putTag 1 ++ putLe 2 r.toNat

/-- See `sampleSeg`. -/
def putSampleSeg (s : SampleSeg) : List Byte :=
  putLe 4 s.src.toNat ++ (putLe 2 s.loopWords.toNat ++ (putLe 3 s.lenWords.toNat ++ putReal s.volume))

/-- See `timbre`. -/
def putTimbre (rt : ResolvedTimbre) : List Byte :=
  putCategory rt.category ++ (putLe 1 rt.format.toNat ++ (putLe 4 rt.src.toNat ++ (putLe 2 rt.loopWords.toNat ++
    (putLe 3 rt.lenWords.toNat ++ (putTag (if rt.repeating then 1 else 0) ++ (putLe 1 rt.shiftSel.toNat ++
    (putLe 1 rt.duty.toNat ++ (putPitch rt.pitch ++ (putEnvelope rt.env ++ (putList (putPair putNat putPitch) rt.pitchAdj ++
    (putList (putPair putNat putSampleSeg) rt.samples ++ putList (putPair putNat putEnvelope) rt.queue)))))))))))

end Wire

/-! ### Decoding -/

/-- The micro-operation a stored CHn_CNT selects on lane `n` (R125). -/
def decodeSelCnt (n : LaneIx) (cnt : Word) : Instr :=
  if cnt &&& 0x80000000 = 0 then .genOff n
  else
    match (cnt.extractLsb' 29 2).toNat with
    | 0 => .genPcm8 n
    | 1 => .genPcm16 n
    | 2 => .genAdpcm n
    | _ =>
      if 14 ≤ n.val then .genNoise n
      else if 8 ≤ n.val then .genPsg n (cnt.extractLsb' Config.dutyLsb 3)
      else .genNone n

/-- The micro-operation a stored SNDCAPuCNT selects (R125). -/
def decodeSelCap (u : CapIx) (cnt : Byte) : Except Reject Instr :=
  if cnt.getLsbD 7 then
    if cnt.getLsbD 3 then .ok (.capPcm8 u (cnt.getLsbD 2)) else .ok (.capPcm16 u (cnt.getLsbD 2))
  else .error .selectsNothing

/-- The micro-operation a stored SOUNDCNT selects for one side (R125). -/
def decodeSelOut (side : Side) (soundcnt : Half) : Except Reject Instr :=
  if soundcnt.getLsbD 15 then
    match (Machine.outSelect soundcnt side).toNat with
    | 0 => .ok (.outMixer side)
    | 1 => .ok (.outCh1 side)
    | 2 => .ok (.outCh3 side)
    | _ => .ok (.outCh1Ch3 side)
  else .error .selectsNothing

/-- A 32-bit bus write as a register write (R121, R122). -/
def decodeBus32 (addr value : Word) : Except Reject Instr :=
  match Machine.reg32 addr with
  | some (.cnt n) => .ok (.chCnt n value)
  | some (.sad n) => .ok (.chSad n value)
  | some (.len n) => .ok (.chLen n value)
  | some (.capDad u) => if u = 0 then .ok (.sndcap0dad value) else .ok (.sndcap1dad value)
  | none => .error (.badRegister 32 addr)

/-- A 16-bit bus write as a register write (R121, R122). -/
def decodeBus16 (addr : Word) (value : Half) : Except Reject Instr :=
  match Machine.reg16 addr with
  | some (.tmr n) => .ok (.chTmr n value)
  | some (.pnt n) => .ok (.chPnt n value)
  | some .soundcnt => .ok (.soundcnt value)
  | some .soundbias => .ok (.soundbias value)
  | some (.capLen u) => if u = 0 then .ok (.sndcap0len value) else .ok (.sndcap1len value)
  | none => .error (.badRegister 16 addr)

/-- An 8-bit bus write as a register write (R121, R122). -/
def decodeBus8 (addr : Word) (value : Byte) : Except Reject Instr :=
  match Machine.reg8 addr with
  | some (.capCnt u) => if u = 0 then .ok (.sndcap0cnt value) else .ok (.sndcap1cnt value)
  | none => .error (.badRegister 8 addr)

/-- A command (R126, R406). Operand bytes after the record are not looked at (log 4). -/
def decodeCommand (opcode : Byte) (operands : List Byte) : Except Reject Instr :=
  match Wire.command opcode operands with
  | .error why => .error (.badCommand opcode why)
  | .ok (i, _) => .ok i

/-- Whatever is presented is one operation or is rejected by name. -/
def decode : PortItem → Except Reject Instr
  | .command opcode operands => decodeCommand opcode operands
  | .bus8 addr value => decodeBus8 addr value
  | .bus16 addr value => decodeBus16 addr value
  | .bus32 addr value => decodeBus32 addr value
  | .selCnt n cnt => .ok (decodeSelCnt n cnt)
  | .selCap u cnt => decodeSelCap u cnt
  | .selOut side soundcnt => decodeSelOut side soundcnt

/-! ### Encoding -/

/-- The select field of a SOUNDCNT word in the bits of one side (R125). -/
def selOutWord (side : Side) (sel : Half) : Half :=
  match side with
  | .left => 0x8000 ||| (sel <<< 8)
  | .right => 0x8000 ||| (sel <<< 10)

/-- How an operation is presented; bits that a selector pattern does not examine are 0. -/
def encode : Instr → PortItem
  | .reset => .command 0x00 []
  | .step => .command 0x01 []
  | .memw a b => .command 0x02 (Wire.putLe 4 a.toNat ++ [b])
  | .loadEvents evs => .command 0x03 (Wire.putList Wire.putEvent evs)
  | .trigger ev => .command 0x04 (Wire.putEvent ev)
  | .reqch c t => .command 0x05 (Wire.putCategory c ++ Wire.putNat t)
  | .populate n ev rt => .command 0x06 (Wire.putInt n ++ (Wire.putEvent ev ++ Wire.putTimbre rt))
  | .release tr t => .command 0x07 (Wire.putNat tr ++ Wire.putNat t)
  | .wr8 a v => .command 0x10 (Wire.putLe 4 a.toNat ++ Wire.putLe 1 v.toNat)
  | .wr16 a v => .command 0x11 (Wire.putLe 4 a.toNat ++ Wire.putLe 2 v.toNat)
  | .wr32 a v => .command 0x12 (Wire.putLe 4 a.toNat ++ Wire.putLe 4 v.toNat)
  | .chCnt n v => .bus32 (Machine.laneAddr n 0x0) v
  | .chSad n v => .bus32 (Machine.laneAddr n 0x4) v
  | .chTmr n v => .bus16 (Machine.laneAddr n 0x8) v
  | .chPnt n v => .bus16 (Machine.laneAddr n 0xA) v
  | .chLen n v => .bus32 (Machine.laneAddr n 0xC) v
  | .soundcnt v => .bus16 Config.addrSoundcnt v
  | .soundbias v => .bus16 Config.addrSoundbias v
  | .sndcap0cnt v => .bus8 (Config.addrCapCnt 0) v
  | .sndcap1cnt v => .bus8 (Config.addrCapCnt 1) v
  | .sndcap0dad v => .bus32 (Config.addrCapDad 0) v
  | .sndcap0len v => .bus16 (Config.addrCapLen 0) v
  | .sndcap1dad v => .bus32 (Config.addrCapDad 1) v
  | .sndcap1len v => .bus16 (Config.addrCapLen 1) v
  | .genPcm8 n => .selCnt n 0x80000000
  | .genPcm16 n => .selCnt n 0xA0000000
  | .genAdpcm n => .selCnt n 0xC0000000
  | .genPsg n duty => .selCnt n (0xE0000000 ||| (duty.setWidth 32 <<< Config.dutyLsb))
  | .genNoise n => .selCnt n 0xE0000000
  | .genNone n => .selCnt n 0xE0000000
  | .genOff n => .selCnt n 0x00000000
  | .capPcm16 u o => .selCap u (0x80 ||| ((BitVec.ofBool o).setWidth 8 <<< 2))
  | .capPcm8 u o => .selCap u (0x88 ||| ((BitVec.ofBool o).setWidth 8 <<< 2))
  | .outMixer side => .selOut side (selOutWord side 0)
  | .outCh1 side => .selOut side (selOutWord side 1)
  | .outCh3 side => .selOut side (selOutWord side 2)
  | .outCh1Ch3 side => .selOut side (selOutWord side 3)

/-! ### The opcode table's words (log 21) -/

/-- The lane of a CHn_CNT selector row's word. The table gives such rows a field `lanes` in bits 15 to 0 where the
register has none: its lowest set bit names the lane, and a row without the field (GEN_PSG) is put on lane 8. -/
def tableLane (w : Nat) : LaneIx := ((List.finRange 16).find? fun n => w.testBit n.val).getD 8

/-- What an opcode-table word of `nbits` bits stands for at the ports. Eight bits: a command opcode, its operand
bytes zeros, or, from 0x80 up, a stored SNDCAPuCNT of unit 0. Sixteen bits: a stored SOUNDCNT, left side. Thirty-two
bits: a bus address of the map, the value 0, or else a stored CHn_CNT. -/
def tableItem (nbits w : Nat) : PortItem :=
  if nbits ≤ 8 then
    if w < 0x80 then .command (BitVec.ofNat 8 w) (List.replicate 64 0) else .selCap 0 (BitVec.ofNat 8 w)
  else if nbits ≤ 16 then .selOut .left (BitVec.ofNat 16 w)
  else
    let a : Word := BitVec.ofNat 32 w
    if (Machine.reg32 a).isSome then .bus32 a 0
    else if (Machine.reg16 a).isSome then .bus16 a 0
    else if (Machine.reg8 a).isSome then .bus8 a 0
    else .selCnt (tableLane w) a

/-- The operation the decoder reads from an opcode-table word. -/
def decodeTableWord (nbits w : Nat) : Option Instr :=
  match decode (tableItem nbits w) with
  | .ok i => some i
  | .error _ => none

end Sys2Proof
end

