-- ==== Sys2Proof/Machine/State.lean ====
section
/-!
DEFINITION. The state of the block (spec/10_state.md R20 to R49), its fatal errors (spec/60_exceptions.md R402), the
reset state (R49), and the outcomes of a step.
-/

namespace Sys2Proof.Machine

/-- Which condition of R331 an envelope met: (a), (b) or (c). -/
inductive EnvDefect where
  | exactWithoutPoints
  | linearDecayWithoutSustain
  | exponentialReleaseUndefined
  deriving DecidableEq, Repr

/-- The fatal errors with their `info` (R402). -/
inductive FatalError where
  | laneIndex (n : Int)
  | envelopeIncomplete (reason : EnvDefect)
  | noLaneAvailable (category : Category) (track : Nat)
  | busError (addr : Word)
  | badRegisterAccess (width : Nat) (addr : Word)
  | badCommand (opcode : Byte)
  | eventOrder (tick : Nat)
  deriving DecidableEq, Repr

/-- The number of a fatal error's code (R402). -/
def FatalError.code : FatalError → Nat
  | .laneIndex _ => 1
  | .envelopeIncomplete _ => 2
  | .noLaneAvailable _ _ => 3
  | .busError _ => 4
  | .badRegisterAccess _ _ => 5
  | .badCommand _ => 6
  | .eventOrder _ => 7

/-- One lane (R26 to R39). -/
structure Lane where
  cnt : Word
  src : Word
  tmr : Half
  loopPos : Nat
  length : Nat
  timer : Nat
  pos : Int
  cur : Int
  fifo : Vector Byte Config.fifoBytes
  frd : Fin Config.fifoBytes
  fwr : Fin Config.fifoWords
  foff : Nat
  flevel : Int
  aval : Int
  aidx : Fin (Config.adpcmIndexMax + 1)
  avalLoop : Int
  aidxLoop : Fin (Config.adpcmIndexMax + 1)
  abyte : Byte
  noise : Half
  deriving DecidableEq, Repr

/-- One capture unit (R40 to R42). -/
structure Capture where
  cnt : Byte
  dst : Word
  tmr : Half
  length : Nat
  timer : Nat
  pos : Nat
  woff : Nat
  fifo : List Byte
  deriving DecidableEq, Repr

/-- A sounding voice (R44). -/
structure UsedVoice where
  track : Nat
  kind : EventKind
  category : Category
  rt : ResolvedTimbre
  pan : Nat
  env : Envelope
  pitchAdj : List (Nat × Half)
  samples : List (Nat × SampleSeg)
  queue : List (Nat × Envelope)
  start : Nat
  segStart : Nat
  cur : RealNum
  completed : Bool
  deriving DecidableEq, Repr

/-- A released voice (R45). `sus` is the rule's S. -/
structure FreeingVoice where
  cur : RealNum
  init : RealNum
  relTick : Nat
  release : Option Release
  sus : RealNum
  deriving DecidableEq, Repr

/-- The five states of a voice (R43 to R46). -/
inductive Voice where
  | opened
  | used (u : UsedVoice)
  | freeing (f : FreeingVoice)
  | withheld
  | blocked
  deriving DecidableEq, Repr

/-- The local values of one MIX (spec/42_mixer.md, introduction): the lane values, the accumulators and the selected
outputs. The model's own latches (log 6). -/
structure MixRegs where
  v : Vector Int 16
  left : Int
  right : Int
  outl : Int
  outr : Int
  deriving DecidableEq, Repr

/-- What the block hands to the host: output sample number `k` (R14, R380), or a lane index that REQCH or TRIGGER
returns (R295, R320). -/
inductive Emission where
  | sample (k : Nat) (left right : Int)
  | lane (n : LaneIx)
  deriving DecidableEq, Repr

/-- The whole state: R20's record, with G's components side by side, and the model's own `mix` (log 6), `port`
(log 2) and `emitted` (log 7). -/
structure State where
  tick : Nat
  soundcnt : Half
  bias : BitVec 10
  events : List Event
  fatal : Option FatalError
  out : Int × Int
  lanes : Vector Lane 16
  caps : Vector Capture 2
  voices : Vector Voice 16
  mem : List Host.Cell
  mix : MixRegs
  port : List PortItem
  emitted : List Emission
  deriving DecidableEq, Repr

/-- Reasons for a step to end in a fault: none. The block's only exceptional mechanism, the fatal error, is a state it
enters (R400, R401, R403; log 1), and every rule has a successor state. -/
inductive Fault where
  deriving DecidableEq, Repr

/-- Reasons for a step to end in a refusal. -/
inductive Refusal where
  /-- An operation of the table that has no meaning yet, by its mnemonic: raised by `exec`'s arm of that operation
  (none at present). Safe: the model stops where the block goes on. -/
  | notModelled (mnemonic : String)
  deriving DecidableEq, Repr

/-- The outcome of an operation. -/
abbrev Result := Host.Outcome State Fault Refusal

/-- A lane at reset (R49). -/
def Lane.reset : Lane where
  cnt := 0
  src := 0
  tmr := 0
  loopPos := 0
  length := 0
  timer := 0
  pos := 0
  cur := 0
  fifo := Vector.replicate Config.fifoBytes 0
  frd := 0
  fwr := 0
  foff := 0
  flevel := 0
  aval := 0
  aidx := 0
  avalLoop := 0
  aidxLoop := 0
  abyte := 0
  noise := 0

/-- A capture unit at reset (R49). -/
def Capture.reset : Capture where
  cnt := 0
  dst := 0
  tmr := 0
  length := 4
  timer := 0
  pos := 0
  woff := 0
  fifo := []

/-- The voice table at reset (R43, R49): 1 and 3 Blocked, the others Open. -/
def Voice.resetTable : Vector Voice 16 :=
  ((Vector.replicate 16 Voice.opened).set 1 Voice.blocked).set 3 Voice.blocked

/-- The mixer's latches before any MIX. DESIGN CHOICE (log 6): zero. -/
def MixRegs.reset : MixRegs where
  v := Vector.replicate 16 0
  left := 0
  right := 0
  outl := 0
  outr := 0

/-- The state right after reset (R49, R430): also the power-on state. Memory lists nothing (log 12), nothing waits at
the ports (log 2), nothing has been emitted (log 7). -/
def State.reset : State where
  tick := 0
  soundcnt := 0
  bias := 0
  events := []
  fatal := none
  out := (0, 0)
  lanes := Vector.replicate 16 Lane.reset
  caps := Vector.replicate 2 Capture.reset
  voices := Voice.resetTable
  mem := []
  mix := MixRegs.reset
  port := []
  emitted := []

end Sys2Proof.Machine
end

