-- ==== Sys2Proof/Machine/Ops.lean ====
section
/-!
DEFINITION. The named operations over the state: sample memory (spec/20_memory.md R80 to R84), the accessors of lanes,
capture units and voices, the fatal error (spec/60_exceptions.md R400 to R403), which is this block's exception, and
RESET (spec/70_reset_and_hazards.md R430), which is the only recovery from it.
-/

namespace Sys2Proof.Machine

/-! ### Sample memory -/

/-- The byte at an address. -/
def Memory.read : List Host.Cell → Nat → Byte
  | [], _ => Config.unlistedByte
  | (a, b) :: m, k => if a = k then b else Memory.read m k

/-- Put a byte at an address, keeping the canonical form (`Memory.wf`). -/
def Memory.write : List Host.Cell → Nat → Byte → List Host.Cell
  | [], k, v => if v = Config.unlistedByte then [] else [(k, v)]
  | (a, b) :: m, k, v =>
    if k < a then (if v = Config.unlistedByte then (a, b) :: m else (k, v) :: (a, b) :: m)
    else if k = a then (if v = Config.unlistedByte then m else (k, v) :: m)
    else (a, b) :: Memory.write m k v

/-- The canonical form: addresses strictly rising, no cell equal to what an unlisted address reads as. -/
abbrev Memory.wf (m : List Host.Cell) : Prop :=
  m.Pairwise (fun c d => c.1 < d.1) ∧ ∀ c ∈ m, c.2 ≠ Config.unlistedByte

/-- The addresses of an `n`-byte access, `(addr + i) mod 2^32` (R83, R84). -/
def accessAddrs (addr : Word) (n : Nat) : List Word := (List.range n).map fun i => addr + BitVec.ofNat 32 i

/-- The first byte address of the access that is not mapped (R404). -/
def firstUnmapped (addr : Word) (n : Nat) : Option Word := (accessAddrs addr n).find? fun a => !Config.mapped a

/-- Bytes, least significant first, as an unsigned value (R83). -/
def leValue : List Byte → Nat
  | [] => 0
  | b :: bs => b.toNat + 256 * leValue bs

/-- `MemRead(addr, n)` (R83), or the unmapped address at which it raises BusError (R82, R404). -/
def memRead (m : List Host.Cell) (addr : Word) (n : Nat) : Except Word Nat :=
  match firstUnmapped addr n with
  | some a => .error a
  | none => .ok (leValue ((accessAddrs addr n).map fun a => Memory.read m a.toNat))

/-- `MemWrite(addr, n, v)` (R84): no byte is written if any address is unmapped. -/
def memWrite (m : List Host.Cell) (addr : Word) (n : Nat) (v : Nat) : Except Word (List Host.Cell) :=
  match firstUnmapped addr n with
  | some a => .error a
  | none =>
    .ok ((List.range n).foldl
      (fun m i => Memory.write m (addr + BitVec.ofNat 32 i).toNat (BitVec.ofNat 8 (v / 2 ^ (8 * i)))) m)

/-! ### Accessors -/

/-- `L[n]`. -/
def State.lane (s : State) (n : LaneIx) : Lane := s.lanes[n]

/-- `L[n] <- l`. -/
def State.setLane (s : State) (n : LaneIx) (l : Lane) : State := { s with lanes := s.lanes.set n l }

/-- `C[u]`. -/
def State.cap (s : State) (u : CapIx) : Capture := s.caps[u]

/-- `C[u] <- c`. -/
def State.setCap (s : State) (u : CapIx) (c : Capture) : State := { s with caps := s.caps.set u c }

/-- `V[n]`. -/
def State.voice (s : State) (n : LaneIx) : Voice := s.voices[n]

/-- `V[n] <- x`. -/
def State.setVoice (s : State) (n : LaneIx) (x : Voice) : State := { s with voices := s.voices.set n x }

/-- `v[n]`, a local of MIX. -/
def State.laneValue (s : State) (n : LaneIx) : Int := s.mix.v[n]

/-- `v[n] <- x`. -/
def State.setLaneValue (s : State) (n : LaneIx) (x : Int) : State :=
  { s with mix := { s.mix with v := s.mix.v.set n x } }

/-- Hand something to the host. -/
def State.emit (s : State) (e : Emission) : State := { s with emitted := e :: s.emitted }

/-- Return a lane index to the host, if there is one (R295, R320). -/
def State.returning (s : State) : Option LaneIx → State
  | none => s
  | some n => s.emit (.lane n)

/-! ### The fatal error -/

/-- `raise Fatal(code, info)` (R400): the first one is recorded and stays. What was done before it stays done (R403).
That the operation in progress is abandoned is `State.andThen`'s part. -/
def State.raise (s : State) (e : FatalError) : State :=
  match s.fatal with
  | none => { s with fatal := some e }
  | some _ => s

/-- Go on with `f` unless a fatal error is set: the rest of an operation that raised is abandoned (R400), and an
operation issued while one is set changes nothing (R401). -/
def State.andThen (s : State) (f : State → State) : State := if s.fatal.isSome then s else f s

/-- What becomes of a thing at the ports that is no operation: BadCommand (R406), BadRegisterAccess (R405), or, for a
stored word that selects no micro-operation, nothing (R275, R240). -/
def State.rejected (s : State) : Reject → State
  | .badCommand opcode _ => s.raise (.badCommand opcode)
  | .badRegister width addr => s.raise (.badRegisterAccess width addr)
  | .selectsNothing => s

/-- RESET (R430): every component of G, L, C and V to its reset value; memory is kept. It is carried out whether or
not a fatal error is set, and is the only thing that clears one (R400, R413). What waits at the ports and what was
emitted are the host's (log 2, log 7). -/
def State.resetBlock (s : State) : State :=
  { State.reset with mem := s.mem, port := s.port, emitted := s.emitted }

/-! ### What a lane operation answers -/

/-- The lane after a micro-operation of it, and the unmapped address at which it was abandoned, if it was. -/
structure LaneOut where
  lane : Lane
  err : Option Word
  deriving DecidableEq, Repr

/-- Not abandoned. -/
def LaneOut.ok (l : Lane) : LaneOut := ⟨l, none⟩

/-- Go on unless abandoned (R400). -/
def LaneOut.andThen (r : LaneOut) (f : Lane → LaneOut) : LaneOut :=
  match r.err with
  | none => f r.lane
  | some _ => r

/-- Write the lane back, and raise BusError if the micro-operation was abandoned (R404). -/
def State.commitLane (s : State) (n : LaneIx) (r : LaneOut) : State :=
  match r.err with
  | none => s.setLane n r.lane
  | some a => (s.setLane n r.lane).raise (.busError a)

end Sys2Proof.Machine
end

