-- ==== Sys2Proof/Machine/Captures.lean ====
section
/-!
DEFINITION. Family CAP (spec/43_capture.md): the capture units and the two micro-operation rows over SNDCAPuCNT.
-/

namespace Sys2Proof.Machine

/-- The unit and the memory after a micro-operation, and the unmapped address at which it was abandoned, if it was. -/
structure CapOut where
  cap : Capture
  mem : List Host.Cell
  err : Option Word
  deriving DecidableEq, Repr

/-- Not abandoned. -/
def CapOut.ok (c : Capture) (m : List Host.Cell) : CapOut := ⟨c, m, none⟩

/-- Go on unless abandoned (R400). -/
def CapOut.andThen (r : CapOut) (f : Capture → List Host.Cell → CapOut) : CapOut :=
  match r.err with
  | none => f r.cap r.mem
  | some _ => r

/-- Write the unit and the memory back, and raise BusError if the micro-operation was abandoned (R404). -/
def State.commitCap (s : State) (u : CapIx) (r : CapOut) : State :=
  let s' := { s with mem := r.mem }.setCap u r.cap
  match r.err with
  | none => s'
  | some a => s'.raise (.busError a)

/-- `CAP_START(u)` (R270). -/
def Capture.started (c : Capture) : Capture := { c with timer := c.tmr.toNat, pos := 0, woff := 0, fifo := [] }

/-- The loop of R273 over the waiting bytes: each goes to `(dst + woff) mod 2^32`, and `woff` wraps at `length`. -/
def flushBytes : List Byte → Capture → List Host.Cell → CapOut
  | [], c, m => .ok c m
  | b :: bs, c, m =>
    match memWrite m (c.dst + BitVec.ofNat 32 c.woff) 1 b.toNat with
    | .error a => ⟨c, m, some a⟩
    | .ok m' => flushBytes bs { c with woff := if c.woff + 1 ≥ c.length then 0 else c.woff + 1 } m'

/-- `CAP_FLUSH(u)` (R273). -/
def capFlush (c : Capture) (m : List Host.Cell) : CapOut :=
  (flushBytes c.fifo c m).andThen fun c m => .ok { c with fifo := [] } m

/-- `CAP_END(u)` (R274); `oneshot` is bit 2 of the control byte. -/
def capEnd (oneshot : Bool) (c : Capture) (m : List Host.Cell) : CapOut :=
  (capFlush c m).andThen fun c m =>
    .ok (if oneshot then { c with woff := 0, cnt := clearCapEnable c.cnt } else { c with woff := 0, pos := 0 }) m

/-- The bytes one sample adds to the FIFO: two, low byte first (R271), or the high byte alone (R272). -/
def sampleBytes (fmt8 : Bool) (sample : Int) : List Byte :=
  let high : Byte := BitVec.ofInt 8 (asr sample 8)
  if fmt8 then [high] else [BitVec.ofInt 8 sample, high]

/-- The width of a sample in bytes. -/
def sampleWidth (fmt8 : Bool) : Nat := if fmt8 then 1 else 2

/-- One captured sample: append, advance, flush when CAP_FLUSH_SAMPLES wait, end at `length` (R271, R272). -/
def capStore (fmt8 oneshot : Bool) (sample : Int) (c : Capture) (m : List Host.Cell) : CapOut :=
  let c := { c with fifo := c.fifo ++ sampleBytes fmt8 sample, pos := c.pos + sampleWidth fmt8 }
  (if c.fifo.length ≥ Config.capFlushSamples * sampleWidth fmt8 then capFlush c m else .ok c m).andThen fun c m =>
    if c.pos ≥ c.length then capEnd oneshot c m else .ok c m

/-- The loop of R271 and R272; left when the unit cleared its own enable. `fuel` as in `laneLoop` (log 22). -/
def capLoop (fmt8 oneshot : Bool) (sample : Int) : Nat → Capture → List Host.Cell → CapOut
  | 0, c, m => .ok c m
  | fuel + 1, c, m =>
    if c.timer ≥ Config.timerWrap then
      (capStore fmt8 oneshot sample { c with timer := c.tmr.toNat + (c.timer - Config.timerWrap) } m).andThen fun c m =>
        if capEnable c.cnt then capLoop fmt8 oneshot sample fuel c m else .ok c m
    else .ok c m

/-- `CAP_RUN(u, sample)` (R271, R272). -/
def capRun (fmt8 oneshot : Bool) (sample : Int) (c : Capture) (m : List Host.Cell) : CapOut :=
  let c := { c with timer := c.timer + Config.tickCycles }
  capLoop fmt8 oneshot sample c.timer c m

/-- The sample fed to a unit: the left accumulator to unit 0, the right to unit 1, shifted and clamped (R245). -/
def State.captureSample (s : State) (u : CapIx) : Int :=
  clamp (asr (if u = 0 then s.mix.left else s.mix.right) Config.capShift) (-0x8000) 0x7FFF

/-- `CAP_RUN` of unit `u` in a format. -/
def State.runCap (s : State) (u : CapIx) (fmt8 oneshot : Bool) : State :=
  s.commitCap u (capRun fmt8 oneshot (s.captureSample u) (s.cap u) s.mem)

/-- One line of CAPTURE_FEED (R245): unit `u` runs when its enable bit is set, in the format its control byte
selects; disabled it does nothing (R275). -/
def State.feedCap (s : State) (u : CapIx) : State :=
  let c := (s.cap u).cnt
  if capEnable c then s.runCap u (capFmt8 c) (capOneshot c) else s

/-- CAP_PCM16 (R271); the one-shot bit is the selecting word's. -/
def execCapPcm16 (u : CapIx) (oneshot : Bool) (s : State) : Result :=
  .next (s.andThen fun s => s.runCap u false oneshot)

/-- CAP_PCM8 (R272); the one-shot bit is the selecting word's. -/
def execCapPcm8 (u : CapIx) (oneshot : Bool) (s : State) : Result :=
  .next (s.andThen fun s => s.runCap u true oneshot)

end Sys2Proof.Machine
end

