-- ==== Sys2Proof/Machine/Generators.lean ====
section
/-!
DEFINITION. Family GEN (spec/41_generators.md): the FIFO, the five generators, the lane timer, and the seven
micro-operation rows over CHn_CNT. Lane-level functions take the memory and the lane and answer the lane and the
address of an unmapped access, if there was one.
-/

namespace Sys2Proof.Machine

/-! ### The FIFO (R192 to R194) -/

/-- `total(n)` (R33). -/
def Lane.total (l : Lane) : Nat := l.loopPos + l.length

/-- `(frd + i) mod FIFO_BYTES`. -/
def ringIndex (frd : Fin Config.fifoBytes) (i : Nat) : Fin Config.fifoBytes :=
  ⟨(frd.val + i) % Config.fifoBytes, Nat.mod_lt _ (by decide)⟩

/-- The four bytes of a burst word into the ring at word `fwr`, least significant first (R192). -/
def storeRing (ring : Vector Byte Config.fifoBytes) (fwr : Fin Config.fifoWords) (w : Nat) :
    Vector Byte Config.fifoBytes :=
  (List.finRange 4).foldl
    (fun r k => r.set (4 * fwr.val + k.val) (BitVec.ofNat 8 (w / 2 ^ (8 * k.val)))
      (by have := fwr.isLt; have := k.isLt; simp only [Config.fifoWords, Config.fifoBytes] at *; omega))
    ring

/-- One word of a burst goes into the ring (R192). -/
def Lane.pushWord (l : Lane) (w : Nat) : Lane :=
  { l with
    fifo := storeRing l.fifo l.fwr w
    foff := l.foff + 4
    fwr := ⟨(l.fwr.val + 1) % Config.fifoWords, Nat.mod_lt _ (by decide)⟩ }

/-- The words of a burst (R192): `k` reads at `(src + foff) mod 2^32`. -/
def fetchWords (m : List Host.Cell) : Nat → Lane → LaneOut
  | 0, l => .ok l
  | k + 1, l =>
    match memRead m (l.src + BitVec.ofNat 32 l.foff) 4 with
    | .error a => ⟨l, some a⟩
    | .ok w => fetchWords m k (l.pushWord w)

/-- A burst of `burst` bytes: the loop `i <- 0; while i < burst; i <- i + 4` and the level (R192). -/
def fetchBurst (m : List Host.Cell) (l : Lane) (burst : Nat) : LaneOut :=
  (fetchWords m ((burst + 3) / 4) l).andThen fun l' => .ok { l' with flevel := l'.flevel + burst }

/-- `FIFO_FILL(n)` (R192). -/
def fifoFill (m : List Host.Cell) (l : Lane) : LaneOut :=
  if (cntRepeat l.cnt).toNat = 0 then fetchBurst m l Config.burstBytes
  else if l.foff ≥ l.total then
    if (cntRepeat l.cnt).getLsbD 0 then
      fetchBurst m { l with foff := l.loopPos } (min Config.burstBytes (l.total - l.loopPos))
    else .ok l
  else fetchBurst m l (min Config.burstBytes (l.total - l.foff))

/-- The value `FIFO_READ(n, k)` takes from the ring, little-endian (R193). -/
def ringValue (l : Lane) (k : Nat) : Nat :=
  leValue ((List.range k).map fun i => l.fifo[ringIndex l.frd i])

/-- What `FIFO_READ(n, k)` does to the lane (R193): consume, and refill when REFILL_LEVEL or fewer bytes are left. DEDUCED
(log 25): so also after a start in format 3 and a change to a memory format, where R447 says that every read under-runs; the
first one does, and it refills the FIFO for those after it. -/
def fifoConsume (m : List Host.Cell) (l : Lane) (k : Nat) : LaneOut :=
  let l' := { l with frd := ringIndex l.frd k, flevel := l.flevel - k }
  if l'.flevel ≤ Config.refillLevel then fifoFill m l' else .ok l'

/-- `FIFO_READ(n, k)`, its value handed on (R193). The value is taken before the refill; if the refill raises, nothing
is handed on. -/
def fifoRead (m : List Host.Cell) (l : Lane) (k : Nat) (use : Nat → Lane → Lane) : LaneOut :=
  (fifoConsume m l k).andThen fun l' => .ok (use (ringValue l k) l')

/-! ### The start sequence (spec/40_register_writes.md R155) -/

/-- `repeat PREBUFFER_BURSTS times: FIFO_FILL(n)`. -/
def prebuffer (m : List Host.Cell) : Nat → Lane → LaneOut
  | 0, l => .ok l
  | k + 1, l => (fifoFill m l).andThen (prebuffer m k)

/-- `START(n)` (R155). The ring bytes are kept. -/
def laneStart (m : List Host.Cell) (l : Lane) : LaneOut :=
  let l' := { l with
    timer := l.tmr.toNat
    pos := if cntFormat l.cnt = 3 then Config.startPosPsg else Config.startPosPcm
    noise := Config.noiseInit
    cur := 0
    frd := 0
    fwr := 0
    foff := 0
    flevel := 0 }
  if cntFormat l.cnt = 3 then .ok l' else prebuffer m Config.prebufferBursts l'

/-! ### Generator steps -/

/-- One-shot completion: `cur <- 0 ; cnt[31] <- 0` (R195 to R197). -/
def Lane.stopped (l : Lane) : Lane := { l with cur := 0, cnt := clearKeyon l.cnt }

/-- `STEP_PCM8(n)` (R195). -/
def stepPcm8 (m : List Host.Cell) (l : Lane) : LaneOut :=
  let l := { l with pos := l.pos + 1 }
  let play := fun l : Lane => fifoRead m l 1 fun b l => { l with cur := sext8 b * 256 }
  if l.pos < 0 then .ok l
  else if l.pos ≥ l.total then
    match endAction l.cnt with
    | .loop => play { l with pos := l.loopPos }
    | .stop => .ok l.stopped
    | .none => play l
  else play l

/-- `STEP_PCM16(n)` (R196). -/
def stepPcm16 (m : List Host.Cell) (l : Lane) : LaneOut :=
  let l := { l with pos := l.pos + 1 }
  let play := fun l : Lane => fifoRead m l 2 fun h l => { l with cur := sext16 h }
  if l.pos < 0 then .ok l
  else if l.pos * 2 ≥ l.total then
    match endAction l.cnt with
    | .loop => play { l with pos := ((l.loopPos / 2 : Nat) : Int) }
    | .stop => .ok l.stopped
    | .none => play l
  else play l

/-- The header of an ADPCM sample (R197): predictor in bits 15:0, signed; index in bits 22:16, at most 88; both also
the loop snapshot. -/
def adpcmHeader (h : Nat) (l : Lane) : Lane :=
  let a := sext16 (h % 2 ^ 16)
  let i : Fin (Config.adpcmIndexMax + 1) :=
    ⟨min (h / 2 ^ 16 % 2 ^ 7) Config.adpcmIndexMax, Nat.lt_succ_of_le (Nat.min_le_right _ _)⟩
  { l with aval := a, aidx := i, avalLoop := a, aidxLoop := i }

/-- `diff` (R197), from the step and the nibble. -/
def adpcmDiff (st : Nat) (d : BitVec 4) : Nat :=
  st / 8 + (if d.getLsbD 0 then st / 4 else 0) + (if d.getLsbD 1 then st / 2 else 0) + (if d.getLsbD 2 then st else 0)

/-- `clamp(aidx + ADPCM_INDEX_DELTA[d[2:0]], 0, ADPCM_INDEX_MAX)` (R197). -/
def adpcmNextIndex (i : Fin (Config.adpcmIndexMax + 1)) (d : BitVec 4) : Fin (Config.adpcmIndexMax + 1) :=
  ⟨min ((i.val : Int) + Config.adpcmIndexDelta (d.extractLsb' 0 3)).toNat Config.adpcmIndexMax,
    Nat.lt_succ_of_le (Nat.min_le_right _ _)⟩

/-- The nibble in `abyte[3:0]` updates the predictor and the index, the loop snapshot is taken when `pos` is the loop
position, and the predictor becomes the sample (R197). -/
def adpcmDecode (l : Lane) : Lane :=
  let d : BitVec 4 := l.abyte.extractLsb' 0 4
  let diff : Int := adpcmDiff (Config.adpcmStep l.aidx) d
  let a := if d.getLsbD 3 then max (l.aval - diff) (-Config.adpcmClamp) else min (l.aval + diff) Config.adpcmClamp
  let i := adpcmNextIndex l.aidx d
  let l := { l with aval := a, aidx := i }
  let l := if l.pos = ((l.loopPos * 2 : Nat) : Int) then { l with avalLoop := a, aidxLoop := i } else l
  { l with cur := a }

/-- The decode branch of R197: an even position fetches a byte, an odd one shifts the byte down. -/
def adpcmNibble (m : List Host.Cell) (l : Lane) : LaneOut :=
  if l.pos % 2 = 0 then fifoRead m l 1 fun b l => adpcmDecode { l with abyte := BitVec.ofNat 8 b }
  else .ok (adpcmDecode { l with abyte := l.abyte >>> 4 })

/-- The loop branch of R197: the snapshot is restored, the byte at the loop position is fetched again, and the
restored predictor is the sample. -/
def adpcmLoop (m : List Host.Cell) (l : Lane) : LaneOut :=
  fifoRead m { l with pos := ((l.loopPos * 2 : Nat) : Int), aval := l.avalLoop, aidx := l.aidxLoop } 1
    fun b l => { l with abyte := BitVec.ofNat 8 b, cur := l.aval }

/-- `STEP_ADPCM(n)` (R197). -/
def stepAdpcm (m : List Host.Cell) (l : Lane) : LaneOut :=
  let l := { l with pos := l.pos + 1 }
  if l.pos < 8 then
    if l.pos = 0 then fifoRead m l 4 adpcmHeader else .ok l
  else if l.pos / 2 ≥ l.total then
    match endAction l.cnt with
    | .loop => adpcmLoop m l
    | .stop => .ok l.stopped
    | .none => adpcmNibble m l
  else adpcmNibble m l

/-- `STEP_PSG(n)` (R198). -/
def stepPsg (duty : BitVec 3) (l : Lane) : Lane :=
  { l with pos := l.pos + 1, cur := Config.psgWave duty ((l.pos + 1) % 8).toNat }

/-- `STEP_NOISE(n)` (R199). -/
def stepNoise (l : Lane) : Lane :=
  if l.noise.getLsbD 0 then { l with noise := (l.noise >>> 1) ^^^ Config.noiseXor, cur := Config.noiseLow }
  else { l with noise := l.noise >>> 1, cur := Config.noiseHigh }

/-- One generator step of the generator `g` (R195 to R199); NONE has none (R201). -/
def genStep (m : List Host.Cell) (g : Gen) (l : Lane) : LaneOut :=
  match g with
  | .pcm8 => stepPcm8 m l
  | .pcm16 => stepPcm16 m l
  | .adpcm => stepAdpcm m l
  | .psg => .ok (stepPsg (cntDuty l.cnt) l)
  | .noise => .ok (stepNoise l)
  | .none => .ok l

/-! ### The lane timer -/

/-- `ADJUST(n)` (R200). -/
def Lane.adjust (l : Lane) : Int := l.cur * 2 ^ cntVolShift l.cnt * cntVolume l.cnt

/-- The loop of R191: while the timer has wrapped, reload it and perform one generator step, leaving when the step
cleared key-on. Each turn lowers the timer, so a `fuel` above `timer - TIMER_WRAP` is as many turns as there can be
(log 22). -/
def laneLoop (m : List Host.Cell) (g : Gen) : Nat → Lane → LaneOut
  | 0, l => .ok l
  | fuel + 1, l =>
    if l.timer ≥ Config.timerWrap then
      (genStep m g { l with timer := l.tmr.toNat + (l.timer - Config.timerWrap) }).andThen fun l' =>
        if keyon l'.cnt then laneLoop m g fuel l' else .ok l'
    else .ok l

/-- The lane of `LANE_RUN(n)` when it advances: the timer is raised and the loop of R191 run. -/
def laneAdvance (m : List Host.Cell) (g : Gen) (l : Lane) : LaneOut :=
  let l := { l with timer := l.timer + Config.tickCycles }
  laneLoop m g l.timer l

/-- Whether `LANE_RUN(n)` advances the lane: key-on, a generator, and the MIN_PLAY_BYTES gate (R191). -/
def laneRuns (n : LaneIx) (l : Lane) : Bool :=
  keyon l.cnt && genOf n l.cnt != .none && !(cntFormat l.cnt != 3 && l.total < Config.minPlayBytes)

/-- `v[n] <- LANE_RUN(n)` (R191, R241, R242). -/
def State.runLane (s : State) (n : LaneIx) : State :=
  let l := s.lane n
  if laneRuns n l then
    let r := laneAdvance s.mem (genOf n l.cnt) l
    (s.commitLane n r).andThen fun s => s.setLaneValue n r.lane.adjust
  else s.setLaneValue n 0

/-! ### The micro-operation rows over CHn_CNT (R125) -/

/-- One generator step of lane `n`, as a micro-operation of its own. -/
def State.laneStep (s : State) (n : LaneIx) (f : Lane → LaneOut) : State := s.commitLane n (f (s.lane n))

/-- GEN_PCM8 (R195). -/
def execGenPcm8 (n : LaneIx) (s : State) : Result := .next (s.andThen fun s => s.laneStep n (stepPcm8 s.mem))

/-- GEN_PCM16 (R196). -/
def execGenPcm16 (n : LaneIx) (s : State) : Result := .next (s.andThen fun s => s.laneStep n (stepPcm16 s.mem))

/-- GEN_ADPCM (R197). -/
def execGenAdpcm (n : LaneIx) (s : State) : Result := .next (s.andThen fun s => s.laneStep n (stepAdpcm s.mem))

/-- GEN_PSG (R198); the duty is the selecting word's. -/
def execGenPsg (n : LaneIx) (duty : BitVec 3) (s : State) : Result :=
  .next (s.andThen fun s => s.laneStep n fun l => .ok (stepPsg duty l))

/-- GEN_NOISE (R199). -/
def execGenNoise (n : LaneIx) (s : State) : Result :=
  .next (s.andThen fun s => s.laneStep n fun l => .ok (stepNoise l))

/-- GEN_NONE (R201): the lane's value is 0 and nothing of the lane changes. -/
def execGenNone (n : LaneIx) (s : State) : Result := .next (s.andThen fun s => s.setLaneValue n 0)

/-- GEN_OFF (R191): key-on clear, the lane's value is 0 and nothing of the lane changes. -/
def execGenOff (n : LaneIx) (s : State) : Result := .next (s.andThen fun s => s.setLaneValue n 0)

end Sys2Proof.Machine
end

