-- ==== Sys2Proof/Machine/Registers.lean ====
section
/-!
DEFINITION. Family REGW (spec/40_register_writes.md): every register write, the start sequence a control write can
trigger, and `BusWrite` (spec/30_encoding.md R110, R122) with its three commands.
-/

namespace Sys2Proof.Machine

/-! ### The register writes -/

/-- `CHn_CNT` (R150): the word is stored, then a rising edge of key-on runs START(n) (R155). -/
def State.writeCnt (s : State) (n : LaneIx) (value : Word) : State :=
  let old := s.lane n
  let l := { old with cnt := value }
  if keyon value && !keyon old.cnt then s.commitLane n (laneStart s.mem l) else s.setLane n l

/-- `CHn_SAD` (R151). -/
def State.writeSad (s : State) (n : LaneIx) (value : Word) : State :=
  s.setLane n { s.lane n with src := maskAddr value }

/-- `CHn_TMR` (R152): lane 1's also writes C[0].tmr and lane 3's C[1].tmr (R120). -/
def State.writeTmr (s : State) (n : LaneIx) (value : Half) : State :=
  let s' := s.setLane n { s.lane n with tmr := value }
  if n = 1 then s'.setCap 0 { s'.cap 0 with tmr := value }
  else if n = 3 then s'.setCap 1 { s'.cap 1 with tmr := value }
  else s'

/-- `CHn_PNT` (R153). -/
def State.writePnt (s : State) (n : LaneIx) (value : Half) : State :=
  s.setLane n { s.lane n with loopPos := loopBytes value }

/-- `CHn_LEN` (R154). -/
def State.writeLen (s : State) (n : LaneIx) (value : Word) : State :=
  s.setLane n { s.lane n with length := lengthBytes value }

/-- `SOUNDCNT` (R156). -/
def State.writeSoundcnt (s : State) (value : Half) : State := { s with soundcnt := maskSoundcnt value }

/-- `SOUNDBIAS` (R157). -/
def State.writeSoundbias (s : State) (value : Half) : State := { s with bias := biasOf value }

/-- `SNDCAPuCNT` (R160): a rising edge of the enable runs CAP_START(u) (R270). -/
def State.writeCapCnt (s : State) (u : CapIx) (value : Byte) : State :=
  let old := s.cap u
  let c := { old with cnt := maskCapCnt value }
  s.setCap u (if capEnable value && !capEnable old.cnt then c.started else c)

/-- `SNDCAPuDAD` (R161). -/
def State.writeCapDad (s : State) (u : CapIx) (value : Word) : State :=
  s.setCap u { s.cap u with dst := maskAddr value }

/-- `SNDCAPuLEN` (R162): the length alone is assigned. An offset that a shorter length leaves at or above it stands until
the next byte is flushed there, and R273 then wraps it (log 23). -/
def State.writeCapLen (s : State) (u : CapIx) (value : Half) : State :=
  s.setCap u { s.cap u with length := capLengthBytes value }

/-! ### BusWrite (R110, R121, R122) -/

/-- `BusWrite(32, addr, value)`. -/
def State.busWrite32 (s : State) (addr value : Word) : State :=
  match reg32 addr with
  | some (.cnt n) => s.writeCnt n value
  | some (.sad n) => s.writeSad n value
  | some (.len n) => s.writeLen n value
  | some (.capDad u) => s.writeCapDad u value
  | none => s.raise (.badRegisterAccess 32 addr)

/-- `BusWrite(16, addr, value)`. -/
def State.busWrite16 (s : State) (addr : Word) (value : Half) : State :=
  match reg16 addr with
  | some (.tmr n) => s.writeTmr n value
  | some (.pnt n) => s.writePnt n value
  | some .soundcnt => s.writeSoundcnt value
  | some .soundbias => s.writeSoundbias value
  | some (.capLen u) => s.writeCapLen u value
  | none => s.raise (.badRegisterAccess 16 addr)

/-- `BusWrite(8, addr, value)`. -/
def State.busWrite8 (s : State) (addr : Word) (value : Byte) : State :=
  match reg8 addr with
  | some (.capCnt u) => s.writeCapCnt u value
  | none => s.raise (.badRegisterAccess 8 addr)

/-! ### The rows -/

/-- CHn_CNT (R150). -/
def execChCnt (n : LaneIx) (value : Word) (s : State) : Result := .next (s.andThen fun s => s.writeCnt n value)

/-- CHn_SAD (R151). -/
def execChSad (n : LaneIx) (value : Word) (s : State) : Result := .next (s.andThen fun s => s.writeSad n value)

/-- CHn_TMR (R152). -/
def execChTmr (n : LaneIx) (value : Half) (s : State) : Result := .next (s.andThen fun s => s.writeTmr n value)

/-- CHn_PNT (R153). -/
def execChPnt (n : LaneIx) (value : Half) (s : State) : Result := .next (s.andThen fun s => s.writePnt n value)

/-- CHn_LEN (R154). -/
def execChLen (n : LaneIx) (value : Word) (s : State) : Result := .next (s.andThen fun s => s.writeLen n value)

/-- SOUNDCNT (R156). -/
def execSoundcnt (value : Half) (s : State) : Result := .next (s.andThen fun s => s.writeSoundcnt value)

/-- SOUNDBIAS (R157). -/
def execSoundbias (value : Half) (s : State) : Result := .next (s.andThen fun s => s.writeSoundbias value)

/-- SNDCAP0CNT (R160). -/
def execSndcap0cnt (value : Byte) (s : State) : Result := .next (s.andThen fun s => s.writeCapCnt 0 value)

/-- SNDCAP1CNT (R160). -/
def execSndcap1cnt (value : Byte) (s : State) : Result := .next (s.andThen fun s => s.writeCapCnt 1 value)

/-- SNDCAP0DAD (R161). -/
def execSndcap0dad (value : Word) (s : State) : Result := .next (s.andThen fun s => s.writeCapDad 0 value)

/-- SNDCAP0LEN (R162). -/
def execSndcap0len (value : Half) (s : State) : Result := .next (s.andThen fun s => s.writeCapLen 0 value)

/-- SNDCAP1DAD (R161). -/
def execSndcap1dad (value : Word) (s : State) : Result := .next (s.andThen fun s => s.writeCapDad 1 value)

/-- SNDCAP1LEN (R162). -/
def execSndcap1len (value : Half) (s : State) : Result := .next (s.andThen fun s => s.writeCapLen 1 value)

/-- WR8, command 0x10 (R126): `BusWrite(8, addr, value)`. -/
def execWr8 (addr : Word) (value : Byte) (s : State) : Result := .next (s.andThen fun s => s.busWrite8 addr value)

/-- WR16, command 0x11 (R126): `BusWrite(16, addr, value)`. -/
def execWr16 (addr : Word) (value : Half) (s : State) : Result := .next (s.andThen fun s => s.busWrite16 addr value)

/-- WR32, command 0x12 (R126): `BusWrite(32, addr, value)`. -/
def execWr32 (addr value : Word) (s : State) : Result := .next (s.andThen fun s => s.busWrite32 addr value)

end Sys2Proof.Machine
end

