-- ==== Sys2Proof/Machine/Envelopes.lean ====
section
/-!
DEFINITION. Envelope and pitch arithmetic (spec/45_envelope_engine.md R331 to R340), as functions of their operands
alone. A real number is computed as the expression of R12 that denotes it (log 8).
-/

namespace Sys2Proof.Machine

/-- R331 (c): the release whose constant has an undefined operand. -/
def exponentialUndefined (e : Envelope) : Bool :=
  let bad := fun (duration : Nat) (floor : RealNum) =>
    match e.sustain with
    | none => true
    | some s => Config.realLe s.volume (.rat 0) || Config.realLe floor (.rat 0) || duration = 0
  match e.release with
  | some (.exponential duration floor) => bad duration floor
  | some (.exponentialUntil duration floor) => bad duration floor
  | _ => false

/-- `ENV_VALIDATE(e)` (R331): the first condition, in the order (a), (b), (c), that the envelope meets (log 18). -/
def envDefect (e : Envelope) : Option EnvDefect :=
  if e.attack = some (.exactPoints []) then some .exactWithoutPoints
  else if (match e.decay with | some (.linear _) => true | _ => false) && e.sustain.isNone then
    some .linearDecayWithoutSustain
  else if exponentialUndefined e then some .exponentialReleaseUndefined
  else none

/-- The breakpoints of an envelope, `(ta, peak, td, S, ts)` (R332). -/
structure Shape where
  ta : Nat
  peak : RealNum
  td : Nat
  sus : RealNum
  ts : Duration
  deriving DecidableEq, Repr

/-- `(ta, peak)` (R332). An empty list of points is refused by R331; it is read as no attack here. -/
def attackShape : Option Attack → Nat × RealNum
  | none => (0, Config.envFull)
  | some (.linear volume duration) => (duration, volume)
  | some (.exactPoints points) => points.getLast?.getD (0, Config.envFull)

/-- `td` (R332). -/
def decayTime : Option Decay → Nat
  | none => 0
  | some (.linear duration) => duration
  | some (.exponential _ duration) => duration

/-- `(S, ts)` (R332). -/
def sustainShape (e : Envelope) : RealNum × Duration :=
  let peak := (attackShape e.attack).2
  match e.sustain, e.decay with
  | some s, _ => (s.volume, s.duration)
  | none, some (.exponential constant duration) => (.mul peak (.exp (.mul constant (Config.realNat duration))), .ticks 0)
  | none, _ => (peak, .ticks 0)

/-- `SHAPE(e)` (R332). -/
def shape (e : Envelope) : Shape where
  ta := (attackShape e.attack).1
  peak := (attackShape e.attack).2
  td := decayTime e.decay
  sus := (sustainShape e).1
  ts := (sustainShape e).2

/-- Attack value, for `tau < ta` (R333). -/
def attackValue (a : Option Attack) (tau : Nat) : RealNum :=
  match a with
  | none => Config.envFull
  | some (.linear volume duration) => .div (.mul volume (Config.realNat tau)) (Config.realNat duration)
  | some (.exactPoints points) => ((points.filter fun p => p.1 ≤ tau).getLast?.map (·.2)).getD (.rat 0)

/-- Decay value at `u = tau - ta` (R334). -/
def decayValue (d : Option Decay) (peak sus : RealNum) (u : Nat) : RealNum :=
  match d with
  | none => peak
  | some (.linear duration) => .add peak (.div (.mul (.sub sus peak) (Config.realNat u)) (Config.realNat duration))
  | some (.exponential constant _) => .mul peak (.exp (.mul constant (Config.realNat u)))

/-- `v0 * EXP(c * t)` (R336). -/
def decayed (v0 c : RealNum) (t : Nat) : RealNum := .mul v0 (.exp (.mul c (Config.realNat t)))

/-- `c = LN(floor / S) / duration` (R336). R331 keeps a duration of 0 and an S of 0 out of every voice (log 16). -/
def releaseConstant (duration : Nat) (floor sus : RealNum) : RealNum :=
  .div (.ln (.div floor sus)) (Config.realNat duration)

/-- `RELEASE_CURVE(rel, v0, S, t) = (v, forced)` (R336). -/
def releaseCurve (rel : Option Release) (v0 sus : RealNum) (t : Nat) : RealNum × Bool :=
  match rel with
  | some .basic => (decayed v0 Config.basicK t, false)
  | some .geometric => (.mul v0 (.pow Config.geomRatio t), false)
  | some .geometricStopBlowing => (.mul v0 (.pow Config.geomSbRatio t), false)
  | some (.exponential duration floor) => (decayed v0 (releaseConstant duration floor sus) t, false)
  | some (.exponentialUntil duration floor) =>
    let v := decayed v0 (releaseConstant duration floor sus) t
    (v, Config.realLe v floor)
  | some (.staticValue value) => (value, true)
  | some .keepBlowing => (decayed v0 Config.keepblowK t, false)
  | none => (Config.noReleaseValue, false)

/-- The phases of an envelope (R337). -/
inductive Phase where
  | attack
  | decay
  | sustain
  | release
  deriving DecidableEq, Repr

/-- The result of ENV_EVAL. -/
structure EnvValue where
  v : RealNum
  phase : Phase
  done : Bool
  deriving DecidableEq, Repr

/-- The release branch of ENV_EVAL, `t` after the sustain ended (R337). -/
def envRelease (e : Envelope) (sus : RealNum) (t : Nat) : EnvValue :=
  let (v, forced) := releaseCurve e.release sus sus t
  ⟨v, .release, forced || Config.realLe v Config.relDoneThreshold⟩

/-- `ENV_EVAL(e, tau) = (v, phase, done)` (R337). -/
def envEval (e : Envelope) (tau : Nat) : EnvValue :=
  let sh := shape e
  if tau < sh.ta then ⟨attackValue e.attack tau, .attack, false⟩
  else if tau < sh.ta + sh.td then ⟨decayValue e.decay sh.peak sh.sus (tau - sh.ta), .decay, false⟩
  else
    match sh.ts with
    | .inf => ⟨sh.sus, .sustain, false⟩
    | .ticks ts =>
      if tau < sh.ta + sh.td + ts then ⟨sh.sus, .sustain, false⟩
      else envRelease e sh.sus (tau - (sh.ta + sh.td + ts))

/-- `while q > 127 do q <- q >> 1` (R338); halving `q` at most `q` times. -/
def downShift : Nat → Nat → Nat
  | 0, q => q
  | fuel + 1, q => if q > 127 then downShift fuel (q / 2) else q

/-- `VOLQ(v)` (R338). -/
def volq (v : RealNum) : BitVec 7 :=
  let q := if Config.realLe v (.rat 0) then 0 else (Config.realFloor v).toNat
  BitVec.ofNat 7 (downShift q q)

/-- The `r` of R340's formula path, before rounding. -/
def pitchReal (baseReload : Half) (offset : RealNum) : RealNum :=
  let m := .div Config.pitchTimer (.sub Config.maxReload (Config.realNat baseReload.toNat))
  .sub Config.maxReload (.div Config.pitchTimer (.mul (.pow2 (.div offset (.rat 12))) m))

/-- `PITCH(p)` (R340). -/
def pitchReload : Pitch → Half
  | .table reload => reload
  | .formula baseReload offset =>
    BitVec.ofInt 16 (clamp (Config.pitchRound (pitchReal baseReload offset)) 0 0xFFFF)

end Sys2Proof.Machine
end

