-- ==== Sys2Proof/Machine/Voices.lean ====
section
/-!
DEFINITION. Family CHM (spec/44_channel_manager.md): allocation of voices (REQCH) and their release (RELEASE). It
reads and writes the voice table only.
-/

namespace Sys2Proof.Machine

/-- The preferred-lane list of a category (R292). -/
def prefLanes : Category → List LaneIx
  | .pcm => Config.prefPcm
  | .psg => Config.prefPsg
  | .noise => Config.prefNoise

/-- The five tiers, in priority order (R293). -/
inductive Tier where
  | opened
  | silentFreeing
  | sameTrackDrum
  | anyFreeing
  | sameTrack
  deriving DecidableEq, Repr

/-- Tiers 1 to 5 (R295). -/
def tiers : List Tier := [.opened, .silentFreeing, .sameTrackDrum, .anyFreeing, .sameTrack]

/-- `tier_i(x)` for a request (R293). -/
def tierHolds (category : Category) (track : Nat) (t : Tier) (x : Voice) : Bool :=
  match t, x with
  | .opened, .opened => true
  | .silentFreeing, .freeing f => Config.realLe f.cur Config.freeSilent
  | .sameTrackDrum, .used u => category = .pcm && u.track = track && u.kind = .drum
  | .anyFreeing, .freeing _ => true
  | .sameTrack, .used u => u.track = track
  | _, _ => false

/-- The lane REQCH finds: the first tier that holds of some lane of the list, and the first such lane in list order
(R295). -/
def State.findLane (s : State) (category : Category) (track : Nat) : Option LaneIx :=
  tiers.findSome? fun t => (prefLanes category).find? fun n => tierHolds category track t (s.voice n)

/-- `REQCH(category, track)` (R295): the lane, now Withheld, or NoLaneAvailable (R407). -/
def State.reqch (s : State) (category : Category) (track : Nat) : Option LaneIx × State :=
  match s.findLane category track with
  | some n => (some n, s.setVoice n .withheld)
  | none => (none, s.raise (.noLaneAvailable category track))

/-- What RELEASE makes of one voice (R298). -/
def releaseVoice (track tick : Nat) (x : Voice) : Voice :=
  match x with
  | .used u =>
    if u.track = track then
      .freeing { cur := u.cur, init := u.cur, relTick := tick, release := u.env.release, sus := (shape u.env).sus }
    else x
  | _ => x

/-- `RELEASE track, tick` (R298). -/
def State.releaseTrack (s : State) (track tick : Nat) : State :=
  { s with voices := s.voices.map (releaseVoice track tick) }

/-- REQCH, command 0x05 (R295); the lane is returned to the host. -/
def execReqch (category : Category) (track : Nat) (s : State) : Result :=
  .next (s.andThen fun s => let (n, s') := s.reqch category track; s'.returning n)

/-- RELEASE, command 0x07 (R298). -/
def execRelease (track tick : Nat) (s : State) : Result := .next (s.andThen fun s => s.releaseTrack track tick)

end Sys2Proof.Machine
end

