-- ==== Sys2Proof/Machine/Engine.lean ====
section
/-!
DEFINITION. Family ENV (spec/45_envelope_engine.md): creating a voice (TRIGGER, POPULATE) and the per-tick engine.
Each register write of the engine is the operation of its register (spec/40_register_writes.md), which is what
`BusWrite` at that register's address performs (log 20).
-/

namespace Sys2Proof.Machine

/-! ### Programming a lane -/

/-- `rep = 1 (loop) if rt.repeating else 2 (one-shot)` (R323). -/
def repeatField (repeating : Bool) : BitVec 2 := if repeating then 1 else 2

/-- The last control word of PROGRAM_LANE (R323). -/
def programWord (rt : ResolvedTimbre) (pan : Nat) (q : BitVec 7) : Word :=
  packCnt true rt.format rt.duty (repeatField rt.repeating) pan rt.shiftSel q

/-- The writes of PROGRAM_LANE before the last (R323): none of them can raise. -/
def State.programRegs (s : State) (n : LaneIx) (src : Word) (loopWords : Half) (lenWords : BitVec 21)
    (reload : Option Half) : State :=
  let s := s.writeCnt n 0
  let s := match reload with
    | some r => s.writeTmr n r
    | none => s
  ((s.writeSad n src).writePnt n loopWords).writeLen n (lenWords.setWidth 32)

/-- `PROGRAM_LANE(n, rt, pan, src, loop_words, len_words, q, reload)` (R323). -/
def State.programLane (s : State) (n : LaneIx) (rt : ResolvedTimbre) (pan : Nat) (src : Word) (loopWords : Half)
    (lenWords : BitVec 21) (q : BitVec 7) (reload : Option Half) : State :=
  (s.programRegs n src loopWords lenWords reload).writeCnt n (programWord rt pan q)

/-- `SET_VOLUME(n, q)` (R339). -/
def State.setVolume (s : State) (n : LaneIx) (q : BitVec 7) : State :=
  s.writeCnt n (withVolumeField (s.lane n).cnt q)

/-! ### Creating a voice -/

/-- A lane operand that is in 0..15 (R322). -/
def laneOperand (n : Int) : Option LaneIx :=
  if h : 0 ≤ n ∧ n < 16 then some ⟨n.toNat, by omega⟩ else none

/-- `pan <- clamp(PAN_CENTRE + ev.pan_offset, 0, 128)` (R322). -/
def panOf (offset : Int) : Nat := (clamp (Config.panCentre + offset) 0 128).toNat

/-- The first defect of the timbre's envelope or of a queued one, in order (R322, R331). -/
def timbreDefect (rt : ResolvedTimbre) : Option EnvDefect :=
  (rt.env :: rt.queue.map (·.2)).findSome? envDefect

/-- The `Used` record POPULATE builds (R322). -/
def newVoice (now : Nat) (ev : Event) (rt : ResolvedTimbre) : UsedVoice where
  track := ev.track
  kind := ev.kind
  category := rt.category
  rt := rt
  pan := panOf ev.panOffset
  env := rt.env
  pitchAdj := rt.pitchAdj.map fun p => (p.1, pitchReload p.2)
  samples := rt.samples
  queue := rt.queue
  start := now
  segStart := 0
  cur := .rat 0
  completed := false

/-- POPULATE of a lane that is Withheld and a timbre that is complete (R322). -/
def State.fillVoice (s : State) (n : LaneIx) (ev : Event) (rt : ResolvedTimbre) : State :=
  (s.setVoice n (.used (newVoice s.tick ev rt))).programLane n rt (panOf ev.panOffset) rt.src rt.loopWords rt.lenWords 0
    (some (pitchReload rt.pitch))

/-- `POPULATE n, ev, rt` (R322): LaneIndex, then EnvelopeIncomplete, before any change (R408, R409, R412). -/
def State.populate (s : State) (n : Int) (ev : Event) (rt : ResolvedTimbre) : State :=
  match laneOperand n with
  | none => s.raise (.laneIndex n)
  | some k =>
    match s.voice k with
    | .withheld =>
      match timbreDefect rt with
      | some reason => s.raise (.envelopeIncomplete reason)
      | none => s.fillVoice k ev rt
    | .opened | .used _ | .freeing _ | .blocked => s.raise (.laneIndex n)

/-- `TRIGGER ev` with its timbre (R320): REQCH, then POPULATE of the lane found; the lane is returned unless one of
the two raised. -/
def State.triggerWith (s : State) (ev : Event) (rt : ResolvedTimbre) : Option LaneIx × State :=
  match s.reqch rt.category ev.track with
  | (none, s') => (none, s')
  | (some n, s') =>
    let s'' := s'.populate (n.val : Int) ev rt
    (if s''.fatal.isSome then none else some n, s'')

/-- `TRIGGER ev` (R320): RESOLVE is called once, here. -/
def State.trigger (s : State) (ev : Event) : Option LaneIx × State := s.triggerWith ev (Config.resolve ev)

/-! ### The per-tick state machine -/

/-- Apply to the voice of lane `n` if it is Used. -/
def State.onUsed (s : State) (n : LaneIx) (f : UsedVoice → State) : State :=
  match s.voice n with
  | .used u => f u
  | .opened | .freeing _ | .withheld | .blocked => s

/-- The due adjustment that is applied: the greatest time, among equals the last in list order (R342). -/
def latestDue (due : List (Nat × Half)) : Option (Nat × Half) :=
  due.foldl (fun best p => match best with
    | none => some p
    | some b => if b.1 ≤ p.1 then some p else some b) none

/-- EVAL_USED, part 1 (R342). -/
def State.evalPitch (s : State) (n : LaneIx) (vt : Nat) : State :=
  s.onUsed n fun u =>
    match latestDue (u.pitchAdj.filter fun p => p.1 ≤ vt) with
    | none => s
    | some p => (s.writeTmr n p.2).setVoice n (.used { u with pitchAdj := u.pitchAdj.filter fun p => vt < p.1 })

/-- The retriggers of R343, in list order, abandoned at the first fatal error. -/
def State.retrigger (s : State) (n : LaneIx) (rt : ResolvedTimbre) (pan : Nat) : List (Nat × SampleSeg) → State
  | [] => s
  | (_, seg) :: rest =>
    (s.programLane n rt pan seg.src seg.loopWords seg.lenWords (volq seg.volume) none).andThen fun s =>
      s.retrigger n rt pan rest

/-- EVAL_USED, part 2 (R343). -/
def State.evalSamples (s : State) (n : LaneIx) (vt : Nat) : State :=
  s.onUsed n fun u =>
    (s.retrigger n u.rt u.pan (u.samples.filter fun p => p.1 = vt)).andThen fun s =>
      s.setVoice n (.used { u with samples := u.samples.filter fun p => vt < p.1 })

/-- Take over an envelope value: `cur`, the volume field, and `completed` if done (R344, R345). -/
def State.applyEnv (s : State) (n : LaneIx) (u : UsedVoice) (x : EnvValue) : State :=
  (s.setVoice n (.used { u with cur := x.v, completed := u.completed || x.done })).setVolume n (volq x.v)

/-- EVAL_USED, part 3 (R344). -/
def State.evalVolume (s : State) (n : LaneIx) (vt : Nat) : State :=
  s.onUsed n fun u =>
    if u.completed then s else s.applyEnv n u (envEval u.env ((vt - u.segStart) * Config.envTimeScale))

/-- EVAL_USED, part 4 (R345, R346): a completed voice is re-armed, held, or freed. -/
def State.evalCompletion (s : State) (n : LaneIx) (vt : Nat) : State :=
  s.onUsed n fun u =>
    if u.completed then
      match u.queue with
      | (trig, e2) :: rest =>
        if trig ≤ vt then
          s.applyEnv n { u with queue := rest, env := e2, segStart := vt, completed := false } (envEval e2 0)
        else (s.setVoice n (.used { u with cur := .rat 0 })).setVolume n 0
      | [] => (s.setVolume n 0).setVoice n .opened
    else s

/-- EVAL_USED(n) at voice-relative tick `vt` (R348): R342, R343, R344, then R345 or R346. -/
def State.evalUsed (s : State) (n : LaneIx) (vt : Nat) : State :=
  ((s.evalPitch n vt).evalSamples n vt).andThen fun s => (s.evalVolume n vt).evalCompletion n vt

/-- EVAL_FREEING(n) (R347). -/
def State.evalFreeing (s : State) (n : LaneIx) (f : FreeingVoice) : State :=
  let t := (s.tick - f.relTick) / Config.eventTiming * Config.envTimeScale
  let (v, forced) := releaseCurve f.release f.init f.sus t
  if forced || Config.realLe v Config.freeSilent then (s.setVolume n 0).setVoice n .opened
  else (s.setVoice n (.freeing { f with cur := v })).setVolume n (volq v)

/-- One voice in the engine's pass (R348). -/
def State.evalVoice (s : State) (n : LaneIx) : State :=
  match s.voice n with
  | .used u =>
    if (s.tick - u.start) % Config.eventTiming = 0 then s.evalUsed n ((s.tick - u.start) / Config.eventTiming) else s
  | .freeing f =>
    if f.relTick < s.tick && (s.tick - f.relTick) % Config.eventTiming = 0 then s.evalFreeing n f else s
  | .opened | .withheld | .blocked => s

/-- The engine's pass over these voices in this order, abandoned at the first fatal error (R348, R400). -/
def State.evalVoices (s : State) : List LaneIx → State
  | [] => s
  | n :: ns => (s.evalVoice n).andThen fun s => s.evalVoices ns

/-- ENGINE() (R348). -/
def State.engine (s : State) : State := s.evalVoices (List.finRange 16)

/-! ### The rows -/

/-- TRIGGER, command 0x04 (R320); the lane is returned to the host. -/
def execTrigger (ev : Event) (s : State) : Result :=
  .next (s.andThen fun s => let (n, s') := s.trigger ev; s'.returning n)

/-- POPULATE, command 0x06 (R322). -/
def execPopulate (lane : Int) (ev : Event) (rt : ResolvedTimbre) (s : State) : Result :=
  .next (s.andThen fun s => s.populate lane ev rt)

end Sys2Proof.Machine
end

