-- ==== Sys2Proof/Machine/Mixer.lean ====
section
/-!
DEFINITION. Family MIX (spec/42_mixer.md) and the four output rows over SOUNDCNT. The local values of one MIX are the
latches `mix` (log 6).
-/

namespace Sys2Proof.Machine

/-- The lanes in index order: 0 to 3 by R241, then 4 to 15 by R242. -/
def allLanes : List LaneIx := List.finRange 16

/-- `v[n] <- LANE_RUN(n)` for these lanes in this order, abandoned at the first fatal error (R241, R242, R400). -/
def State.runLanes (s : State) : List LaneIx → State
  | [] => s
  | n :: ns => (s.runLane n).andThen fun s => s.runLanes ns

/-- `(v[n] * (128 - pan)) >> 10` on the left, `(v[n] * pan) >> 10` on the right (R243). -/
def State.panned (s : State) (side : Side) (n : LaneIx) : Int :=
  match side with
  | .left => asr (s.laneValue n * (128 - (cntPan (s.lane n).cnt : Int))) 10
  | .right => asr (s.laneValue n * (cntPan (s.lane n).cnt : Int)) 10

/-- Lanes 1 and 3 are skipped when their bypass bit is set (R243). -/
def State.bypassed (s : State) (n : LaneIx) : Bool :=
  (n = 1 && byp1 s.soundcnt) || (n = 3 && byp3 s.soundcnt)

/-- One accumulator of ACCUMULATE (R243). -/
def State.accumulated (s : State) (side : Side) : Int :=
  ((allLanes.filter fun n => !s.bypassed n).map (s.panned side)).sum

/-- `(left, right) <- ACCUMULATE(v)` (R243). -/
def State.accumulate (s : State) : State :=
  { s with mix := { s.mix with left := s.accumulated .left, right := s.accumulated .right } }

/-- CAPTURE_FEED (R245): unit 0, then unit 1. -/
def State.captureFeed (s : State) : State := (s.feedCap 0).andThen fun s => s.feedCap 1

/-- The accumulator of a side. -/
def State.accumulator (s : State) : Side → Int
  | .left => s.mix.left
  | .right => s.mix.right

/-- `outl <- x` or `outr <- x`. -/
def State.setOutput (s : State) (side : Side) (x : Int) : State :=
  match side with
  | .left => { s with mix := { s.mix with outl := x } }
  | .right => { s with mix := { s.mix with outr := x } }

/-- OUT_MIXER: the accumulator (R244). -/
def State.outMixer (s : State) (side : Side) : State := s.setOutput side (s.accumulator side)

/-- OUT_CH1: lane 1's panned value (R244). -/
def State.outCh1 (s : State) (side : Side) : State := s.setOutput side (s.panned side 1)

/-- OUT_CH3: lane 3's panned value (R244). -/
def State.outCh3 (s : State) (side : Side) : State := s.setOutput side (s.panned side 3)

/-- OUT_CH1_CH3: both, floored separately and added (R244). -/
def State.outCh1Ch3 (s : State) (side : Side) : State := s.setOutput side (s.panned side 1 + s.panned side 3)

/-- OUTPUT_SELECT of one side (R244). -/
def State.outputSelect (s : State) (side : Side) : State :=
  match (outSelect s.soundcnt side).toNat with
  | 0 => s.outMixer side
  | 1 => s.outCh1 side
  | 2 => s.outCh3 side
  | _ => s.outCh1Ch3 side

/-- `FINAL(o)` (R246). -/
def State.final (s : State) (o : Int) : Int :=
  let o := asr (o * masterVol s.soundcnt) 7
  let o := asr o Config.outShift
  let o := if Config.applyBias then o + (s.bias.toNat * 64 : Nat) - 0x8000 else o
  let o := clamp o (-0x8000) 0x7FFF
  if Config.degrade10bit then o - o % 64 else o

/-- MIX up to its return (R240): the four locals start at 0; with the master enable set, the lanes run, then the
accumulators, the capture units and the output select. -/
def State.runMix (s : State) : State :=
  let s := { s with mix := { s.mix with left := 0, right := 0, outl := 0, outr := 0 } }
  if masterEnable s.soundcnt then
    (s.runLanes allLanes).andThen fun s => s.accumulate.captureFeed.andThen fun s =>
      (s.outputSelect .left).outputSelect .right
  else s

/-- What MIX returns (R240): `(FINAL(outl), FINAL(outr))`. -/
def State.mixed (s : State) : Int × Int := (s.final s.mix.outl, s.final s.mix.outr)

/-! ### The output rows (R125, R244) -/

/-- OUT_MIXER. -/
def execOutMixer (side : Side) (s : State) : Result := .next (s.andThen fun s => s.outMixer side)

/-- OUT_CH1. -/
def execOutCh1 (side : Side) (s : State) : Result := .next (s.andThen fun s => s.outCh1 side)

/-- OUT_CH3. -/
def execOutCh3 (side : Side) (s : State) : Result := .next (s.andThen fun s => s.outCh3 side)

/-- OUT_CH1_CH3. -/
def execOutCh1Ch3 (side : Side) (s : State) : Result := .next (s.andThen fun s => s.outCh1Ch3 side)

end Sys2Proof.Machine
end

