-- ==== Sys2Proof/Machine/Sequence.lean ====
section
/-!
DEFINITION. Family SEQ (spec/46_tick_sequence.md): the output tick, the event list and host writes of sample memory;
and RESET (spec/70_reset_and_hazards.md R430).
-/

namespace Sys2Proof.Machine

/-- The loop of DISPATCH over the pending events (R382): while the head is due it leaves the list and is triggered. -/
def State.dispatchFrom (s : State) : List Event → State
  | [] => s
  | ev :: rest =>
    if ev.tick = s.tick then ({ s with events := rest }.trigger ev).2.andThen fun s => s.dispatchFrom rest else s

/-- DISPATCH() (R382). -/
def State.dispatch (s : State) : State := s.dispatchFrom s.events

/-- The end of STEP (R380): the pair is stored and emitted as output sample number G.T, then G.T advances. -/
def State.finishStep (s : State) : State :=
  let p := s.mixed
  { s with out := p, emitted := .sample s.tick p.1 p.2 :: s.emitted, tick := s.tick + 1 }

/-- STEP (R380): dispatch, engine, mix, output; abandoned at the first fatal error. -/
def State.outputTick (s : State) : State :=
  s.dispatch.andThen fun s => s.engine.andThen fun s => s.runMix.andThen State.finishStep

/-- The first tick of the list that is below the one before it, or below `last` (R381). -/
def firstLate (last : Nat) : List Event → Option Nat
  | [] => none
  | ev :: rest => if ev.tick < last then some ev.tick else firstLate ev.tick rest

/-- `LOAD_EVENTS list` (R381): the list is replaced, or EventOrder is raised and the old list kept (R410). -/
def State.loadEvents (s : State) (events : List Event) : State :=
  match firstLate s.tick events with
  | some t => s.raise (.eventOrder t)
  | none => { s with events := events }

/-- `MEMW addr, byte` (R385). -/
def State.hostWrite (s : State) (addr : Word) (byte : Byte) : State :=
  match memWrite s.mem addr 1 byte.toNat with
  | .error a => s.raise (.busError a)
  | .ok m => { s with mem := m }

/-- RESET, command 0x00 (R430): also while a fatal error is set. -/
def execReset (s : State) : Result := .next s.resetBlock

/-- STEP, command 0x01 (R380). -/
def execStep (s : State) : Result := .next (s.andThen State.outputTick)

/-- MEMW, command 0x02 (R385). -/
def execMemw (addr : Word) (byte : Byte) (s : State) : Result := .next (s.andThen fun s => s.hostWrite addr byte)

/-- LOAD_EVENTS, command 0x03 (R381). -/
def execLoadEvents (events : List Event) (s : State) : Result := .next (s.andThen fun s => s.loadEvents events)

end Sys2Proof.Machine
end

