-- ==== Sys2Proof/Machine/Dispatch.lean ====
section
/-!
DEFINITION. The meaning of every operation: one arm per row of spec/opcode_table.json.
-/

namespace Sys2Proof.Machine

/-- Perform one operation. -/
def exec (i : Instr) (s : State) : Host.Outcome State Fault Refusal :=
  match i with
  | .reset => Sys2Proof.Machine.execReset s
  | .step => Sys2Proof.Machine.execStep s
  | .memw addr byte => Sys2Proof.Machine.execMemw addr byte s
  | .loadEvents events => Sys2Proof.Machine.execLoadEvents events s
  | .trigger ev => Sys2Proof.Machine.execTrigger ev s
  | .reqch category track => Sys2Proof.Machine.execReqch category track s
  | .populate lane ev rt => Sys2Proof.Machine.execPopulate lane ev rt s
  | .release track tick => Sys2Proof.Machine.execRelease track tick s
  | .wr8 addr value => Sys2Proof.Machine.execWr8 addr value s
  | .wr16 addr value => Sys2Proof.Machine.execWr16 addr value s
  | .wr32 addr value => Sys2Proof.Machine.execWr32 addr value s
  | .chCnt n value => Sys2Proof.Machine.execChCnt n value s
  | .chSad n value => Sys2Proof.Machine.execChSad n value s
  | .chTmr n value => Sys2Proof.Machine.execChTmr n value s
  | .chPnt n value => Sys2Proof.Machine.execChPnt n value s
  | .chLen n value => Sys2Proof.Machine.execChLen n value s
  | .soundcnt value => Sys2Proof.Machine.execSoundcnt value s
  | .soundbias value => Sys2Proof.Machine.execSoundbias value s
  | .sndcap0cnt value => Sys2Proof.Machine.execSndcap0cnt value s
  | .sndcap1cnt value => Sys2Proof.Machine.execSndcap1cnt value s
  | .sndcap0dad value => Sys2Proof.Machine.execSndcap0dad value s
  | .sndcap0len value => Sys2Proof.Machine.execSndcap0len value s
  | .sndcap1dad value => Sys2Proof.Machine.execSndcap1dad value s
  | .sndcap1len value => Sys2Proof.Machine.execSndcap1len value s
  | .genPcm8 n => Sys2Proof.Machine.execGenPcm8 n s
  | .genPcm16 n => Sys2Proof.Machine.execGenPcm16 n s
  | .genAdpcm n => Sys2Proof.Machine.execGenAdpcm n s
  | .genPsg n duty => Sys2Proof.Machine.execGenPsg n duty s
  | .genNoise n => Sys2Proof.Machine.execGenNoise n s
  | .genNone n => Sys2Proof.Machine.execGenNone n s
  | .genOff n => Sys2Proof.Machine.execGenOff n s
  | .capPcm16 u oneshot => Sys2Proof.Machine.execCapPcm16 u oneshot s
  | .capPcm8 u oneshot => Sys2Proof.Machine.execCapPcm8 u oneshot s
  | .outMixer side => Sys2Proof.Machine.execOutMixer side s
  | .outCh1 side => Sys2Proof.Machine.execOutCh1 side s
  | .outCh3 side => Sys2Proof.Machine.execOutCh3 side s
  | .outCh1Ch3 side => Sys2Proof.Machine.execOutCh1Ch3 side s

end Sys2Proof.Machine
end

