-- ==== Sys2Proof/Machine/Step.lean ====
section
/-!
DEFINITION. One step of the machine: the oldest operation that waits at the ports is taken, decoded and performed. The
block has no fetched instruction stream (spec/30_encoding.md, introduction); what it performs is what the host issues
(spec/46_tick_sequence.md R384), and it waits for nothing and does nothing by itself (log 2).
-/

namespace Sys2Proof.Machine

/-- One step. With nothing at the ports the state stays as it is. -/
def step (s : State) : Host.Outcome State Fault Refusal :=
  match s.port with
  | [] => .next s
  | item :: rest =>
    match decode item with
    | .ok i => exec i { s with port := rest }
    | .error r => .next ({ s with port := rest }.rejected r)

/-- Place an opcode-table word where step takes its next operation from (log 21). -/
def State.withFetchWord (s : State) (nbits w : Nat) : State := { s with port := tableItem nbits w :: s.port }

end Sys2Proof.Machine
end

