-- ==== Sys2Proof/Safety.lean ====
section
/-!
DEFINITION. What counts as a good state, in the terms the statements use: each predicate is one group of the ranges and
relations that spec/10_state.md and the operation rules give the state.
-/

namespace Sys2Proof.Machine

/-- No fatal error is set (R400). -/
abbrev State.live (s : State) : Prop := s.fatal = none

/-- A signed 16-bit value. -/
abbrev signed16 (x : Int) : Prop := -0x8000 ≤ x ∧ x ≤ 0x7FFF

/-- The five bus registers of a lane hold what a write can leave there (R30 to R33). -/
abbrev Lane.registersInRange (l : Lane) : Prop :=
  maskAddr l.src = l.src ∧ 4 ∣ l.loopPos ∧ l.loopPos ≤ 0x3FFFC ∧ 4 ∣ l.length ∧ l.length ≤ 0x7FFFFC

/-- The registers of a capture unit hold what a write can leave there (R40, R41, R162), and its offset is below the
greatest length that can be written (R42, R162). -/
abbrev Capture.registersInRange (c : Capture) : Prop :=
  maskCapCnt c.cnt = c.cnt ∧ maskAddr c.dst = c.dst ∧ 4 ∣ c.length ∧ 4 ≤ c.length ∧ c.length ≤ 0x3FFFC ∧
    c.woff < 0x3FFFC

/-- The offset of a capture unit is below its length (R42). Every operation keeps this but a SNDCAPuLEN write of a length
at or below the offset, which R162 leaves where it is (log 23). -/
abbrev Capture.offsetBelowLength (c : Capture) : Prop := c.woff < c.length

/-- Every register of the block is in the range its rule gives (R22, R30 to R33, R40 to R42). -/
abbrev State.registersInRange (s : State) : Prop :=
  maskSoundcnt s.soundcnt = s.soundcnt ∧ (∀ n, (s.lane n).registersInRange) ∧ (∀ u, (s.cap u).registersInRange)

/-- The run state of a lane is in the range its rules give: samples and predictors are signed 16-bit (R36, R38), the
next burst word is word aligned (R85, R86), the ring holds at most FIFO_BYTES unread bytes (R192 d), and the noise
register stays below 2^15 (R199 b). -/
abbrev Lane.runStateInRange (l : Lane) : Prop :=
  signed16 l.cur ∧ signed16 l.aval ∧ signed16 l.avalLoop ∧ 4 ∣ l.foff ∧ 4 ∣ l.loopPos ∧ 4 ∣ l.length ∧
    l.flevel ≤ Config.fifoBytes ∧ l.noise.toNat < 2 ^ 15

/-- The run state of every lane is in range, and so is the output pair (R25, R246). -/
abbrev State.runStateInRange (s : State) : Prop :=
  (∀ n, (s.lane n).runStateInRange) ∧ signed16 s.out.1 ∧ signed16 s.out.2

/-- Timers between operations (R34, R42, R191): below TIMER_WRAP + TICK_CYCLES in every lane, and below TIMER_WRAP in a
lane that is keyed on and in a unit that is enabled, unless a fatal error has abandoned an operation. -/
abbrev State.timersInRange (s : State) : Prop :=
  (∀ n, (s.lane n).timer < Config.timerWrap + Config.tickCycles ∧
    (s.fatal = none → keyon (s.lane n).cnt = true → (s.lane n).timer < Config.timerWrap)) ∧
  (∀ u, s.fatal = none → capEnable (s.cap u).cnt = true → (s.cap u).timer < Config.timerWrap)

/-- Lanes 1 and 3 are Blocked and no other voice is (R43). -/
abbrev State.blockedExactly (s : State) : Prop := ∀ n, s.voice n = .blocked ↔ n ∈ Config.blockedLanes

/-- Pending events are in non-decreasing order of tick, none of them in the past (R24, R381, R382). -/
abbrev State.eventsInOrder (s : State) : Prop :=
  s.events.Pairwise (fun a b => a.tick ≤ b.tick) ∧ ∀ ev ∈ s.events, s.tick ≤ ev.tick

/-- No voice starts in the future (R44, R322). -/
abbrev State.startsInPast (s : State) : Prop := ∀ n, ∀ u, s.voice n = .used u → u.start ≤ s.tick

/-- Memory is in its canonical form and lists mapped addresses only (R48, R81, R82). -/
abbrev State.memoryInForm (s : State) : Prop :=
  Memory.wf s.mem ∧ ∀ c ∈ s.mem, Config.mapped (BitVec.ofNat 32 c.1) = true ∧ c.1 < 2 ^ 32

end Sys2Proof.Machine
end

