-- ==== Sys2Proof/Certificates/Slice0/Obligations.lean ====
section
/-!
DEFINITION. The statements for the provers: what the numbered rules of spec/ say the block does. A statement whose
docstring names a log entry rests on a choice of the model there.
-/

open Sys2Proof Sys2Proof.Machine

/-! ### Decoding, encoding and stepping -/

/-- Every well-formed operation is read back from how it is presented (R110, R121, R125 to R128). The byte layout of the
operand records is the model's (log 3), and so are the values of unexamined selector bits in `encode`. -/
def Obligations.DecodeEncodeRoundTrip : Prop :=
  ∀ i : Instr, i.wellFormed = true → decode (encode i) = .ok i

/-- Whatever the decoder answers is well formed (R125, R190). -/
def Obligations.DecodeGivesWellFormed : Prop :=
  ∀ item i, decode item = .ok i → i.wellFormed = true

/-- R190, the table: the generator of a lane is a function of `cnt[30:29]` and the lane index; and a stored control word
selects exactly that generator's row, or GEN_OFF when key-on is clear (R125). -/
def Obligations.SelectorNamesTheGenerator : Prop :=
  ∀ (n : LaneIx) (cnt : Word),
    genOf n cnt =
      (if cnt.extractLsb' 29 2 = 0 then .pcm8
      else if cnt.extractLsb' 29 2 = 1 then .pcm16
      else if cnt.extractLsb' 29 2 = 2 then .adpcm
      else if n.val ≤ 7 then .none
      else if n.val ≤ 13 then .psg
      else .noise) ∧
    decode (.selCnt n cnt) = .ok
      (if cnt.getLsbD 31 = false then .genOff n
      else match genOf n cnt with
        | .pcm8 => .genPcm8 n
        | .pcm16 => .genPcm16 n
        | .adpcm => .genAdpcm n
        | .psg => .genPsg n (cnt.extractLsb' 26 3)
        | .noise => .genNoise n
        | .none => .genNone n)

/-- A few words written out from the spec's encodings (R111 to R119, R125, R126). The operand bytes of MEMW are the
model's layout (log 3). -/
def Obligations.SpecWordsDecode : Prop :=
  decode (.bus32 0x04000400 0xC240007F) = .ok (.chCnt 0 0xC240007F) ∧
  decode (.bus32 0x04000404 0xFFFFFFFF) = .ok (.chSad 0 0xFFFFFFFF) ∧
  decode (.bus16 0x04000418 0xFE00) = .ok (.chTmr 1 0xFE00) ∧
  decode (.bus16 0x0400040A 3) = .ok (.chPnt 0 3) ∧
  decode (.bus32 0x040004FC 2) = .ok (.chLen 15 2) ∧
  decode (.bus16 0x04000500 0x807F) = .ok (.soundcnt 0x807F) ∧
  decode (.bus8 0x04000509 0x80) = .ok (.sndcap1cnt 0x80) ∧
  decode (.bus32 0x04000518 0x02000003) = .ok (.sndcap1dad 0x02000003) ∧
  decode (.command 0x01 []) = .ok .step ∧
  decode (.command 0x02 [0x00, 0x10, 0x00, 0x00, 0x7F]) = .ok (.memw 0x1000 0x7F) ∧
  decode (.selCnt 15 0xE0000000) = .ok (.genNoise 15) ∧
  decode (.selCnt 8 0xEC000000) = .ok (.genPsg 8 3) ∧
  decode (.selCap 0 0x84) = .ok (.capPcm16 0 true) ∧
  decode (.selOut .right 0x8C00) = .ok (.outCh1Ch3 .right)

/-- R121: the whole bus map. Each address of it, at its width, is the write of its register; and nothing else decodes. -/
def Obligations.BusMapIsExactlyTheTable : Prop :=
  (∀ (n : LaneIx) (v : Word) (h : Half),
    decode (.bus32 (0x04000400 + BitVec.ofNat 32 (0x10 * n.val)) v) = .ok (.chCnt n v) ∧
    decode (.bus32 (0x04000404 + BitVec.ofNat 32 (0x10 * n.val)) v) = .ok (.chSad n v) ∧
    decode (.bus16 (0x04000408 + BitVec.ofNat 32 (0x10 * n.val)) h) = .ok (.chTmr n h) ∧
    decode (.bus16 (0x0400040A + BitVec.ofNat 32 (0x10 * n.val)) h) = .ok (.chPnt n h) ∧
    decode (.bus32 (0x0400040C + BitVec.ofNat 32 (0x10 * n.val)) v) = .ok (.chLen n v)) ∧
  (∀ (v : Word) (h : Half) (b : Byte),
    decode (.bus16 0x04000500 h) = .ok (.soundcnt h) ∧
    decode (.bus16 0x04000504 h) = .ok (.soundbias h) ∧
    decode (.bus8 0x04000508 b) = .ok (.sndcap0cnt b) ∧
    decode (.bus8 0x04000509 b) = .ok (.sndcap1cnt b) ∧
    decode (.bus32 0x04000510 v) = .ok (.sndcap0dad v) ∧
    decode (.bus16 0x04000514 h) = .ok (.sndcap0len h) ∧
    decode (.bus32 0x04000518 v) = .ok (.sndcap1dad v) ∧
    decode (.bus16 0x0400051C h) = .ok (.sndcap1len h)) ∧
  (∀ (a v : Word) (i : Instr), decode (.bus32 a v) = .ok i →
    (∃ n : LaneIx, ∃ o ∈ [0x0, 0x4, 0xC], a = 0x04000400 + BitVec.ofNat 32 (0x10 * n.val + o)) ∨
      a ∈ [0x04000510, 0x04000518]) ∧
  (∀ (a : Word) (h : Half) (i : Instr), decode (.bus16 a h) = .ok i →
    (∃ n : LaneIx, ∃ o ∈ [0x8, 0xA], a = 0x04000400 + BitVec.ofNat 32 (0x10 * n.val + o)) ∨
      a ∈ [0x04000500, 0x04000504, 0x04000514, 0x0400051C]) ∧
  (∀ (a : Word) (b : Byte) (i : Instr), decode (.bus8 a b) = .ok i → a ∈ [0x04000508, 0x04000509])

/-- R122, R405, R110: WR8, WR16 and WR32 perform the write of the register at that address and width; where there is none,
BadRegisterAccess is recorded and nothing else changes. -/
def Obligations.BusWritesReachTheirRegister : Prop :=
  (∀ s a v i, decode (.bus32 a v) = .ok i → ∃ t, exec (.wr32 a v) s = .next t ∧ exec i s = .next t) ∧
  (∀ s a v i, decode (.bus16 a v) = .ok i → ∃ t, exec (.wr16 a v) s = .next t ∧ exec i s = .next t) ∧
  (∀ s a v i, decode (.bus8 a v) = .ok i → ∃ t, exec (.wr8 a v) s = .next t ∧ exec i s = .next t) ∧
  (∀ s a v, s.fatal = none → (∀ i, decode (.bus32 a v) ≠ .ok i) →
    exec (.wr32 a v) s = .next { s with fatal := some (.badRegisterAccess 32 a) }) ∧
  (∀ s a v, s.fatal = none → (∀ i, decode (.bus16 a v) ≠ .ok i) →
    exec (.wr16 a v) s = .next { s with fatal := some (.badRegisterAccess 16 a) }) ∧
  (∀ s a v, s.fatal = none → (∀ i, decode (.bus8 a v) ≠ .ok i) →
    exec (.wr8 a v) s = .next { s with fatal := some (.badRegisterAccess 8 a) })

/-- A step takes the oldest thing at the ports, decodes it and performs it; what decodes to no operation raises
BadRegisterAccess (R405) or BadCommand (R406, which names unknown opcodes and tags; that operand bytes which end too soon
raise it too is the model's choice, log 4), and a stored word that selects nothing does nothing (the model's choice, log 15);
with nothing at the ports nothing changes; and every step answers a next state (the model's reading of R400, log 1). The port
list, doing nothing when it is empty, that RESET keeps it and what was emitted, and that at power-on these and memory are
empty, are the model's (log 2, log 7, log 12). -/
def Obligations.StepRunsTheDecodedOperation : Prop :=
  (∀ s item rest i, s.port = item :: rest → decode item = .ok i → step s = exec i { s with port := rest }) ∧
  (∀ s item rest opcode why, s.port = item :: rest → decode item = .error (.badCommand opcode why) → s.fatal = none →
    step s = .next { s with port := rest, fatal := some (.badCommand opcode) }) ∧
  (∀ s item rest width a, s.port = item :: rest → decode item = .error (.badRegister width a) → s.fatal = none →
    step s = .next { s with port := rest, fatal := some (.badRegisterAccess width a) }) ∧
  (∀ s item rest, s.port = item :: rest → decode item = .error .selectsNothing →
    step s = .next { s with port := rest }) ∧
  (∀ s item rest r, s.port = item :: rest → decode item = .error r → s.fatal ≠ none →
    step s = .next { s with port := rest }) ∧
  (∀ s, s.port = [] → step s = .next s) ∧
  (∀ s, ∃ t, step s = .next t) ∧
  (∀ s t, exec .reset s = .next t → t.port = s.port ∧ t.emitted = s.emitted) ∧
  (State.reset.port = [] ∧ State.reset.emitted = [] ∧ State.reset.mem = [])

/-! ### The fatal error and reset -/

/-- R401: while a fatal error is set, every operation but RESET changes nothing. -/
def Obligations.FatalIgnoresEverythingButReset : Prop :=
  ∀ i s, s.fatal ≠ none → i ≠ .reset → exec i s = .next s

/-- R430, R49: RESET puts every component to its reset value, clears the fatal error, and keeps MEM; the power-on
state is the state it leaves. -/
def Obligations.ResetEstablishesTheResetState : Prop :=
  (∀ s, ∃ t, exec .reset s = .next t ∧
    t.tick = 0 ∧ t.soundcnt = 0 ∧ t.bias = 0 ∧ t.events = [] ∧ t.fatal = none ∧ t.out = (0, 0) ∧
    (∀ n, (t.lane n).cnt = 0 ∧ (t.lane n).src = 0 ∧ (t.lane n).tmr = 0 ∧ (t.lane n).loopPos = 0 ∧
      (t.lane n).length = 0 ∧ (t.lane n).timer = 0 ∧ (t.lane n).pos = 0 ∧ (t.lane n).cur = 0 ∧
      (∀ i : Fin 32, (t.lane n).fifo[i] = 0) ∧ (t.lane n).frd = 0 ∧ (t.lane n).fwr = 0 ∧ (t.lane n).foff = 0 ∧
      (t.lane n).flevel = 0 ∧ (t.lane n).aval = 0 ∧ (t.lane n).aidx = 0 ∧ (t.lane n).avalLoop = 0 ∧
      (t.lane n).aidxLoop = 0 ∧ (t.lane n).abyte = 0 ∧ (t.lane n).noise = 0) ∧
    (∀ u, (t.cap u).cnt = 0 ∧ (t.cap u).dst = 0 ∧ (t.cap u).tmr = 0 ∧ (t.cap u).length = 4 ∧ (t.cap u).timer = 0 ∧
      (t.cap u).pos = 0 ∧ (t.cap u).woff = 0 ∧ (t.cap u).fifo = []) ∧
    (∀ n : LaneIx, t.voice n = if n = 1 ∨ n = 3 then .blocked else .opened) ∧
    t.mem = s.mem) ∧
  exec .reset State.reset = .next State.reset

/-! ### Register writes -/

/-- R151, R152, R153, R154, R120: the source address, the timer reload, the loop position and the length of a lane, the
reload of lane 1 or 3 also that of capture unit 0 or 1; nothing else changes. The second form of each is the command of
R126 at the register's address. -/
def Obligations.LaneRegisterWrites : Prop :=
  ∀ (s : State) (n : LaneIx) (w : Word) (h : Half), s.fatal = none →
    (let t := s.setLane n { s.lane n with src := w &&& 0x07FFFFFC }
     exec (.chSad n w) s = .next t ∧ exec (.wr32 (laneAddr n 0x4) w) s = .next t) ∧
    (∃ t, exec (.chTmr n h) s = .next t ∧ exec (.wr16 (laneAddr n 0x8) h) s = .next t ∧
      (∀ k, t.lane k = if k = n then { s.lane n with tmr := h } else s.lane k) ∧
      t.cap 0 = (if n = 1 then { s.cap 0 with tmr := h } else s.cap 0) ∧
      t.cap 1 = (if n = 3 then { s.cap 1 with tmr := h } else s.cap 1) ∧
      t = { s with lanes := t.lanes, caps := t.caps }) ∧
    (let t := s.setLane n { s.lane n with loopPos := 4 * h.toNat }
     exec (.chPnt n h) s = .next t ∧ exec (.wr16 (laneAddr n 0xA) h) s = .next t) ∧
    (let t := s.setLane n { s.lane n with length := 4 * (w.toNat % 2 ^ 21) }
     exec (.chLen n w) s = .next t ∧ exec (.wr32 (laneAddr n 0xC) w) s = .next t)

/-- R156, R157, R22: the two global registers, and what is decoded from SOUNDCNT; nothing else changes. -/
def Obligations.GlobalRegisterWrites : Prop :=
  ∀ (s : State) (v : Half), s.fatal = none →
    (∃ t, exec (.soundcnt v) s = .next t ∧ exec (.wr16 0x04000500 v) s = .next t ∧
      t = { s with soundcnt := v &&& 0xBF7F } ∧
      masterVol t.soundcnt = (if v.toNat % 128 = 127 then 128 else v.toNat % 128) ∧
      masterEnable t.soundcnt = v.getLsbD 15 ∧ byp1 t.soundcnt = v.getLsbD 12 ∧ byp3 t.soundcnt = v.getLsbD 13 ∧
      outSelect t.soundcnt .left = v.extractLsb' 8 2 ∧ outSelect t.soundcnt .right = v.extractLsb' 10 2) ∧
    (∃ t, exec (.soundbias v) s = .next t ∧ exec (.wr16 0x04000504 v) s = .next t ∧
      t = { s with bias := t.bias } ∧ t.bias.toNat = v.toNat % 1024)

/-- R160, R270, R161, R162: the capture control byte, with CAP_START on a rising edge of the enable; the destination; the
length, 0 words stored as 4 bytes; nothing else changes. That the offset stays where it is also when a shorter length leaves
it at or above the length, where R42 says that it is below, is the model's choice of R162's assignment (log 23). The second
form of each is the command of R126 at the register's address. -/
def Obligations.CaptureRegisterWrites : Prop :=
  ∀ (s : State) (v : Byte) (w : Word) (h : Half), s.fatal = none →
    let after := fun (c : Capture) =>
      if v.getLsbD 7 = true ∧ c.cnt.getLsbD 7 = false then
        { c with cnt := v &&& 0x8F, timer := c.tmr.toNat, pos := 0, woff := 0, fifo := [] }
      else { c with cnt := v &&& 0x8F }
    exec (.sndcap0cnt v) s = .next (s.setCap 0 (after (s.cap 0))) ∧
    exec (.wr8 0x04000508 v) s = .next (s.setCap 0 (after (s.cap 0))) ∧
    exec (.sndcap1cnt v) s = .next (s.setCap 1 (after (s.cap 1))) ∧
    exec (.wr8 0x04000509 v) s = .next (s.setCap 1 (after (s.cap 1))) ∧
    exec (.sndcap0dad w) s = .next (s.setCap 0 { s.cap 0 with dst := w &&& 0x07FFFFFC }) ∧
    exec (.wr32 0x04000510 w) s = .next (s.setCap 0 { s.cap 0 with dst := w &&& 0x07FFFFFC }) ∧
    exec (.sndcap1dad w) s = .next (s.setCap 1 { s.cap 1 with dst := w &&& 0x07FFFFFC }) ∧
    exec (.wr32 0x04000518 w) s = .next (s.setCap 1 { s.cap 1 with dst := w &&& 0x07FFFFFC }) ∧
    (let t := s.setCap 0 { s.cap 0 with length := max 4 (4 * h.toNat) }
     exec (.sndcap0len h) s = .next t ∧ exec (.wr16 0x04000514 h) s = .next t) ∧
    (let t := s.setCap 1 { s.cap 1 with length := max 4 (4 * h.toNat) }
     exec (.sndcap1len h) s = .next t ∧ exec (.wr16 0x0400051C h) s = .next t)

/-- R150, R155: a control write stores all 32 bits; only a rising edge of key-on runs START(n), which loads the timer,
the start position and the noise seed, clears the sample and the FIFO's indices, and, for a memory format, performs two
bursts (FIFO_FILL, R192) unless one of them meets an unmapped address; nothing else changes. -/
def Obligations.ControlWriteStartsOnRisingEdge : Prop :=
  ∀ (s : State) (n : LaneIx) (v : Word), s.fatal = none →
    ((v.getLsbD 31 = false ∨ (s.lane n).cnt.getLsbD 31 = true) →
      exec (.chCnt n v) s = .next (s.setLane n { s.lane n with cnt := v })) ∧
    (v.getLsbD 31 = true → (s.lane n).cnt.getLsbD 31 = false →
      let tone := v.extractLsb' 29 2 = 3
      let l := { s.lane n with
        cnt := v, timer := (s.lane n).tmr.toNat, pos := if tone then -1 else -3, noise := 0x7FFF, cur := 0,
        frd := 0, fwr := 0, foff := 0, flevel := 0 }
      let r1 := fifoFill s.mem l
      let r2 := fifoFill s.mem r1.lane
      (tone → exec (.chCnt n v) s = .next (s.setLane n l)) ∧
      (¬tone → r1.err = none → r2.err = none → exec (.chCnt n v) s = .next (s.setLane n r2.lane)) ∧
      (¬tone → ∀ a, r1.err = some a →
        exec (.chCnt n v) s = .next { s.setLane n r1.lane with fatal := some (.busError a) }) ∧
      (¬tone → r1.err = none → ∀ a, r2.err = some a →
        exec (.chCnt n v) s = .next { s.setLane n r2.lane with fatal := some (.busError a) }))

/-- R163: register packing round trips, within the 127 to 128 boundary rule, and so do the other fields. -/
def Obligations.ControlWordRoundTrip : Prop :=
  ∀ (s : State) (n : LaneIx) (k : Bool) (f : BitVec 2) (d : BitVec 3) (r : BitVec 2) (pan : Nat) (sh : BitVec 2)
    (volq : BitVec 7), s.fatal = none → pan ≤ 128 →
    ∃ t, exec (.chCnt n (packCnt k f d r pan sh volq)) s = .next t ∧
      cntVolume (t.lane n).cnt = (if volq = 127 then 128 else volq.toNat) ∧
      cntPan (t.lane n).cnt = (if 127 ≤ pan then 128 else pan) ∧
      cntVolShift (t.lane n).cnt = [4, 3, 2, 0].getD sh.toNat 0 ∧
      cntFormat (t.lane n).cnt = f ∧ cntDuty (t.lane n).cnt = d ∧ cntRepeat (t.lane n).cnt = r ∧
      keyon (t.lane n).cnt = k

/-! ### The FIFO and the generators -/

/-- R192: one burst. Where it begins and how long it is, by the repeat field; where each byte goes in the ring; what a
one-shot lane with nothing left does; and, when a word meets an unmapped address, that address, with the words before it
stored and the level not raised. -/
def Obligations.FifoFillIsOneBurst : Prop :=
  ∀ (m : List Host.Cell) (l : Lane), 4 ∣ l.loopPos → 4 ∣ l.length → 4 ∣ l.foff →
    let rep := cntRepeat l.cnt
    let total := l.loopPos + l.length
    let start := if rep ≠ 0 ∧ total ≤ l.foff ∧ rep.getLsbD 0 = true then l.loopPos else l.foff
    let burst := if rep = 0 then 16 else min 16 (total - start)
    let addr := fun j => l.src + BitVec.ofNat 32 (start + j)
    (rep = 2 → total ≤ l.foff → fifoFill m l = ⟨l, none⟩) ∧
    (¬(rep = 2 ∧ total ≤ l.foff) → (∀ j < burst, Config.mapped (addr j) = true) →
      ∃ ring fwr, fifoFill m l =
          ⟨{ l with fifo := ring, foff := start + burst, fwr := fwr, flevel := l.flevel + burst }, none⟩ ∧
        fwr.val = (l.fwr.val + burst / 4) % 8 ∧
        (∀ j (_ : j < burst), ring[(4 * l.fwr.val + j) % 32]'(Nat.mod_lt _ (by decide)) = Memory.read m (addr j).toNat) ∧
        (∀ k (h : k < 32), (∀ j < burst, (4 * l.fwr.val + j) % 32 ≠ k) → ring[k]'h = l.fifo[k]'h)) ∧
    (¬(rep = 2 ∧ total ≤ l.foff) → ∀ k < burst, Config.mapped (addr k) = false →
      (∀ j < k, Config.mapped (addr j) = true) →
      ∃ ring fwr, fifoFill m l =
          ⟨{ l with fifo := ring, foff := start + 4 * (k / 4), fwr := fwr }, some (addr k)⟩ ∧
        fwr.val = (l.fwr.val + k / 4) % 8 ∧
        (∀ j (_ : j < 4 * (k / 4)),
          ring[(4 * l.fwr.val + j) % 32]'(Nat.mod_lt _ (by decide)) = Memory.read m (addr j).toNat) ∧
        (∀ i (h : i < 32), (∀ j < 4 * (k / 4), (4 * l.fwr.val + j) % 32 ≠ i) → ring[i]'h = l.fifo[i]'h))

/-- R193: FIFO_READ takes `k` bytes little-endian at the read index, lowers the level, and refills when 16 or fewer bytes
are left, after the value is taken. -/
def Obligations.FifoReadTakesBytesThenRefills : Prop :=
  ∀ (m : List Host.Cell) (l : Lane) (k : Nat), k ∈ [1, 2, 4] →
    ringValue l k =
      ((List.range k).map fun i => (l.fifo[(l.frd.val + i) % 32]'(Nat.mod_lt _ (by decide))).toNat * 2 ^ (8 * i)).sum ∧
    ∃ frd, frd.val = (l.frd.val + k) % 32 ∧
      let l' := { l with frd := frd, flevel := l.flevel - k }
      (16 < l.flevel - k → fifoConsume m l k = ⟨l', none⟩) ∧
      (l.flevel - k ≤ 16 → fifoConsume m l k = fifoFill m l')

/-- R195: the PCM8 step. `fifoConsume` is FIFO_READ's effect on the lane (R193). Nothing but the lane changes, save the
fatal error of an abandoned refill. -/
def Obligations.Pcm8Step : Prop :=
  ∀ (s : State) (n : LaneIx), s.fatal = none →
    let l := s.lane n
    let p := l.pos + 1
    let total : Int := l.loopPos + l.length
    (p < 0 → exec (.genPcm8 n) s = .next (s.setLane n { l with pos := p })) ∧
    (0 ≤ p → total ≤ p → cntRepeat l.cnt = 2 →
      exec (.genPcm8 n) s = .next (s.setLane n { l with pos := p, cur := 0, cnt := l.cnt &&& 0x7FFFFFFF })) ∧
    (0 ≤ p → ¬(total ≤ p ∧ cntRepeat l.cnt = 2) →
      let q := if total ≤ p ∧ (cntRepeat l.cnt).getLsbD 0 = true then (l.loopPos : Int) else p
      let r := fifoConsume s.mem { l with pos := q } 1
      (r.err = none →
        exec (.genPcm8 n) s = .next (s.setLane n { r.lane with cur := l.fifo[l.frd].toInt * 256 })) ∧
      (∀ a, r.err = some a →
        exec (.genPcm8 n) s = .next { s.setLane n r.lane with fatal := some (.busError a) }))

/-- R196: the PCM16 step, the low byte of a sample first. Nothing but the lane changes, save the fatal error of an
abandoned refill. -/
def Obligations.Pcm16Step : Prop :=
  ∀ (s : State) (n : LaneIx), s.fatal = none →
    let l := s.lane n
    let p := l.pos + 1
    let total : Int := l.loopPos + l.length
    (p < 0 → exec (.genPcm16 n) s = .next (s.setLane n { l with pos := p })) ∧
    (0 ≤ p → total ≤ p * 2 → cntRepeat l.cnt = 2 →
      exec (.genPcm16 n) s = .next (s.setLane n { l with pos := p, cur := 0, cnt := l.cnt &&& 0x7FFFFFFF })) ∧
    (0 ≤ p → ¬(total ≤ p * 2 ∧ cntRepeat l.cnt = 2) →
      let q := if total ≤ p * 2 ∧ (cntRepeat l.cnt).getLsbD 0 = true then (l.loopPos : Int) / 2 else p
      let r := fifoConsume s.mem { l with pos := q } 2
      let h := l.fifo[(l.frd.val + 1) % 32]'(Nat.mod_lt _ (by decide)) ++ l.fifo[l.frd]
      (r.err = none → exec (.genPcm16 n) s = .next (s.setLane n { r.lane with cur := h.toInt })) ∧
      (∀ a, r.err = some a →
        exec (.genPcm16 n) s = .next { s.setLane n r.lane with fatal := some (.busError a) }))

/-- R197: the ADPCM step. Its branches: the start-up delay and the rest of the header, the header read, the end of a one-shot, the loop
step with its restored snapshot, and the two nibbles of a data byte; where a read is abandoned, BusError is recorded. And
the arithmetic of a nibble (`adpcmDecode`): the difference, the one-sided clamps, the step index, the loop snapshot and the
sample. -/
def Obligations.AdpcmStep : Prop :=
  (∀ (s : State) (n : LaneIx), s.fatal = none →
    let l := s.lane n
    let p := l.pos + 1
    let total : Int := l.loopPos + l.length
    let ended := total ≤ p / 2 ∧ cntRepeat l.cnt ≠ 0
    let ring := fun i : Nat => l.fifo[(l.frd.val + i) % 32]'(Nat.mod_lt _ (by decide))
    (p < 8 → p ≠ 0 → exec (.genAdpcm n) s = .next (s.setLane n { l with pos := p })) ∧
    (p = 0 →
      let r := fifoConsume s.mem { l with pos := 0 } 4
      (r.err = none → ∃ i : Fin 89, i.val = min ((ring 2).toNat % 128) 88 ∧
        exec (.genAdpcm n) s = .next (s.setLane n { r.lane with
          aval := (ring 1 ++ ring 0).toInt, aidx := i, avalLoop := (ring 1 ++ ring 0).toInt, aidxLoop := i })) ∧
      (∀ a, r.err = some a →
        exec (.genAdpcm n) s = .next { s.setLane n r.lane with fatal := some (.busError a) })) ∧
    (8 ≤ p → ended → cntRepeat l.cnt = 2 →
      exec (.genAdpcm n) s = .next (s.setLane n { l with pos := p, cur := 0, cnt := l.cnt &&& 0x7FFFFFFF })) ∧
    (8 ≤ p → ended → cntRepeat l.cnt ≠ 2 →
      let r := fifoConsume s.mem { l with pos := 2 * l.loopPos, aval := l.avalLoop, aidx := l.aidxLoop } 1
      (r.err = none →
        exec (.genAdpcm n) s = .next (s.setLane n { r.lane with abyte := ring 0, cur := l.avalLoop })) ∧
      (∀ a, r.err = some a →
        exec (.genAdpcm n) s = .next { s.setLane n r.lane with fatal := some (.busError a) })) ∧
    (8 ≤ p → ¬ended → p % 2 = 1 →
      exec (.genAdpcm n) s = .next (s.setLane n (adpcmDecode { l with pos := p, abyte := l.abyte >>> 4 }))) ∧
    (8 ≤ p → ¬ended → p % 2 = 0 →
      let r := fifoConsume s.mem { l with pos := p } 1
      (r.err = none →
        exec (.genAdpcm n) s = .next (s.setLane n (adpcmDecode { r.lane with abyte := ring 0 }))) ∧
      (∀ a, r.err = some a →
        exec (.genAdpcm n) s = .next { s.setLane n r.lane with fatal := some (.busError a) }))) ∧
  ∀ l : Lane,
    let d := l.abyte.toNat % 16
    let st := Config.adpcmStep l.aidx
    let diff : Int := (st / 8 + d % 2 * (st / 4) + d / 2 % 2 * (st / 2) + d / 4 % 2 * st : Nat)
    let a := if 8 ≤ d then max (l.aval - diff) (-0x7FFF) else min (l.aval + diff) 0x7FFF
    let delta : Int := if d % 8 < 4 then -1 else 2 * ((d % 8 : Nat) - 3 : Int)
    ∃ i : Fin 89, (i.val : Int) = max 0 (min (l.aidx.val + delta) 88) ∧
      adpcmDecode l =
        if l.pos = 2 * l.loopPos then { l with aval := a, aidx := i, avalLoop := a, aidxLoop := i, cur := a }
        else { l with aval := a, aidx := i, cur := a }

/-- R198, R199: the tone step and the noise step: the phase and the table's sample; the shift register, its mask and the
two levels. Nothing else changes. The row GEN_PSG takes the duty of its selecting word (the model's, log 5); R198 takes it
from the stored control word, as the lane's own step does (LaneTimerLoop). The tone table is the spec's from general
knowledge (log 13), and no entry of it is used here. -/
def Obligations.ToneAndNoiseSteps : Prop :=
  ∀ (s : State) (n : LaneIx) (d : BitVec 3), s.fatal = none →
    let l := s.lane n
    exec (.genPsg n d) s = .next (s.setLane n
      { l with pos := l.pos + 1, cur := Config.psgWave d ((l.pos + 1) % 8).toNat }) ∧
    (l.noise.toNat % 2 = 1 → exec (.genNoise n) s = .next (s.setLane n
      { l with noise := (l.noise >>> 1) ^^^ 0x6000, cur := -0x7FFF })) ∧
    (l.noise.toNat % 2 = 0 → exec (.genNoise n) s = .next (s.setLane n
      { l with noise := l.noise >>> 1, cur := 0x7FFF }))

/-- R191, R201: a lane that is keyed off, and a format 3 lane of 0 to 7, gives the value 0 and does not advance; so do
the rows GEN_OFF and GEN_NONE. The place of the value is the model's (log 6). -/
def Obligations.SilentLanesDoNotAdvance : Prop :=
  ∀ (s : State) (n : LaneIx), s.fatal = none →
    let t := { s with mix := { s.mix with v := s.mix.v.set n 0 } }
    exec (.genOff n) s = .next t ∧ exec (.genNone n) s = .next t ∧
    ((s.lane n).cnt.getLsbD 31 = false → s.runLane n = t) ∧
    ((s.lane n).cnt.extractLsb' 29 2 = 3 → n.val ≤ 7 → s.runLane n = t)

/-- R191: the while loop of LANE_RUN. A fuel `f` with `timer < TIMER_WRAP + f` is enough: any two such fuels give the
same, a turn leaves enough for the rest, and the lane is advanced with enough, so no turn is ever cut off (log 22). Below
the wrap the loop does nothing; else it reloads the timer, performs one generator step, and goes on unless that step
raised or cleared key-on. The generator step is that of the generator's row (Pcm8Step, Pcm16Step, AdpcmStep,
ToneAndNoiseSteps), for a tone lane the row with the duty of its stored control word (R198). And the rule's consequence: the
reload 0xFE00 gives exactly one generator step an output tick, and the timer comes back to where it was. -/
def Obligations.LaneTimerLoop : Prop :=
  (∀ (s : State) (n : LaneIx) (g : Gen), s.fatal = none → g ≠ .none →
    let row : Instr := match g with
      | .pcm8 => .genPcm8 n
      | .pcm16 => .genPcm16 n
      | .adpcm => .genAdpcm n
      | .psg => .genPsg n ((s.lane n).cnt.extractLsb' 26 3)
      | .noise => .genNoise n
      | .none => .genNone n
    let r := genStep s.mem g (s.lane n)
    (r.err = none → exec row s = .next (s.setLane n r.lane)) ∧
    (∀ a, r.err = some a → exec row s = .next { s.setLane n r.lane with fatal := some (.busError a) })) ∧
  ∀ (m : List Host.Cell) (g : Gen),
    let enough := fun (l : Lane) (f : Nat) => l.timer < Config.timerWrap + f
    (∀ l f f', enough l f → enough l f' → laneLoop m g f l = laneLoop m g f' l) ∧
    (∀ l f, l.timer < Config.timerWrap → laneLoop m g f l = ⟨l, none⟩) ∧
    (∀ l f, Config.timerWrap ≤ l.timer → enough l (f + 1) →
      let r := genStep m g { l with timer := l.tmr.toNat + (l.timer - Config.timerWrap) }
      enough r.lane f ∧
        laneLoop m g (f + 1) l = if r.err = none ∧ keyon r.lane.cnt = true then laneLoop m g f r.lane else r) ∧
    (∀ l, ∃ f, enough { l with timer := l.timer + 512 } f ∧
      laneAdvance m g l = laneLoop m g f { l with timer := l.timer + 512 }) ∧
    (∀ l : Lane, l.tmr = 0xFE00 → 0xFE00 ≤ l.timer → l.timer < 0x10000 → laneAdvance m g l = genStep m g l)

/-- R200: the adjusted sample, by the shift select and the decoded volume, and its bound. -/
def Obligations.AdjustedSample : Prop :=
  ∀ l : Lane,
    let sh : Int := if l.cnt.extractLsb' 8 2 = 0 then 16 else if l.cnt.extractLsb' 8 2 = 1 then 8
      else if l.cnt.extractLsb' 8 2 = 2 then 4 else 1
    let vol : Int := if l.cnt.toNat % 128 = 127 then 128 else (l.cnt.toNat % 128 : Nat)
    l.adjust = l.cur * sh * vol ∧
    (-0x8000 ≤ l.cur → l.cur ≤ 0x7FFF → -(2 ^ 26) ≤ l.adjust ∧ l.adjust ≤ 2 ^ 26)

/-! ### The mixer -/

/-- R243: the two accumulators are the sums of the panned lane values, each floored by itself, without the bypassed
lanes; nothing else changes. -/
def Obligations.AccumulateSumsThePannedLanes : Prop :=
  ∀ s : State,
    let skip := fun n : LaneIx =>
      (n = 1 ∧ s.soundcnt.getLsbD 12 = true) ∨ (n = 3 ∧ s.soundcnt.getLsbD 13 = true)
    s.accumulate = { s with mix := { s.mix with
      left := ∑ n : LaneIx, if skip n then 0 else s.laneValue n * (128 - (cntPan (s.lane n).cnt : Int)) / 1024
      right := ∑ n : LaneIx, if skip n then 0 else s.laneValue n * (cntPan (s.lane n).cnt : Int) / 1024 } }

/-- R244: the four output rows on both sides; and OUTPUT_SELECT performs the row that the side's select field names. The
places of the selected values are the model's (log 6). -/
def Obligations.OutputRows : Prop :=
  ∀ s : State, s.fatal = none →
    let l1 := s.laneValue 1 * (128 - (cntPan (s.lane 1).cnt : Int)) / 1024
    let r1 := s.laneValue 1 * (cntPan (s.lane 1).cnt : Int) / 1024
    let l3 := s.laneValue 3 * (128 - (cntPan (s.lane 3).cnt : Int)) / 1024
    let r3 := s.laneValue 3 * (cntPan (s.lane 3).cnt : Int) / 1024
    let setL := fun x => { s with mix := { s.mix with outl := x } }
    let setR := fun x => { s with mix := { s.mix with outr := x } }
    exec (.outMixer .left) s = .next (setL s.mix.left) ∧ exec (.outMixer .right) s = .next (setR s.mix.right) ∧
    exec (.outCh1 .left) s = .next (setL l1) ∧ exec (.outCh1 .right) s = .next (setR r1) ∧
    exec (.outCh3 .left) s = .next (setL l3) ∧ exec (.outCh3 .right) s = .next (setR r3) ∧
    exec (.outCh1Ch3 .left) s = .next (setL (l1 + l3)) ∧ exec (.outCh1Ch3 .right) s = .next (setR (r1 + r3)) ∧
    s.outputSelect .left = setL ([s.mix.left, l1, l3, l1 + l3].getD (s.soundcnt.extractLsb' 8 2).toNat 0) ∧
    s.outputSelect .right = setR ([s.mix.right, r1, r3, r1 + r3].getD (s.soundcnt.extractLsb' 10 2).toNat 0)

/-- R240, R241, R242, R245, R191: MIX. A lane that is keyed on and has a generator is advanced (LaneTimerLoop) with the
generator its control word then selects, and its value is its adjusted sample (the lanes that do not advance:
SilentLanesDoNotAdvance); the lanes run in index order. An enabled capture unit runs as the row that its control byte
selects (CaptureRun), a disabled one does nothing. With the mixer disabled only the locals are zeroed; else the lanes run,
then the sums, then capture unit 0, then unit 1, then the output selects; the first phase that raises is the last. The
latches are the model's (log 6). -/
def Obligations.MixRunsItsPhasesInOrder : Prop :=
  ∀ s : State, s.fatal = none →
    (∀ n : LaneIx, (s.lane n).cnt.getLsbD 31 = true → genOf n (s.lane n).cnt ≠ .none →
      let r := laneAdvance s.mem (genOf n (s.lane n).cnt) (s.lane n)
      (r.err = none →
        s.runLane n = { s.setLane n r.lane with mix := { s.mix with v := s.mix.v.set n r.lane.adjust } }) ∧
      (∀ a, r.err = some a → s.runLane n = { s.setLane n r.lane with fatal := some (.busError a) })) ∧
    s.runLanes [] = s ∧
    (∀ n ns, s.runLanes (n :: ns) = if (s.runLane n).fatal = none then (s.runLane n).runLanes ns else s.runLane n) ∧
    (∀ u : CapIx, (s.cap u).cnt.getLsbD 7 = true →
      exec (if (s.cap u).cnt.getLsbD 3 = true then .capPcm8 u ((s.cap u).cnt.getLsbD 2)
        else .capPcm16 u ((s.cap u).cnt.getLsbD 2)) s = .next (s.feedCap u)) ∧
    (∀ u : CapIx, (s.cap u).cnt.getLsbD 7 = false → s.feedCap u = s) ∧
    let z := { s with mix := { s.mix with left := 0, right := 0, outl := 0, outr := 0 } }
    let lanes := z.runLanes [0, 1, 2, 3, 4, 5, 6, 7, 8, 9, 10, 11, 12, 13, 14, 15]
    let c0 := lanes.accumulate.feedCap 0
    let c1 := c0.feedCap 1
    (s.soundcnt.getLsbD 15 = false → s.runMix = z) ∧
    (s.soundcnt.getLsbD 15 = true →
      (lanes.fatal ≠ none → s.runMix = lanes) ∧
      (lanes.fatal = none → c0.fatal ≠ none → s.runMix = c0) ∧
      (lanes.fatal = none → c0.fatal = none → c1.fatal ≠ none → s.runMix = c1) ∧
      (lanes.fatal = none → c0.fatal = none → c1.fatal = none →
        s.runMix = (c1.outputSelect .left).outputSelect .right))

/-- R246, R247 (d): with bias and degradation off, their defaults (log 13), the final stage is one floor shift by 15 of
the product with the master volume, clamped to 16 bits. -/
def Obligations.FinalStage : Prop :=
  ∀ (s : State) (o : Int),
    let vol : Int := if s.soundcnt.toNat % 128 = 127 then 128 else (s.soundcnt.toNat % 128 : Nat)
    s.final o = max (-0x8000) (min 0x7FFF (o * vol / 2 ^ 15)) ∧ -0x8000 ≤ s.final o ∧ s.final o ≤ 0x7FFF

/-- R380, R247 (a), R240: a STEP with no event due, no voice to evaluate, and the mixer disabled or every lane keyed off
and both capture units disabled, emits (0, 0) as sample number T and advances T; it changes nothing else but the model's
latches of the mix (log 6). That the pair is 0 rests on the bias being off (log 13). -/
def Obligations.IdleStepEmitsSilence : Prop :=
  ∀ s : State, s.fatal = none → (∀ ev rest, s.events = ev :: rest → ev.tick ≠ s.tick) →
    (∀ n, s.voice n = .opened ∨ s.voice n = .withheld ∨ s.voice n = .blocked) →
    (s.soundcnt.getLsbD 15 = false ∨
      ((∀ n, (s.lane n).cnt.getLsbD 31 = false) ∧ ∀ u, (s.cap u).cnt.getLsbD 7 = false)) →
    ∃ t, exec .step s = .next t ∧
      t = { s with
        tick := s.tick + 1, out := (0, 0), emitted := .sample s.tick 0 0 :: s.emitted, mix := t.mix }

/-- R380, R403, R21: STEP is dispatch, engine, mix, output, in this order; when a phase raises, the later ones are not
run, no sample is emitted and T stays; otherwise the pair is stored and emitted as sample number T and T advances by 1.
SOUNDCNT, SOUNDBIAS and the ports are not changed. No other operation but RESET changes T. -/
def Obligations.StepRunsItsPhasesInOrder : Prop :=
  (∀ s : State, s.fatal = none →
    let d := s.dispatch
    let e := d.engine
    let m := e.runMix
    let p := (m.final m.mix.outl, m.final m.mix.outr)
    (d.fatal ≠ none → exec .step s = .next d) ∧
    (d.fatal = none → e.fatal ≠ none → exec .step s = .next e) ∧
    (d.fatal = none → e.fatal = none → m.fatal ≠ none → exec .step s = .next m) ∧
    (d.fatal = none → e.fatal = none → m.fatal = none →
      exec .step s = .next { m with
        out := p, emitted := .sample s.tick p.1 p.2 :: m.emitted, tick := s.tick + 1 })) ∧
  (∀ i s t, exec i s = .next t →
    (i = .reset ∧ t.tick = 0) ∨ (i = .step ∧ s.fatal = none ∧ t.fatal = none ∧ t.tick = s.tick + 1) ∨
      (t.tick = s.tick ∧ (i = .step → t.fatal ≠ none ∧ t.out = s.out ∧ t.emitted = s.emitted))) ∧
  (∀ s t, exec .step s = .next t → t.soundcnt = s.soundcnt ∧ t.bias = s.bias ∧ t.port = s.port)

/-! ### Capture -/

/-- R271, R272: the two capture rows are CAP_RUN of the unit with the accumulator of its side, shifted down by 8 and clamped
(R245). Nothing but the unit and memory changes, save the fatal error of an abandoned flush. CAP_RUN raises the timer by 512
and is a while loop; a fuel `f` with `timer < TIMER_WRAP + f` is enough for it, as in LaneTimerLoop (log 22). One turn is
`capStore`: the sample's bytes, low byte first, or its high byte alone, are appended and the position advances; when four
samples wait they are flushed; at `length` the buffer ends. `capFlush` and `capEnd` are R273 and R274, stated by
CaptureFlushAndEnd. The one-shot bit is the selecting word's (the model's, log 5; in a MIX that word is the unit's own control
byte, MixRunsItsPhasesInOrder). -/
def Obligations.CaptureRun : Prop :=
  (∀ (s : State) (u : CapIx) (fmt8 oneshot : Bool), s.fatal = none →
    let row : Instr := if fmt8 then .capPcm8 u oneshot else .capPcm16 u oneshot
    let sample : Int := max (-0x8000) (min 0x7FFF ((if u = 0 then s.mix.left else s.mix.right) / 256))
    let r := capRun fmt8 oneshot sample (s.cap u) s.mem
    (r.err = none → exec row s = .next (({ s with mem := r.mem } : State).setCap u r.cap)) ∧
    (∀ a, r.err = some a →
      exec row s = .next { ({ s with mem := r.mem } : State).setCap u r.cap with fatal := some (.busError a) })) ∧
  (∀ (fmt8 oneshot : Bool) (sample : Int) (m : List Host.Cell),
    let enough := fun (c : Capture) (f : Nat) => c.timer < Config.timerWrap + f
    let loop := capLoop fmt8 oneshot sample
    (∀ c, ∃ f, enough { c with timer := c.timer + 512 } f ∧
      capRun fmt8 oneshot sample c m = loop f { c with timer := c.timer + 512 } m) ∧
    (∀ c f f', enough c f → enough c f' → loop f c m = loop f' c m) ∧
    (∀ c f, c.timer < Config.timerWrap → loop f c m = ⟨c, m, none⟩) ∧
    (∀ c f, Config.timerWrap ≤ c.timer → enough c (f + 1) →
      let r := capStore fmt8 oneshot sample { c with timer := c.tmr.toNat + (c.timer - Config.timerWrap) } m
      enough r.cap f ∧
        loop (f + 1) c m = if r.err = none ∧ capEnable r.cap.cnt = true then loop f r.cap r.mem else r)) ∧
  ∀ (fmt8 oneshot : Bool) (sample : Int) (c : Capture) (m : List Host.Cell),
    let width := if fmt8 then 1 else 2
    let low : Byte := BitVec.ofNat 8 (sample % 256).toNat
    let high : Byte := BitVec.ofNat 8 (sample / 256 % 256).toNat
    let c1 := { c with fifo := c.fifo ++ (if fmt8 then [high] else [low, high]), pos := c.pos + width }
    let f := capFlush c1 m
    let store := capStore fmt8 oneshot sample c m
    (c1.fifo.length < 4 * width → c1.pos < c1.length → store = ⟨c1, m, none⟩) ∧
    (c1.fifo.length < 4 * width → c1.length ≤ c1.pos → store = capEnd oneshot c1 m) ∧
    (4 * width ≤ c1.fifo.length → (f.err ≠ none ∨ f.cap.pos < f.cap.length) → store = f) ∧
    (4 * width ≤ c1.fifo.length → f.err = none → f.cap.length ≤ f.cap.pos → store = capEnd oneshot f.cap f.mem)

/-- R273, R274: the flush writes the waiting bytes, oldest first, at `dst + woff`, the offset wrapping at `length` (an
offset at or above `length` is used for one byte and then wraps to 0); every other byte is as before. A flush to mapped addresses empties the FIFO; else the bytes before the first unmapped one are
written. The end of the buffer flushes, zeroes the offset, and clears the enable or the position. -/
def Obligations.CaptureFlushAndEnd : Prop :=
  ∀ (c : Capture) (m : List Host.Cell), Memory.wf m → c.registersInRange →
    let off := fun i =>
      if c.woff < c.length then (c.woff + i) % c.length else if i = 0 then c.woff else (i - 1) % c.length
    let addr := fun i => c.dst + BitVec.ofNat 32 (off i)
    let wrote := fun (k : Nat) (m' : List Host.Cell) =>
      Memory.wf m' ∧
      (∀ i b, i < k → c.fifo[i]? = some b → (∀ j < k, i < j → off j ≠ off i) → Memory.read m' (addr i).toNat = b) ∧
      (∀ a, (∀ i < k, (addr i).toNat ≠ a) → Memory.read m' a = Memory.read m a)
    ((∀ i < c.fifo.length, Config.mapped (addr i) = true) →
      ∃ m', capFlush c m = ⟨{ c with fifo := [], woff := off c.fifo.length }, m', none⟩ ∧ wrote c.fifo.length m' ∧
        capEnd true c m = ⟨{ c with fifo := [], woff := 0, cnt := c.cnt &&& 0x7F }, m', none⟩ ∧
        capEnd false c m = ⟨{ c with fifo := [], woff := 0, pos := 0 }, m', none⟩) ∧
    (∀ k < c.fifo.length, Config.mapped (addr k) = false → (∀ i < k, Config.mapped (addr i) = true) →
      ∃ m', capFlush c m = ⟨{ c with woff := off k }, m', some (addr k)⟩ ∧ wrote k m' ∧
        ∀ oneshot, capEnd oneshot c m = ⟨{ c with woff := off k }, m', some (addr k)⟩)

/-- R80, R85, R273: what memory keeps. Only MEMW, STEP and the capture rows write it; STEP and the capture rows write
only at `dst + o` of an enabled or of the named unit, with `o` below its length or its present offset (the two differ after
a shorter length only, log 23). -/
def Obligations.MemoryFrame : Prop :=
  let window := fun (c : Capture) (a : Nat) =>
    ∃ o, (o < c.length ∨ o = c.woff) ∧ a = (c.dst + BitVec.ofNat 32 o).toNat
  ∀ i s t, s.registersInRange → exec i s = .next t → ∀ a,
    (match i with
      | .memw addr _ => a ≠ addr.toNat
      | .step => ∀ u, (s.cap u).cnt.getLsbD 7 = true → ¬window (s.cap u) a
      | .capPcm8 u _ | .capPcm16 u _ => ¬window (s.cap u) a
      | _ => True) →
    Memory.read t.mem a = Memory.read s.mem a

/-! ### The channel manager -/

/-- R295, R293, R292, R407: REQCH takes the first tier that some lane of the category's list satisfies, and the first
such lane of the list; that voice becomes Withheld and the index is returned; nothing else changes. When no lane of the
list satisfies any tier, NoLaneAvailable is recorded and nothing else changes. The record of what is returned is the
model's (log 7), the lists are the spec's defaults (log 13). -/
def Obligations.ReqchFindsTheFirstLane : Prop :=
  ∀ (s : State) (category : Category) (track : Nat), s.fatal = none →
    let pref : List LaneIx := match category with
      | .pcm => [0, 2, 4, 5, 6, 7]
      | .psg => [8, 9, 10, 11, 12, 13]
      | .noise => [14, 15]
    let tier := fun (t : Nat) (x : Voice) => match t, x with
      | 1, .opened => True
      | 2, .freeing f => f.cur.val ≤ 1
      | 3, .used u => category = .pcm ∧ u.track = track ∧ u.kind = .drum
      | 4, .freeing _ => True
      | 5, .used u => u.track = track
      | _, _ => False
    (∀ t ∈ [1, 2, 3, 4, 5], ∀ before n after, pref = before ++ n :: after → tier t (s.voice n) →
      (∀ t' < t, ∀ k ∈ pref, ¬tier t' (s.voice k)) → (∀ k ∈ before, ¬tier t (s.voice k)) →
      exec (.reqch category track) s =
        .next { s.setVoice n .withheld with emitted := .lane n :: s.emitted }) ∧
    ((∀ t ∈ [1, 2, 3, 4, 5], ∀ k ∈ pref, ¬tier t (s.voice k)) →
      exec (.reqch category track) s = .next { s with fatal := some (.noLaneAvailable category track) })

/-- R298: RELEASE makes every Used voice of the track Freeing, with the present volume as current and initial volume, the
tick, and the envelope's release and sustain level; nothing else changes. -/
def Obligations.ReleaseFreesTheTrack : Prop :=
  ∀ (s : State) (track tick : Nat), s.fatal = none →
    ∃ t, exec (.release track tick) s = .next t ∧ t = { s with voices := t.voices } ∧
      ∀ n, t.voice n = match s.voice n with
        | .used u =>
          if u.track = track then
            .freeing { cur := u.cur, init := u.cur, relTick := tick, release := u.env.release, sus := (shape u.env).sus }
          else s.voice n
        | x => x

/-- R290: a Withheld voice leaves that state only by POPULATE of its lane or RESET. -/
def Obligations.WithheldLeavesOnlyByPopulate : Prop :=
  ∀ i s t n, exec i s = .next t → s.voice n = .withheld →
    t.voice n = .withheld ∨ i = .reset ∨ ∃ ev rt, i = .populate (n.val : Int) ev rt

/-! ### The envelope engine -/

/-- R322, R323: POPULATE of a Withheld lane with a complete timbre fills the voice, writes the lane's registers and runs
the start sequence on them (`laneStart`, stated by ControlWriteStartsOnRisingEdge); nothing else changes. -/
def Obligations.PopulateFillsTheVoice : Prop :=
  ∀ (s : State) (k : LaneIx) (ev : Event) (rt : ResolvedTimbre), s.fatal = none → s.blockedExactly →
    s.voice k = .withheld → envDefect rt.env = none → (∀ p ∈ rt.queue, envDefect p.2 = none) →
    let pan := (max 0 (min 128 (64 + ev.panOffset))).toNat
    let u : UsedVoice :=
      { track := ev.track, kind := ev.kind, category := rt.category, rt := rt, pan := pan, env := rt.env,
        pitchAdj := rt.pitchAdj.map fun p => (p.1, pitchReload p.2), samples := rt.samples, queue := rt.queue,
        start := s.tick, segStart := 0, cur := .rat 0, completed := false }
    let l := { s.lane k with
      cnt := packCnt true rt.format rt.duty (if rt.repeating then 1 else 2) pan rt.shiftSel 0
      tmr := pitchReload rt.pitch, src := rt.src &&& 0x07FFFFFC, loopPos := 4 * rt.loopWords.toNat,
      length := 4 * rt.lenWords.toNat }
    let r := laneStart s.mem l
    (r.err = none → exec (.populate (k.val : Int) ev rt) s = .next ((s.setVoice k (.used u)).setLane k r.lane)) ∧
    (∀ a, r.err = some a → exec (.populate (k.val : Int) ev rt) s =
      .next { (s.setVoice k (.used u)).setLane k r.lane with fatal := some (.busError a) })

/-- R408, R409, R412: POPULATE of an index outside 0..15, or of a voice that is not Withheld, records LaneIndex; of a
Withheld lane with an incomplete envelope, first or queued, EnvelopeIncomplete; either before any other change. Which
reason is recorded when several hold is the model's (log 18). -/
def Obligations.PopulateFaultsBeforeAnyChange : Prop :=
  ∀ (s : State) (n : Int) (ev : Event) (rt : ResolvedTimbre), s.fatal = none →
    ((¬∃ k : LaneIx, n = (k.val : Int) ∧ s.voice k = .withheld) →
      exec (.populate n ev rt) s = .next { s with fatal := some (.laneIndex n) }) ∧
    (∀ k : LaneIx, n = (k.val : Int) → s.voice k = .withheld →
      (∃ e ∈ rt.env :: rt.queue.map (·.2), envDefect e ≠ none) →
      ∃ reason, exec (.populate n ev rt) s = .next { s with fatal := some (.envelopeIncomplete reason) })

/-- R331: the envelopes that are refused, and no others. -/
def Obligations.EnvelopeDefects : Prop :=
  ∀ e : Envelope,
    envDefect e ≠ none ↔
      e.attack = some (.exactPoints []) ∨
      ((∃ d, e.decay = some (.linear d)) ∧ e.sustain = none) ∨
      (∃ duration floor,
        (e.release = some (.exponential duration floor) ∨ e.release = some (.exponentialUntil duration floor)) ∧
        ((∀ sus, e.sustain = some sus → sus.volume.val ≤ 0) ∨ floor.val ≤ 0 ∨ duration = 0))

/-- R320, R412: TRIGGER is RESOLVE, REQCH and POPULATE of the lane found: with no lane, NoLaneAvailable; else POPULATE's
outcome on the state in which that voice is Withheld, the index returned unless it raised. What RESOLVE gives is free
(log 11); the record of what is returned is the model's (log 7). -/
def Obligations.TriggerAllocatesThenPopulates : Prop :=
  ∀ (s : State) (ev : Event), s.fatal = none →
    let rt := Config.resolve ev
    (s.findLane rt.category ev.track = none →
      exec (.trigger ev) s = .next { s with fatal := some (.noLaneAvailable rt.category ev.track) }) ∧
    (∀ n, s.findLane rt.category ev.track = some n →
      ∃ t, exec (.populate (n.val : Int) ev rt) (s.setVoice n .withheld) = .next t ∧
        exec (.trigger ev) s = .next (if t.fatal = none then { t with emitted := .lane n :: t.emitted } else t))

/-- R339: SET_VOLUME replaces bits 6:0 of the control word and nothing else; in particular it never starts a lane. -/
def Obligations.SetVolumeNeverStartsALane : Prop :=
  ∀ (s : State) (n : LaneIx) (q : BitVec 7),
    ∃ w : Word, s.setVolume n q = s.setLane n { s.lane n with cnt := w } ∧
      w.toNat = (s.lane n).cnt.toNat / 128 * 128 + q.toNat

/-- R337, R335: the phases of an envelope (its values in them: EnvelopeCurves). Completion can come in the release phase only,
by the threshold 1.5 or by a forced release; an infinite sustain never ends. And R337's example: no attack, a decay with the
constant LN(0.5)/192 over 192, a sustain of 63.5 without end: full level at 0, 63.5 from 192 on, and the decay itself comes
to 63.5 at 192 (EXP(LN(x)) = x, R12). EXP and LN are any functions with R12's properties (log 9). -/
def Obligations.EnvelopePhases : Prop :=
  ∀ (e : Envelope) (tau : Nat),
    let sh := shape e
    (tau < sh.ta → envEval e tau = ⟨attackValue e.attack tau, .attack, false⟩) ∧
    (sh.ta ≤ tau → tau < sh.ta + sh.td →
      envEval e tau = ⟨decayValue e.decay sh.peak sh.sus (tau - sh.ta), .decay, false⟩) ∧
    (sh.ta + sh.td ≤ tau → (sh.ts = .inf ∨ ∃ ts, sh.ts = .ticks ts ∧ tau < sh.ta + sh.td + ts) →
      envEval e tau = ⟨sh.sus, .sustain, false⟩) ∧
    (∀ ts, sh.ts = .ticks ts → sh.ta + sh.td + ts ≤ tau →
      let r := releaseCurve e.release sh.sus sh.sus (tau - (sh.ta + sh.td + ts))
      (envEval e tau).v = r.1 ∧ (envEval e tau).phase = .release ∧
        ((envEval e tau).done = true ↔ r.2 = true ∨ r.1.val ≤ 3 / 2)) ∧
    (e.attack = none → e.decay = some (.exponential (.div (.ln (.rat (1 / 2))) (.rat 192)) 192) →
      e.sustain = some ⟨.rat (127 / 2), .inf⟩ →
      (envEval e 0).v.val = 127 ∧ (envEval e 0).phase = .decay ∧
        (192 ≤ tau → envEval e tau = ⟨.rat (127 / 2), .sustain, false⟩) ∧
        (decayValue e.decay sh.peak sh.sus 192).val = 127 / 2)

/-- R332, R333, R334, R336: the breakpoints of an envelope, and the values of its phases, variant by variant, as real
numbers; an exponential release that starts at the sustain level comes to its floor after its duration (EXP(LN(x)) = x, R12).
A linear phase of duration 0 is skipped (R337), and R331 keeps a duration of 0 and a sustain level of 0 from an exponential
release. EXP, LN and the ratios are any with the properties R12 and R8 give them (log 9, log 10). -/
def Obligations.EnvelopeCurves : Prop :=
  let F := Config.realInterp
  (∀ e : Envelope,
    let sh := shape e
    (e.attack = none → sh.ta = 0 ∧ sh.peak.val = 127) ∧
    (∀ v d, e.attack = some (.linear v d) →
      sh.ta = d ∧ sh.peak = v ∧ (0 < d → ∀ t : Nat, (attackValue e.attack t).val = v.val * t / d)) ∧
    (∀ before p, e.attack = some (.exactPoints (before ++ [p])) → sh.ta = p.1 ∧ sh.peak = p.2) ∧
    (∀ points t, e.attack = some (.exactPoints points) →
      ((∀ q ∈ points, t < q.1) → (attackValue e.attack t).val = 0) ∧
      (∀ before p after, points = before ++ p :: after → p.1 ≤ t → (∀ q ∈ after, t < q.1) →
        attackValue e.attack t = p.2)) ∧
    (e.decay = none → sh.td = 0) ∧
    (∀ d, e.decay = some (.linear d) → sh.td = d ∧ (0 < d → ∀ u : Nat,
      (decayValue e.decay sh.peak sh.sus u).val = sh.peak.val + (sh.sus.val - sh.peak.val) * u / d)) ∧
    (∀ c d, e.decay = some (.exponential c d) → sh.td = d ∧
      ∀ u : Nat, (decayValue e.decay sh.peak sh.sus u).val = sh.peak.val * F.exp (c.val * u)) ∧
    (∀ x, e.sustain = some x → sh.sus = x.volume ∧ sh.ts = x.duration) ∧
    (e.sustain = none → sh.ts = .ticks 0 ∧
      sh.sus.val = match e.decay with
        | some (.exponential c d) => sh.peak.val * F.exp (c.val * d)
        | _ => sh.peak.val)) ∧
  (0 < F.geomRatio ∧ F.geomRatio < 1 ∧ 0 < F.geomSbRatio ∧ F.geomSbRatio < 1) ∧
  ∀ (v0 sus : RealNum) (t : Nat),
    let curve := fun rel : Option Release => ((releaseCurve rel v0 sus t).1.val, (releaseCurve rel v0 sus t).2)
    curve (some .basic) = (v0.val * F.exp (-17 / 100 * t), false) ∧
    curve (some .keepBlowing) = (v0.val * F.exp (-1 / 100 * t), false) ∧
    curve (some .geometric) = (v0.val * F.geomRatio ^ t, false) ∧
    curve (some .geometricStopBlowing) = (v0.val * F.geomSbRatio ^ t, false) ∧
    (∀ v : RealNum, curve (some (.staticValue v)) = (v.val, true)) ∧
    curve none = (1, false) ∧
    (∀ (d : Nat) (f : RealNum), 0 < d → 0 < f.val → 0 < sus.val →
      let v := v0.val * F.exp (F.ln (f.val / sus.val) / d * t)
      curve (some (.exponential d f)) = (v, false) ∧
      (curve (some (.exponentialUntil d f))).1 = v ∧
      ((curve (some (.exponentialUntil d f))).2 = true ↔ v ≤ f.val) ∧
      (releaseCurve (some (.exponential d f)) sus sus d).1.val = f.val)

/-- R12, R8, D21: real arithmetic. The two questions a rule asks of a real number, and PITCH_ROUND, are answered for the real
numbers that the expressions of the state denote; EXP, LN and POW2 have the properties R12 names, and the OPEN reals are in
their ranges; and any such functions and reals may be the machine's, e^x, the natural logarithm and 2^x with any such reals
among them (log 8, log 9, log 10). -/
def Obligations.RealFunctionProperties : Prop :=
  let F := Config.realInterp
  (∀ x y : RealNum, Config.realLe x y = true ↔ x.val ≤ y.val) ∧
  (∀ x : RealNum, Config.realFloor x = ⌊x.val⌋) ∧
  (∀ x : RealNum, Config.pitchRound x = if 0 ≤ x.val then ⌊x.val⌋ else ⌈x.val⌉) ∧
  (F.exp 0 = 1 ∧ (∀ x y, x < y → F.exp x < F.exp y) ∧ (∀ y, 0 < y → F.exp (F.ln y) = y) ∧ F.pow2 0 = 1) ∧
  (0 < F.geomRatio ∧ F.geomRatio < 1 ∧ 0 < F.geomSbRatio ∧ F.geomSbRatio < 1 ∧ 0 < F.pitchTimer) ∧
  (∀ I : RealInterp, ∃ o : RealOracle, (∀ x y, o.le x y = true ↔ I.val x ≤ I.val y) ∧ ∀ x, o.floor x = ⌊I.val x⌋) ∧
  (∀ (named : Nat → ℝ) (g g' p : ℝ), 0 < g → g < 1 → 0 < g' → g' < 1 → 0 < p →
    ∃ I : RealInterp, I.exp = Real.exp ∧ I.ln = Real.log ∧ (∀ x, I.pow2 x = (2 : ℝ) ^ x) ∧
      I.named = named ∧ I.geomRatio = g ∧ I.geomSbRatio = g' ∧ I.pitchTimer = p)

/-- R338: VOLQ of a real volume is its floor below 128, 0 for non-positive volumes, and halves what is larger until it fits;
its result is never above 127. -/
def Obligations.VolumeQuantisation : Prop :=
  (∀ v : RealNum, v.val ≤ 0 → volq v = 0) ∧
  (∀ v : RealNum, 0 < v.val → v.val < 128 → ((volq v).toNat : Int) = ⌊v.val⌋) ∧
  (∀ v w : RealNum, 128 ≤ v.val → w.val = v.val / 2 → volq v = volq w) ∧
  (∀ v : RealNum, (volq v).toNat ≤ 127)

/-- R340: the formula path in exact arithmetic: the reload is the value truncated toward zero and held in 0..0xFFFF, and in
that value PITCH_TIMER cancels, where POW2 is not 0; offset 0 gives the base reload; offset 12 halves the distance to
MAX_RELOAD for every POW2 with POW2(1) = 2, whatever else it is; the table path gives its reload. POW2 and PITCH_TIMER are
any with the properties R12 and R8 give them (log 9, log 10). -/
def Obligations.PitchFormula : Prop :=
  (∀ (b : Half) (o : RealNum),
    let r := (pitchReal b o).val
    let p := Config.realInterp.pow2 (o.val / 12)
    ((pitchReload (.formula b o)).toNat : Int) = max 0 (min 0xFFFF (if 0 ≤ r then ⌊r⌋ else ⌈r⌉)) ∧
    (p ≠ 0 → r = 0x10000 - (0x10000 - (b.toNat : ℝ)) / p)) ∧
  (∀ (b : Half) (o : RealNum), o.val = 0 → pitchReload (.formula b o) = b) ∧
  (∀ (I : RealInterp) (b : Half), I.pow2 1 = 2 → I.val (pitchReal b (.rat 12)) = (0x10000 + (b.toNat : ℝ)) / 2) ∧
  (∀ r : Half, pitchReload (.table r) = r)

/-- R349: a linear attack toward a non-negative volume does not fall, and a multiplying release from a non-negative
volume does not rise, for the exponential variants with a positive floor not above the sustain level. EXP, LN and the ratios
are any with the properties R12 and R8 give them (log 9, log 10). -/
def Obligations.EnvelopeMonotone : Prop :=
  (∀ (v : RealNum) (d t t' : Nat), 0 ≤ v.val → 0 < d → t ≤ t' →
    (attackValue (some (.linear v d)) t).val ≤ (attackValue (some (.linear v d)) t').val) ∧
  (∀ (rel : Release) (v0 sus : RealNum) (t t' : Nat), 0 ≤ v0.val → t ≤ t' →
    (match rel with
      | .basic | .geometric | .geometricStopBlowing | .keepBlowing => True
      | .exponential d f | .exponentialUntil d f => 0 < d ∧ 0 < f.val ∧ f.val ≤ sus.val
      | .staticValue _ => False) →
    (releaseCurve (some rel) v0 sus t').1.val ≤ (releaseCurve (some rel) v0 sus t).1.val)

/-- R347, R348: a Freeing voice is evaluated at the ticks after `rel_tick` that are whole intervals from it, and then
decays by its own curve from its snapshot; the evaluation that gives 1 or less, or a forced release, zeroes the volume
field and opens the voice; at other ticks nothing happens. EVENT_TIMING and ENV_TIME_SCALE are free and equal (log 10). -/
def Obligations.FreeingVoiceDecaysThenOpens : Prop :=
  ∀ (s : State) (n : LaneIx) (f : FreeingVoice), s.voice n = .freeing f →
    let due := f.relTick < s.tick ∧ (s.tick - f.relTick) % Config.eventTiming = 0
    let r := releaseCurve f.release f.init f.sus ((s.tick - f.relTick) / Config.eventTiming * Config.envTimeScale)
    let vol := fun q : BitVec 7 => { s.lane n with cnt := ((s.lane n).cnt &&& 0xFFFFFF80) ||| q.setWidth 32 }
    (¬due → s.evalVoice n = s) ∧
    (due → (r.2 = true ∨ r.1.val ≤ 1) → s.evalVoice n = (s.setLane n (vol 0)).setVoice n .opened) ∧
    (due → r.2 = false → 1 < r.1.val →
      s.evalVoice n = (s.setLane n (vol (volq r.1))).setVoice n (.freeing { f with cur := r.1 }))

/-- R342, R343, R344, R348: a Used voice is evaluated at the ticks that are whole intervals from its start, in four parts
(the last is stated by CompletedVoiceRearmsHoldsOrOpens), abandoned at a fatal error of the second. The pitch adjustment with
the greatest due time, among equals the last, is written to the timer reload, and every due one is dropped; each sample
segment of this time, in list order, and none other, re-programs the lane (`laneStart`, stated by
ControlWriteStartsOnRisingEdge), until one raises; and a voice that is not completed takes the envelope's value.
EVENT_TIMING is free (log 10). -/
def Obligations.UsedVoiceIsEvaluatedOnSchedule : Prop :=
  ∀ (s : State) (n : LaneIx) (u : UsedVoice), s.fatal = none → s.voice n = .used u →
    ((s.tick - u.start) % Config.eventTiming ≠ 0 → s.evalVoice n = s) ∧
    ((s.tick - u.start) % Config.eventTiming = 0 →
      let vt := (s.tick - u.start) / Config.eventTiming
      let t := (s.evalPitch n vt).evalSamples n vt
      (t.fatal = none → s.evalVoice n = (t.evalVolume n vt).evalCompletion n vt) ∧
      (t.fatal ≠ none → s.evalVoice n = t)) ∧
    ∀ vt : Nat,
      ((∀ a ∈ u.pitchAdj, vt < a.1) → s.evalPitch n vt = s) ∧
      (∀ before a after, u.pitchAdj = before ++ a :: after → a.1 ≤ vt →
        (∀ b ∈ before, b.1 ≤ vt → b.1 ≤ a.1) → (∀ b ∈ after, b.1 ≤ vt → b.1 < a.1) →
        ∃ t, exec (.chTmr n a.2) s = .next t ∧
          s.evalPitch n vt = t.setVoice n (.used { u with pitchAdj := u.pitchAdj.filter fun b => vt < b.1 })) ∧
      (let later := { u with samples := u.samples.filter fun x => vt < x.1 }
       let programmed := s.retrigger n u.rt u.pan (u.samples.filter fun x => x.1 = vt)
       s.evalSamples n vt =
         if programmed.fatal = none then programmed.setVoice n (.used later) else programmed) ∧
      s.retrigger n u.rt u.pan [] = s ∧
      (∀ t seg rest,
        let l := { s.lane n with
          cnt := packCnt true u.rt.format u.rt.duty (if u.rt.repeating then 1 else 2) u.pan u.rt.shiftSel (volq seg.volume)
          src := seg.src &&& 0x07FFFFFC, loopPos := 4 * seg.loopWords.toNat, length := 4 * seg.lenWords.toNat }
        let r := laneStart s.mem l
        (r.err = none → s.retrigger n u.rt u.pan ((t, seg) :: rest) = (s.setLane n r.lane).retrigger n u.rt u.pan rest) ∧
        (∀ a, r.err = some a → s.retrigger n u.rt u.pan ((t, seg) :: rest) =
          { s.setLane n r.lane with fatal := some (.busError a) })) ∧
      (u.completed = true → s.evalVolume n vt = s) ∧
      (u.completed = false →
        let x := envEval u.env ((vt - u.segStart) * Config.envTimeScale)
        s.evalVolume n vt = (s.setLane n { s.lane n with
          cnt := ((s.lane n).cnt &&& 0xFFFFFF80) ||| (volq x.v).setWidth 32 }).setVoice n
            (.used { u with cur := x.v, completed := x.done }))

/-- R348: the engine evaluates the sixteen voices in index order and stops at the first fatal error; an Open, Withheld or
Blocked voice is left alone; and the evaluation of one voice changes nothing but that voice, its lane, the fatal error and,
for lanes 1 and 3, which share their reload, a capture unit. The voices that are evaluated are stated by
UsedVoiceIsEvaluatedOnSchedule and FreeingVoiceDecaysThenOpens. -/
def Obligations.EngineEvaluatesVoicesInOrder : Prop :=
  ∀ s : State,
    s.engine = s.evalVoices [0, 1, 2, 3, 4, 5, 6, 7, 8, 9, 10, 11, 12, 13, 14, 15] ∧
    s.evalVoices [] = s ∧
    ∀ (n : LaneIx) (ns : List LaneIx),
      let t := s.evalVoice n
      s.evalVoices (n :: ns) = (if t.fatal = none then t.evalVoices ns else t) ∧
      ((s.voice n = .opened ∨ s.voice n = .withheld ∨ s.voice n = .blocked) → t = s) ∧
      (∀ k, k ≠ n → t.voice k = s.voice k ∧ t.lane k = s.lane k) ∧
      (n ≠ 1 → n ≠ 3 → t.caps = s.caps) ∧
      t = { s with voices := t.voices, lanes := t.lanes, caps := t.caps, fatal := t.fatal }

/-- R345, R346: a completed Used voice: re-armed with the next queued segment once its trigger is reached, held silent
before that, opened with volume 0 when the queue is empty; and a voice that is not completed is left alone. Nothing but
the voice and the volume field of its lane changes. -/
def Obligations.CompletedVoiceRearmsHoldsOrOpens : Prop :=
  ∀ (s : State) (n : LaneIx) (vt : Nat) (u : UsedVoice), s.voice n = .used u →
    let vol := fun q : BitVec 7 => { s.lane n with cnt := ((s.lane n).cnt &&& 0xFFFFFF80) ||| q.setWidth 32 }
    (u.completed = false → s.evalCompletion n vt = s) ∧
    (u.completed = true → u.queue = [] → s.evalCompletion n vt = (s.setLane n (vol 0)).setVoice n .opened) ∧
    (∀ trig e rest, u.completed = true → u.queue = (trig, e) :: rest → vt < trig →
      s.evalCompletion n vt = (s.setLane n (vol 0)).setVoice n (.used { u with cur := .rat 0 })) ∧
    (∀ trig e rest, u.completed = true → u.queue = (trig, e) :: rest → trig ≤ vt →
      let x := envEval e 0
      s.evalCompletion n vt = (s.setLane n (vol (volq x.v))).setVoice n
        (.used { u with queue := rest, env := e, segStart := vt, cur := x.v, completed := x.done }))

/-! ### The event list and host writes -/

/-- R381, R410, R382: LOAD_EVENTS takes a list in non-decreasing order that begins no earlier than T; of any other it
records EventOrder with the first offending tick and keeps the old list; nothing else changes. DISPATCH does nothing when the
first event is not due; else it removes that event, triggers it (TriggerAllocatesThenPopulates), and goes on with the rest
unless it raised, so that a DISPATCH that is not abandoned removes exactly the leading events of tick T. No lane index is
returned to the host from there (log 7). -/
def Obligations.EventListIsKeptInOrder : Prop :=
  (∀ (s : State) (events : List Event), s.fatal = none →
    (events.Pairwise (fun a b => a.tick ≤ b.tick) → (∀ ev ∈ events, s.tick ≤ ev.tick) →
      exec (.loadEvents events) s = .next { s with events := events }) ∧
    (∀ before ev after, events = before ++ ev :: after → before.Pairwise (fun a b => a.tick ≤ b.tick) →
      (∀ b ∈ before, s.tick ≤ b.tick) → (ev.tick < s.tick ∨ ∃ b ∈ before, ev.tick < b.tick) →
      exec (.loadEvents events) s = .next { s with fatal := some (.eventOrder ev.tick) })) ∧
  (∀ s : State, (∀ ev rest, s.events = ev :: rest → ev.tick ≠ s.tick) → s.dispatch = s) ∧
  (∀ (s : State) (ev : Event) (rest : List Event), s.fatal = none → s.events = ev :: rest → ev.tick = s.tick →
    ∃ t, exec (.trigger ev) { s with events := rest } = .next t ∧
      let u : State := { t with emitted := s.emitted }
      s.dispatch = if u.fatal = none then u.dispatch else u) ∧
  (∀ s : State, s.fatal = none → s.dispatch.fatal = none →
    s.dispatch.events = s.events.dropWhile fun ev => decide (ev.tick = s.tick))

/-- R385: MEMW writes one byte of sample memory and nothing else, or records BusError for an unmapped address and writes
nothing. -/
def Obligations.MemwWritesOneByte : Prop :=
  ∀ (s : State) (a : Word) (b : Byte), s.fatal = none → Memory.wf s.mem →
    (Config.mapped a = true → ∃ t, exec (.memw a b) s = .next t ∧ t = { s with mem := t.mem } ∧ Memory.wf t.mem ∧
      ∀ k, Memory.read t.mem k = if k = a.toNat then b else Memory.read s.mem k) ∧
    (Config.mapped a = false → exec (.memw a b) s = .next { s with fatal := some (.busError a) })

/-- R83, R84: an access of 1, 2 or 4 bytes: the bytes least significant first, at addresses that wrap at 2^32; a read gives
back what a write of the same width stored; and an unmapped byte address, the first one, stops either before anything is
written. -/
def Obligations.MemoryAccessIsLittleEndian : Prop :=
  ∀ (m : List Host.Cell) (a : Word) (n v : Nat), n ∈ [1, 2, 4] → Memory.wf m →
    ((∀ i < n, Config.mapped (a + BitVec.ofNat 32 i) = true) →
      memRead m a n = .ok ((List.range n).map fun i =>
        (Memory.read m (a + BitVec.ofNat 32 i).toNat).toNat * 2 ^ (8 * i)).sum ∧
      ∃ m', memWrite m a n v = .ok m' ∧ Memory.wf m' ∧ memRead m' a n = .ok (v % 2 ^ (8 * n)) ∧
        (∀ i < n, (Memory.read m' (a + BitVec.ofNat 32 i).toNat).toNat = v / 2 ^ (8 * i) % 256) ∧
        (∀ k, (∀ i < n, (a + BitVec.ofNat 32 i).toNat ≠ k) → Memory.read m' k = Memory.read m k)) ∧
    (∀ i < n, Config.mapped (a + BitVec.ofNat 32 i) = false →
      (∀ j < i, Config.mapped (a + BitVec.ofNat 32 j) = true) →
      memRead m a n = .error (a + BitVec.ofNat 32 i) ∧ memWrite m a n v = .error (a + BitVec.ofNat 32 i))

/-! ### Invariants that every step keeps -/

/-- R22, R30 to R33, R40 to R42: every register stays in the range its rule gives. A capture unit's offset that is below
its length stays so by every operation, save a length write at or below the offset: R162 assigns the length alone, and that
R42's bound gives way there is the model's choice (log 23). -/
def Obligations.RegistersStayInRange : Prop :=
  (∀ s t : State, s.registersInRange → step s = .next t → t.registersInRange) ∧
  ∀ (i : Instr) (s t : State) (u : CapIx), s.registersInRange → (s.cap u).offsetBelowLength → exec i s = .next t →
    (∀ h : Half, (if u = 0 then i = .sndcap0len h ∨ i = .wr16 0x04000514 h
        else i = .sndcap1len h ∨ i = .wr16 0x0400051C h) → (s.cap u).woff < max 4 (4 * h.toNat)) →
    (t.cap u).offsetBelowLength

/-- R36, R38, R85, R86, R192, R199, R25: the run state of every lane and the output pair stay in range. -/
def Obligations.RunStateStaysInRange : Prop :=
  ∀ s t : State, s.runStateInRange → step s = .next t → t.runStateInRange

/-- R34, R191, R42: between operations the timer of a lane that plays, and of a unit that captures, is below the wrap. -/
def Obligations.TimersStayBelowTheWrap : Prop :=
  ∀ s t : State, s.timersInRange → step s = .next t → t.timersInRange

/-- R43, R290, R299 (d): voices 1 and 3, and no others, are Blocked, at all times. -/
def Obligations.BlockedLanesStayBlocked : Prop :=
  ∀ s t : State, s.blockedExactly → step s = .next t → t.blockedExactly

/-- R24, R381, R382: the pending events stay in order and none of them is ever in the past, so none is dispatched late;
and no voice starts in the future. -/
def Obligations.EventsStayInOrder : Prop :=
  ∀ s t : State, s.eventsInOrder → s.startsInPast → step s = .next t → t.eventsInOrder ∧ t.startsInPast

/-- R48, R82, R84: memory stays in its canonical form and lists mapped addresses only. The form is the model's (log 12). -/
def Obligations.MemoryStaysInForm : Prop :=
  ∀ s t : State, s.memoryInForm → step s = .next t → t.memoryInForm

/-- R430: the reset state meets every invariant. -/
def Obligations.ResetMeetsTheInvariants : Prop :=
  State.reset.registersInRange ∧ State.reset.runStateInRange ∧ State.reset.timersInRange ∧
    State.reset.blockedExactly ∧ State.reset.eventsInOrder ∧ State.reset.startsInPast ∧ State.reset.memoryInForm ∧
    ∀ u, (State.reset.cap u).offsetBelowLength
end

