-- ==== Sys2Proof/Laws/State.lean ====
section
/-!
SUPPORT. The small lemmas of the state: what each accessor reads after each update, one lemma per field per update.
-/

namespace Sys2Proof.Machine

@[simp] theorem State.setLane_tick (s : State) (n : LaneIx) (l : Lane) : (s.setLane n l).tick = s.tick := rfl
@[simp] theorem State.setLane_soundcnt (s : State) (n : LaneIx) (l : Lane) : (s.setLane n l).soundcnt = s.soundcnt := rfl
@[simp] theorem State.setLane_bias (s : State) (n : LaneIx) (l : Lane) : (s.setLane n l).bias = s.bias := rfl
@[simp] theorem State.setLane_events (s : State) (n : LaneIx) (l : Lane) : (s.setLane n l).events = s.events := rfl
@[simp] theorem State.setLane_fatal (s : State) (n : LaneIx) (l : Lane) : (s.setLane n l).fatal = s.fatal := rfl
@[simp] theorem State.setLane_out (s : State) (n : LaneIx) (l : Lane) : (s.setLane n l).out = s.out := rfl
@[simp] theorem State.setLane_caps (s : State) (n : LaneIx) (l : Lane) : (s.setLane n l).caps = s.caps := rfl
@[simp] theorem State.setLane_voices (s : State) (n : LaneIx) (l : Lane) : (s.setLane n l).voices = s.voices := rfl
@[simp] theorem State.setLane_mem (s : State) (n : LaneIx) (l : Lane) : (s.setLane n l).mem = s.mem := rfl
@[simp] theorem State.setLane_mix (s : State) (n : LaneIx) (l : Lane) : (s.setLane n l).mix = s.mix := rfl
@[simp] theorem State.setLane_port (s : State) (n : LaneIx) (l : Lane) : (s.setLane n l).port = s.port := rfl
@[simp] theorem State.setLane_emitted (s : State) (n : LaneIx) (l : Lane) : (s.setLane n l).emitted = s.emitted := rfl

@[simp] theorem State.setCap_tick (s : State) (u : CapIx) (c : Capture) : (s.setCap u c).tick = s.tick := rfl
@[simp] theorem State.setCap_soundcnt (s : State) (u : CapIx) (c : Capture) : (s.setCap u c).soundcnt = s.soundcnt := rfl
@[simp] theorem State.setCap_bias (s : State) (u : CapIx) (c : Capture) : (s.setCap u c).bias = s.bias := rfl
@[simp] theorem State.setCap_events (s : State) (u : CapIx) (c : Capture) : (s.setCap u c).events = s.events := rfl
@[simp] theorem State.setCap_fatal (s : State) (u : CapIx) (c : Capture) : (s.setCap u c).fatal = s.fatal := rfl
@[simp] theorem State.setCap_out (s : State) (u : CapIx) (c : Capture) : (s.setCap u c).out = s.out := rfl
@[simp] theorem State.setCap_lanes (s : State) (u : CapIx) (c : Capture) : (s.setCap u c).lanes = s.lanes := rfl
@[simp] theorem State.setCap_voices (s : State) (u : CapIx) (c : Capture) : (s.setCap u c).voices = s.voices := rfl
@[simp] theorem State.setCap_mem (s : State) (u : CapIx) (c : Capture) : (s.setCap u c).mem = s.mem := rfl
@[simp] theorem State.setCap_mix (s : State) (u : CapIx) (c : Capture) : (s.setCap u c).mix = s.mix := rfl
@[simp] theorem State.setCap_port (s : State) (u : CapIx) (c : Capture) : (s.setCap u c).port = s.port := rfl
@[simp] theorem State.setCap_emitted (s : State) (u : CapIx) (c : Capture) : (s.setCap u c).emitted = s.emitted := rfl

@[simp] theorem State.setVoice_tick (s : State) (n : LaneIx) (x : Voice) : (s.setVoice n x).tick = s.tick := rfl
@[simp] theorem State.setVoice_soundcnt (s : State) (n : LaneIx) (x : Voice) : (s.setVoice n x).soundcnt = s.soundcnt := rfl
@[simp] theorem State.setVoice_bias (s : State) (n : LaneIx) (x : Voice) : (s.setVoice n x).bias = s.bias := rfl
@[simp] theorem State.setVoice_events (s : State) (n : LaneIx) (x : Voice) : (s.setVoice n x).events = s.events := rfl
@[simp] theorem State.setVoice_fatal (s : State) (n : LaneIx) (x : Voice) : (s.setVoice n x).fatal = s.fatal := rfl
@[simp] theorem State.setVoice_out (s : State) (n : LaneIx) (x : Voice) : (s.setVoice n x).out = s.out := rfl
@[simp] theorem State.setVoice_lanes (s : State) (n : LaneIx) (x : Voice) : (s.setVoice n x).lanes = s.lanes := rfl
@[simp] theorem State.setVoice_caps (s : State) (n : LaneIx) (x : Voice) : (s.setVoice n x).caps = s.caps := rfl
@[simp] theorem State.setVoice_mem (s : State) (n : LaneIx) (x : Voice) : (s.setVoice n x).mem = s.mem := rfl
@[simp] theorem State.setVoice_mix (s : State) (n : LaneIx) (x : Voice) : (s.setVoice n x).mix = s.mix := rfl
@[simp] theorem State.setVoice_port (s : State) (n : LaneIx) (x : Voice) : (s.setVoice n x).port = s.port := rfl
@[simp] theorem State.setVoice_emitted (s : State) (n : LaneIx) (x : Voice) : (s.setVoice n x).emitted = s.emitted := rfl

@[simp] theorem State.setLaneValue_tick (s : State) (n : LaneIx) (x : Int) : (s.setLaneValue n x).tick = s.tick := rfl
@[simp] theorem State.setLaneValue_soundcnt (s : State) (n : LaneIx) (x : Int) : (s.setLaneValue n x).soundcnt = s.soundcnt := rfl
@[simp] theorem State.setLaneValue_bias (s : State) (n : LaneIx) (x : Int) : (s.setLaneValue n x).bias = s.bias := rfl
@[simp] theorem State.setLaneValue_events (s : State) (n : LaneIx) (x : Int) : (s.setLaneValue n x).events = s.events := rfl
@[simp] theorem State.setLaneValue_fatal (s : State) (n : LaneIx) (x : Int) : (s.setLaneValue n x).fatal = s.fatal := rfl
@[simp] theorem State.setLaneValue_out (s : State) (n : LaneIx) (x : Int) : (s.setLaneValue n x).out = s.out := rfl
@[simp] theorem State.setLaneValue_lanes (s : State) (n : LaneIx) (x : Int) : (s.setLaneValue n x).lanes = s.lanes := rfl
@[simp] theorem State.setLaneValue_caps (s : State) (n : LaneIx) (x : Int) : (s.setLaneValue n x).caps = s.caps := rfl
@[simp] theorem State.setLaneValue_voices (s : State) (n : LaneIx) (x : Int) : (s.setLaneValue n x).voices = s.voices := rfl
@[simp] theorem State.setLaneValue_mem (s : State) (n : LaneIx) (x : Int) : (s.setLaneValue n x).mem = s.mem := rfl
@[simp] theorem State.setLaneValue_port (s : State) (n : LaneIx) (x : Int) : (s.setLaneValue n x).port = s.port := rfl
@[simp] theorem State.setLaneValue_emitted (s : State) (n : LaneIx) (x : Int) : (s.setLaneValue n x).emitted = s.emitted := rfl

@[simp] theorem State.emit_tick (s : State) (e : Emission) : (s.emit e).tick = s.tick := rfl
@[simp] theorem State.emit_soundcnt (s : State) (e : Emission) : (s.emit e).soundcnt = s.soundcnt := rfl
@[simp] theorem State.emit_bias (s : State) (e : Emission) : (s.emit e).bias = s.bias := rfl
@[simp] theorem State.emit_events (s : State) (e : Emission) : (s.emit e).events = s.events := rfl
@[simp] theorem State.emit_fatal (s : State) (e : Emission) : (s.emit e).fatal = s.fatal := rfl
@[simp] theorem State.emit_out (s : State) (e : Emission) : (s.emit e).out = s.out := rfl
@[simp] theorem State.emit_lanes (s : State) (e : Emission) : (s.emit e).lanes = s.lanes := rfl
@[simp] theorem State.emit_caps (s : State) (e : Emission) : (s.emit e).caps = s.caps := rfl
@[simp] theorem State.emit_voices (s : State) (e : Emission) : (s.emit e).voices = s.voices := rfl
@[simp] theorem State.emit_mem (s : State) (e : Emission) : (s.emit e).mem = s.mem := rfl
@[simp] theorem State.emit_mix (s : State) (e : Emission) : (s.emit e).mix = s.mix := rfl
@[simp] theorem State.emit_port (s : State) (e : Emission) : (s.emit e).port = s.port := rfl

@[simp] theorem State.resetBlock_tick (s : State) : (s.resetBlock).tick = State.reset.tick := rfl
@[simp] theorem State.resetBlock_soundcnt (s : State) : (s.resetBlock).soundcnt = State.reset.soundcnt := rfl
@[simp] theorem State.resetBlock_bias (s : State) : (s.resetBlock).bias = State.reset.bias := rfl
@[simp] theorem State.resetBlock_events (s : State) : (s.resetBlock).events = State.reset.events := rfl
@[simp] theorem State.resetBlock_fatal (s : State) : (s.resetBlock).fatal = State.reset.fatal := rfl
@[simp] theorem State.resetBlock_out (s : State) : (s.resetBlock).out = State.reset.out := rfl
@[simp] theorem State.resetBlock_lanes (s : State) : (s.resetBlock).lanes = State.reset.lanes := rfl
@[simp] theorem State.resetBlock_caps (s : State) : (s.resetBlock).caps = State.reset.caps := rfl
@[simp] theorem State.resetBlock_voices (s : State) : (s.resetBlock).voices = State.reset.voices := rfl
@[simp] theorem State.resetBlock_mem (s : State) : (s.resetBlock).mem = s.mem := rfl
@[simp] theorem State.resetBlock_mix (s : State) : (s.resetBlock).mix = State.reset.mix := rfl
@[simp] theorem State.resetBlock_port (s : State) : (s.resetBlock).port = s.port := rfl
@[simp] theorem State.resetBlock_emitted (s : State) : (s.resetBlock).emitted = s.emitted := rfl

@[simp] theorem State.raise_tick (s : State) (e : FatalError) : (s.raise e).tick = s.tick := by
  unfold State.raise; split <;> rfl
@[simp] theorem State.raise_soundcnt (s : State) (e : FatalError) : (s.raise e).soundcnt = s.soundcnt := by
  unfold State.raise; split <;> rfl
@[simp] theorem State.raise_bias (s : State) (e : FatalError) : (s.raise e).bias = s.bias := by
  unfold State.raise; split <;> rfl
@[simp] theorem State.raise_events (s : State) (e : FatalError) : (s.raise e).events = s.events := by
  unfold State.raise; split <;> rfl
@[simp] theorem State.raise_out (s : State) (e : FatalError) : (s.raise e).out = s.out := by
  unfold State.raise; split <;> rfl
@[simp] theorem State.raise_lanes (s : State) (e : FatalError) : (s.raise e).lanes = s.lanes := by
  unfold State.raise; split <;> rfl
@[simp] theorem State.raise_caps (s : State) (e : FatalError) : (s.raise e).caps = s.caps := by
  unfold State.raise; split <;> rfl
@[simp] theorem State.raise_voices (s : State) (e : FatalError) : (s.raise e).voices = s.voices := by
  unfold State.raise; split <;> rfl
@[simp] theorem State.raise_mem (s : State) (e : FatalError) : (s.raise e).mem = s.mem := by
  unfold State.raise; split <;> rfl
@[simp] theorem State.raise_mix (s : State) (e : FatalError) : (s.raise e).mix = s.mix := by
  unfold State.raise; split <;> rfl
@[simp] theorem State.raise_port (s : State) (e : FatalError) : (s.raise e).port = s.port := by
  unfold State.raise; split <;> rfl
@[simp] theorem State.raise_emitted (s : State) (e : FatalError) : (s.raise e).emitted = s.emitted := by
  unfold State.raise; split <;> rfl

@[simp] theorem State.setOutput_tick (s : State) (side : Side) (x : Int) : (s.setOutput side x).tick = s.tick := by
  cases side <;> rfl
@[simp] theorem State.setOutput_soundcnt (s : State) (side : Side) (x : Int) : (s.setOutput side x).soundcnt = s.soundcnt := by
  cases side <;> rfl
@[simp] theorem State.setOutput_bias (s : State) (side : Side) (x : Int) : (s.setOutput side x).bias = s.bias := by
  cases side <;> rfl
@[simp] theorem State.setOutput_events (s : State) (side : Side) (x : Int) : (s.setOutput side x).events = s.events := by
  cases side <;> rfl
@[simp] theorem State.setOutput_fatal (s : State) (side : Side) (x : Int) : (s.setOutput side x).fatal = s.fatal := by
  cases side <;> rfl
@[simp] theorem State.setOutput_out (s : State) (side : Side) (x : Int) : (s.setOutput side x).out = s.out := by
  cases side <;> rfl
@[simp] theorem State.setOutput_lanes (s : State) (side : Side) (x : Int) : (s.setOutput side x).lanes = s.lanes := by
  cases side <;> rfl
@[simp] theorem State.setOutput_caps (s : State) (side : Side) (x : Int) : (s.setOutput side x).caps = s.caps := by
  cases side <;> rfl
@[simp] theorem State.setOutput_voices (s : State) (side : Side) (x : Int) : (s.setOutput side x).voices = s.voices := by
  cases side <;> rfl
@[simp] theorem State.setOutput_mem (s : State) (side : Side) (x : Int) : (s.setOutput side x).mem = s.mem := by
  cases side <;> rfl
@[simp] theorem State.setOutput_port (s : State) (side : Side) (x : Int) : (s.setOutput side x).port = s.port := by
  cases side <;> rfl
@[simp] theorem State.setOutput_emitted (s : State) (side : Side) (x : Int) : (s.setOutput side x).emitted = s.emitted := by
  cases side <;> rfl

/-! ### Accessors -/

@[simp] theorem State.lane_setLane (s : State) (n m : LaneIx) (l : Lane) :
    (s.setLane n l).lane m = if n = m then l else s.lane m := by
  simp only [State.lane, State.setLane, Fin.getElem_fin, Vector.getElem_set, Fin.ext_iff]

@[simp] theorem State.cap_setCap (s : State) (u w : CapIx) (c : Capture) :
    (s.setCap u c).cap w = if u = w then c else s.cap w := by
  simp only [State.cap, State.setCap, Fin.getElem_fin, Vector.getElem_set, Fin.ext_iff]

@[simp] theorem State.voice_setVoice (s : State) (n m : LaneIx) (x : Voice) :
    (s.setVoice n x).voice m = if n = m then x else s.voice m := by
  simp only [State.voice, State.setVoice, Fin.getElem_fin, Vector.getElem_set, Fin.ext_iff]

@[simp] theorem State.laneValue_setLaneValue (s : State) (n m : LaneIx) (x : Int) :
    (s.setLaneValue n x).laneValue m = if n = m then x else s.laneValue m := by
  simp only [State.laneValue, State.setLaneValue, Fin.getElem_fin, Vector.getElem_set, Fin.ext_iff]

@[simp] theorem State.lane_setCap (s : State) (u : CapIx) (c : Capture) (k : LaneIx) : (s.setCap u c).lane k = s.lane k := rfl
@[simp] theorem State.lane_setVoice (s : State) (n : LaneIx) (x : Voice) (k : LaneIx) : (s.setVoice n x).lane k = s.lane k := rfl
@[simp] theorem State.lane_setLaneValue (s : State) (n : LaneIx) (x : Int) (k : LaneIx) : (s.setLaneValue n x).lane k = s.lane k := rfl
@[simp] theorem State.lane_emit (s : State) (e : Emission) (k : LaneIx) : (s.emit e).lane k = s.lane k := rfl
@[simp] theorem State.lane_raise (s : State) (e : FatalError) (k : LaneIx) : (s.raise e).lane k = s.lane k := by
  unfold State.raise; split <;> rfl
@[simp] theorem State.lane_setOutput (s : State) (side : Side) (x : Int) (k : LaneIx) :
    (s.setOutput side x).lane k = s.lane k := by
  cases side <;> rfl
@[simp] theorem State.cap_setLane (s : State) (n : LaneIx) (l : Lane) (u : CapIx) : (s.setLane n l).cap u = s.cap u := rfl
@[simp] theorem State.cap_setVoice (s : State) (n : LaneIx) (x : Voice) (u : CapIx) : (s.setVoice n x).cap u = s.cap u := rfl
@[simp] theorem State.cap_setLaneValue (s : State) (n : LaneIx) (x : Int) (u : CapIx) : (s.setLaneValue n x).cap u = s.cap u := rfl
@[simp] theorem State.cap_emit (s : State) (e : Emission) (u : CapIx) : (s.emit e).cap u = s.cap u := rfl
@[simp] theorem State.cap_raise (s : State) (e : FatalError) (u : CapIx) : (s.raise e).cap u = s.cap u := by
  unfold State.raise; split <;> rfl
@[simp] theorem State.cap_setOutput (s : State) (side : Side) (x : Int) (u : CapIx) :
    (s.setOutput side x).cap u = s.cap u := by
  cases side <;> rfl
@[simp] theorem State.voice_setLane (s : State) (n : LaneIx) (l : Lane) (k : LaneIx) : (s.setLane n l).voice k = s.voice k := rfl
@[simp] theorem State.voice_setCap (s : State) (u : CapIx) (c : Capture) (k : LaneIx) : (s.setCap u c).voice k = s.voice k := rfl
@[simp] theorem State.voice_setLaneValue (s : State) (n : LaneIx) (x : Int) (k : LaneIx) : (s.setLaneValue n x).voice k = s.voice k := rfl
@[simp] theorem State.voice_emit (s : State) (e : Emission) (k : LaneIx) : (s.emit e).voice k = s.voice k := rfl
@[simp] theorem State.voice_raise (s : State) (e : FatalError) (k : LaneIx) : (s.raise e).voice k = s.voice k := by
  unfold State.raise; split <;> rfl
@[simp] theorem State.voice_setOutput (s : State) (side : Side) (x : Int) (k : LaneIx) :
    (s.setOutput side x).voice k = s.voice k := by
  cases side <;> rfl
@[simp] theorem State.laneValue_setLane (s : State) (n : LaneIx) (l : Lane) (k : LaneIx) : (s.setLane n l).laneValue k = s.laneValue k := rfl
@[simp] theorem State.laneValue_setCap (s : State) (u : CapIx) (c : Capture) (k : LaneIx) : (s.setCap u c).laneValue k = s.laneValue k := rfl
@[simp] theorem State.laneValue_setVoice (s : State) (n : LaneIx) (x : Voice) (k : LaneIx) : (s.setVoice n x).laneValue k = s.laneValue k := rfl
@[simp] theorem State.laneValue_emit (s : State) (e : Emission) (k : LaneIx) : (s.emit e).laneValue k = s.laneValue k := rfl
@[simp] theorem State.laneValue_raise (s : State) (e : FatalError) (k : LaneIx) : (s.raise e).laneValue k = s.laneValue k := by
  unfold State.raise; split <;> rfl
@[simp] theorem State.laneValue_setOutput (s : State) (side : Side) (x : Int) (k : LaneIx) :
    (s.setOutput side x).laneValue k = s.laneValue k := by
  cases side <;> rfl

/-! ### At reset -/

@[simp] theorem State.lane_reset (n : LaneIx) : State.reset.lane n = Lane.reset := by
  simp [State.lane, State.reset]

@[simp] theorem State.cap_reset (u : CapIx) : State.reset.cap u = Capture.reset := by
  simp [State.cap, State.reset]

theorem State.voice_reset (n : LaneIx) :
    State.reset.voice n = if n ∈ Config.blockedLanes then .blocked else .opened := by
  revert n; decide

@[simp] theorem State.lane_resetBlock (s : State) (k : LaneIx) : s.resetBlock.lane k = State.reset.lane k := rfl
@[simp] theorem State.cap_resetBlock (s : State) (u : CapIx) : s.resetBlock.cap u = State.reset.cap u := rfl
@[simp] theorem State.voice_resetBlock (s : State) (k : LaneIx) : s.resetBlock.voice k = State.reset.voice k := rfl

/-! ### The fatal error -/

theorem State.raise_fatal_of_live {s : State} (h : s.fatal = none) (e : FatalError) :
    (s.raise e).fatal = some e := by
  simp [State.raise, h]

theorem State.raise_fatal_of_set {s : State} {e' : FatalError} (h : s.fatal = some e') (e : FatalError) :
    s.raise e = s := by
  simp [State.raise, h]

@[simp] theorem State.raise_fatal_isSome (s : State) (e : FatalError) : (s.raise e).fatal.isSome = true := by
  unfold State.raise; split <;> simp_all

theorem State.andThen_of_live {s : State} (h : s.fatal = none) (f : State → State) : s.andThen f = f s := by
  simp [State.andThen, h]

theorem State.andThen_of_set {s : State} {e : FatalError} (h : s.fatal = some e) (f : State → State) :
    s.andThen f = s := by
  simp [State.andThen, h]

/-- All that `andThen` can do. -/
theorem State.andThen_cases (s : State) (f : State → State) :
    (s.fatal = none ∧ s.andThen f = f s) ∨ (s.fatal.isSome ∧ s.andThen f = s) := by
  unfold State.andThen
  cases h : s.fatal <;> simp

/-- All that `commitLane` can do. -/
theorem State.commitLane_cases (s : State) (n : LaneIx) (r : LaneOut) :
    (r.err = none ∧ s.commitLane n r = s.setLane n r.lane) ∨
    (∃ a, r.err = some a ∧ s.commitLane n r = (s.setLane n r.lane).raise (.busError a)) := by
  unfold State.commitLane
  cases h : r.err <;> simp

/-- All that `commitCap` can do. -/
theorem State.commitCap_cases (s : State) (u : CapIx) (r : CapOut) :
    (r.err = none ∧ s.commitCap u r = { s with mem := r.mem }.setCap u r.cap) ∨
    (∃ a, r.err = some a ∧ s.commitCap u r = ({ s with mem := r.mem }.setCap u r.cap).raise (.busError a)) := by
  unfold State.commitCap
  cases h : r.err <;> simp

/-- All that `LaneOut.andThen` can do. -/
theorem LaneOut.andThen_cases (r : LaneOut) (f : Lane → LaneOut) :
    (r.err = none ∧ r.andThen f = f r.lane) ∨ (r.err.isSome ∧ r.andThen f = r) := by
  unfold LaneOut.andThen
  cases h : r.err <;> simp

/-- All that `CapOut.andThen` can do. -/
theorem CapOut.andThen_cases (r : CapOut) (f : Capture → List Host.Cell → CapOut) :
    (r.err = none ∧ r.andThen f = f r.cap r.mem) ∨ (r.err.isSome ∧ r.andThen f = r) := by
  unfold CapOut.andThen
  cases h : r.err <;> simp

@[simp] theorem State.commitLane_tick (s : State) (n : LaneIx) (r : LaneOut) : (s.commitLane n r).tick = s.tick := by
  unfold State.commitLane; split <;> simp
@[simp] theorem State.commitLane_soundcnt (s : State) (n : LaneIx) (r : LaneOut) : (s.commitLane n r).soundcnt = s.soundcnt := by
  unfold State.commitLane; split <;> simp
@[simp] theorem State.commitLane_bias (s : State) (n : LaneIx) (r : LaneOut) : (s.commitLane n r).bias = s.bias := by
  unfold State.commitLane; split <;> simp
@[simp] theorem State.commitLane_events (s : State) (n : LaneIx) (r : LaneOut) : (s.commitLane n r).events = s.events := by
  unfold State.commitLane; split <;> simp
@[simp] theorem State.commitLane_out (s : State) (n : LaneIx) (r : LaneOut) : (s.commitLane n r).out = s.out := by
  unfold State.commitLane; split <;> simp
@[simp] theorem State.commitLane_caps (s : State) (n : LaneIx) (r : LaneOut) : (s.commitLane n r).caps = s.caps := by
  unfold State.commitLane; split <;> simp
@[simp] theorem State.commitLane_voices (s : State) (n : LaneIx) (r : LaneOut) : (s.commitLane n r).voices = s.voices := by
  unfold State.commitLane; split <;> simp
@[simp] theorem State.commitLane_mem (s : State) (n : LaneIx) (r : LaneOut) : (s.commitLane n r).mem = s.mem := by
  unfold State.commitLane; split <;> simp
@[simp] theorem State.commitLane_mix (s : State) (n : LaneIx) (r : LaneOut) : (s.commitLane n r).mix = s.mix := by
  unfold State.commitLane; split <;> simp
@[simp] theorem State.commitLane_port (s : State) (n : LaneIx) (r : LaneOut) : (s.commitLane n r).port = s.port := by
  unfold State.commitLane; split <;> simp
@[simp] theorem State.commitLane_emitted (s : State) (n : LaneIx) (r : LaneOut) : (s.commitLane n r).emitted = s.emitted := by
  unfold State.commitLane; split <;> simp

@[simp] theorem State.commitCap_tick (s : State) (u : CapIx) (r : CapOut) : (s.commitCap u r).tick = s.tick := by
  unfold State.commitCap; split <;> simp
@[simp] theorem State.commitCap_soundcnt (s : State) (u : CapIx) (r : CapOut) : (s.commitCap u r).soundcnt = s.soundcnt := by
  unfold State.commitCap; split <;> simp
@[simp] theorem State.commitCap_bias (s : State) (u : CapIx) (r : CapOut) : (s.commitCap u r).bias = s.bias := by
  unfold State.commitCap; split <;> simp
@[simp] theorem State.commitCap_events (s : State) (u : CapIx) (r : CapOut) : (s.commitCap u r).events = s.events := by
  unfold State.commitCap; split <;> simp
@[simp] theorem State.commitCap_out (s : State) (u : CapIx) (r : CapOut) : (s.commitCap u r).out = s.out := by
  unfold State.commitCap; split <;> simp
@[simp] theorem State.commitCap_lanes (s : State) (u : CapIx) (r : CapOut) : (s.commitCap u r).lanes = s.lanes := by
  unfold State.commitCap; split <;> simp
@[simp] theorem State.commitCap_voices (s : State) (u : CapIx) (r : CapOut) : (s.commitCap u r).voices = s.voices := by
  unfold State.commitCap; split <;> simp
@[simp] theorem State.commitCap_mix (s : State) (u : CapIx) (r : CapOut) : (s.commitCap u r).mix = s.mix := by
  unfold State.commitCap; split <;> simp
@[simp] theorem State.commitCap_port (s : State) (u : CapIx) (r : CapOut) : (s.commitCap u r).port = s.port := by
  unfold State.commitCap; split <;> simp
@[simp] theorem State.commitCap_emitted (s : State) (u : CapIx) (r : CapOut) : (s.commitCap u r).emitted = s.emitted := by
  unfold State.commitCap; split <;> simp

@[simp] theorem State.commitCap_mem (s : State) (u : CapIx) (r : CapOut) : (s.commitCap u r).mem = r.mem := by
  unfold State.commitCap; split <;> simp

@[simp] theorem State.lane_commitLane (s : State) (n m : LaneIx) (r : LaneOut) :
    (s.commitLane n r).lane m = if n = m then r.lane else s.lane m := by
  unfold State.commitLane; split <;> simp

@[simp] theorem State.cap_commitLane (s : State) (n : LaneIx) (r : LaneOut) (u : CapIx) :
    (s.commitLane n r).cap u = s.cap u := by
  unfold State.commitLane; split <;> simp

@[simp] theorem State.voice_commitLane (s : State) (n m : LaneIx) (r : LaneOut) :
    (s.commitLane n r).voice m = s.voice m := by
  unfold State.commitLane; split <;> simp

@[simp] theorem State.laneValue_commitLane (s : State) (n m : LaneIx) (r : LaneOut) :
    (s.commitLane n r).laneValue m = s.laneValue m := by
  unfold State.commitLane; split <;> simp

@[simp] theorem State.cap_commitCap (s : State) (u w : CapIx) (r : CapOut) :
    (s.commitCap u r).cap w = if u = w then r.cap else s.cap w := by
  unfold State.commitCap
  split <;> simp [State.cap, State.setCap, Vector.getElem_set, Fin.ext_iff]

@[simp] theorem State.lane_commitCap (s : State) (u : CapIx) (n : LaneIx) (r : CapOut) :
    (s.commitCap u r).lane n = s.lane n := by
  unfold State.commitCap; split <;> simp [State.lane]

@[simp] theorem State.voice_commitCap (s : State) (u : CapIx) (n : LaneIx) (r : CapOut) :
    (s.commitCap u r).voice n = s.voice n := by
  unfold State.commitCap; split <;> simp [State.voice]

/-- Without an error a capture commit keeps the fatal state; with one it raises BusError. -/
theorem State.commitCap_fatal (s : State) (u : CapIx) (r : CapOut) :
    (s.commitCap u r).fatal = match s.fatal, r.err with
      | some e, _ => some e
      | none, none => none
      | none, some a => some (.busError a) := by
  unfold State.commitCap State.raise
  cases h : s.fatal <;> cases r.err <;> simp

/-- Without an error a lane commit keeps the fatal state; with one it raises BusError. -/
theorem State.commitLane_fatal (s : State) (n : LaneIx) (r : LaneOut) :
    (s.commitLane n r).fatal = match s.fatal, r.err with
      | some e, _ => some e
      | none, none => none
      | none, some a => some (.busError a) := by
  unfold State.commitLane State.raise
  cases h : s.fatal <;> cases h' : r.err <;> simp [h]

theorem State.commitLane_live (s : State) (n : LaneIx) (r : LaneOut) :
    (s.commitLane n r).fatal = none ↔ s.fatal = none ∧ r.err = none := by
  rw [State.commitLane_fatal]
  cases s.fatal <;> cases r.err <;> simp

theorem State.commitCap_live (s : State) (u : CapIx) (r : CapOut) :
    (s.commitCap u r).fatal = none ↔ s.fatal = none ∧ r.err = none := by
  rw [State.commitCap_fatal]
  cases s.fatal <;> cases r.err <;> simp

/-! ### Committing an outcome (R400, R404) -/

theorem State.raise_of_live {s : State} (h : s.fatal = none) (e : FatalError) :
    s.raise e = { s with fatal := some e } := by
  simp only [State.raise, h]

theorem State.commitLane_ok (s : State) (n : LaneIx) {r : LaneOut} (h : r.err = none) :
    s.commitLane n r = s.setLane n r.lane := by
  simp only [State.commitLane, h]

theorem State.commitLane_error {s : State} (hl : s.fatal = none) (n : LaneIx) {r : LaneOut} {a : Word}
    (h : r.err = some a) : s.commitLane n r = { s.setLane n r.lane with fatal := some (.busError a) } := by
  simp only [State.commitLane, h, State.raise, State.setLane_fatal, hl]

theorem State.commitCap_ok (s : State) (u : CapIx) {r : CapOut} (h : r.err = none) :
    s.commitCap u r = ({ s with mem := r.mem } : State).setCap u r.cap := by
  simp only [State.commitCap, h]

theorem State.commitCap_error {s : State} (hl : s.fatal = none) (u : CapIx) {r : CapOut} {a : Word}
    (h : r.err = some a) :
    s.commitCap u r = { ({ s with mem := r.mem } : State).setCap u r.cap with fatal := some (.busError a) } := by
  simp only [State.commitCap, h, State.raise, State.setCap_fatal, hl]

end Sys2Proof.Machine
end

