-- ==== Sys2Proof/Laws/Memory.lean ====
section
/-!
SUPPORT. Laws of sample memory: read after write, what a write leaves alone, and that every memory operation keeps
the canonical form.
-/

namespace Sys2Proof.Machine

/-- Every address of the list is above `k`. -/
abbrev Memory.above (k : Nat) (m : List Host.Cell) : Prop := ∀ c ∈ m, k < c.1

theorem Memory.wf_cons {c : Host.Cell} {m : List Host.Cell} :
    Memory.wf (c :: m) ↔ Memory.above c.1 m ∧ c.2 ≠ Config.unlistedByte ∧ Memory.wf m := by
  simp only [Memory.wf, List.pairwise_cons, List.mem_cons, forall_eq_or_imp]
  tauto

theorem Memory.read_above {m : List Host.Cell} {k : Nat} (h : Memory.above k m) :
    Memory.read m k = Config.unlistedByte := by
  induction m with
  | nil => rfl
  | cons c m ih =>
    have := h c (by simp)
    rw [Memory.read, if_neg (by omega)]
    exact ih fun d hd => h d (by simp [hd])

/-- What a write leaves alone, in any list. -/
theorem Memory.read_write_other (m : List Host.Cell) {k j : Nat} (v : Byte) (h : j ≠ k) :
    Memory.read (Memory.write m k v) j = Memory.read m j := by
  have h' : k ≠ j := Ne.symm h
  induction m with
  | nil => unfold Memory.write; split <;> simp [Memory.read, h']
  | cons c m ih =>
    unfold Memory.write
    split
    · split <;> simp [Memory.read, h']
    · split
      · rename_i hk
        have hc : c.1 ≠ j := hk ▸ h'
        split <;> simp [Memory.read, h', hc]
      · simp only [Memory.read, ih]

/-- A byte written reads back, in memory of the canonical form. -/
theorem Memory.read_write_self {m : List Host.Cell} (h : Memory.wf m) (k : Nat) (v : Byte) :
    Memory.read (Memory.write m k v) k = v := by
  induction m with
  | nil => unfold Memory.write; split <;> simp_all [Memory.read]
  | cons c m ih =>
    obtain ⟨ha, -, hw⟩ := Memory.wf_cons.1 h
    have hm : k ≤ c.1 → Memory.read m k = Config.unlistedByte := fun hk =>
      Memory.read_above fun d hd => lt_of_le_of_lt hk (ha d hd)
    unfold Memory.write
    split
    · rename_i hk
      have hc : c.1 ≠ k := by omega
      split <;> simp_all [Memory.read, le_of_lt hk]
    · split
      · rename_i hk
        split
        · rename_i hv; rw [hv]; exact hm hk.le
        · simp [Memory.read]
      · rename_i h1 h2
        rw [Memory.read, if_neg (by omega)]
        exact ih hw

theorem Memory.write_above {m : List Host.Cell} {j k : Nat} (h : Memory.above j m) (hk : j < k) (v : Byte) :
    Memory.above j (Memory.write m k v) := by
  induction m with
  | nil => unfold Memory.write; split <;> simp [Memory.above, hk]
  | cons c m ih =>
    have hc := h c (by simp)
    have hm : Memory.above j m := fun d hd => h d (by simp [hd])
    unfold Memory.write
    split
    · split
      · exact h
      · intro d hd
        rcases List.mem_cons.1 hd with rfl | hd
        exacts [hk, h d hd]
    · split
      · split
        · exact hm
        · intro d hd
          rcases List.mem_cons.1 hd with rfl | hd
          exacts [hk, hm d hd]
      · intro d hd
        rcases List.mem_cons.1 hd with rfl | hd
        exacts [hc, ih hm d hd]

/-- A write keeps the canonical form. -/
theorem Memory.wf_write {m : List Host.Cell} (h : Memory.wf m) (k : Nat) (v : Byte) :
    Memory.wf (Memory.write m k v) := by
  induction m with
  | nil => unfold Memory.write; split <;> simp_all [Memory.wf]
  | cons c m ih =>
    obtain ⟨ha, hv, hw⟩ := Memory.wf_cons.1 h
    unfold Memory.write
    split
    · rename_i hk
      split
      · exact h
      · refine Memory.wf_cons.2 ⟨fun d hd => ?_, by assumption, h⟩
        rcases List.mem_cons.1 hd with rfl | hd
        exacts [hk, hk.trans (ha d hd)]
    · split
      · rename_i hk
        split
        · exact hw
        · exact Memory.wf_cons.2 ⟨by rw [hk]; exact ha, by assumption, hw⟩
      · exact Memory.wf_cons.2 ⟨Memory.write_above ha (by omega) v, hv, ih hw⟩

/-- The cells of memory after a write are old cells or the one written. -/
theorem Memory.mem_write {m : List Host.Cell} {k : Nat} {v : Byte} {c : Host.Cell} (h : c ∈ Memory.write m k v) :
    c ∈ m ∨ c = (k, v) := by
  induction m with
  | nil => unfold Memory.write at h; split at h <;> simp_all
  | cons d m ih =>
    unfold Memory.write at h
    split at h
    · split at h <;> simp_all; tauto
    · split at h
      · split at h <;> simp_all; tauto
      · rcases List.mem_cons.1 h with rfl | h
        · simp
        · rcases ih h with h | h <;> simp [h]

/-! ### Accesses -/

@[simp] theorem accessAddrs_one (a : Word) : accessAddrs a 1 = [a] := by
  simp [accessAddrs, List.range_one]

@[simp] theorem firstUnmapped_one (a : Word) :
    firstUnmapped a 1 = if Config.mapped a then none else some a := by
  simp only [firstUnmapped, accessAddrs_one, List.find?_cons, List.find?_nil]
  cases Config.mapped a <;> rfl

/-- All that a write of one byte can do (R84, R404). -/
theorem memWrite_one (m : List Host.Cell) (a : Word) (v : Byte) :
    memWrite m a 1 v.toNat = if Config.mapped a then .ok (Memory.write m a.toNat v) else .error a := by
  unfold memWrite
  rw [firstUnmapped_one]
  cases Config.mapped a <;> simp [List.range_one, Nat.mod_eq_of_lt a.isLt]

/-- A read fails only at the first address of it that is not mapped. -/
theorem memRead_error {m : List Host.Cell} {a : Word} {n : Nat} {b : Word} (h : memRead m a n = .error b) :
    firstUnmapped a n = some b := by
  unfold memRead at h
  split at h <;> simp_all

/-- A read of mapped bytes is their little-endian value. -/
theorem memRead_mapped {m : List Host.Cell} {a : Word} {n : Nat}
    (h : ∀ i < n, Config.mapped (a + BitVec.ofNat 32 i) = true) :
    memRead m a n = .ok (leValue ((accessAddrs a n).map fun a => Memory.read m a.toNat)) := by
  have : firstUnmapped a n = none := by
    simp only [firstUnmapped, List.find?_eq_none, accessAddrs, List.mem_map, List.mem_range]
    rintro b ⟨i, hi, rfl⟩
    simp [h i hi]
  simp [memRead, this]

/-- Byte `i` of a little-endian value. -/
theorem leValue_byte (bs : List Byte) (i : Nat) (h : i < bs.length) :
    BitVec.ofNat 8 (leValue bs / 2 ^ (8 * i)) = bs[i] := by
  induction bs generalizing i with
  | nil => simp at h
  | cons b bs ih =>
    cases i with
    | zero => simp [leValue]; apply BitVec.eq_of_toNat_eq; simp; omega
    | succ i =>
      have hb := b.isLt
      have : (b.toNat + 256 * leValue bs) / 2 ^ (8 * (i + 1)) = leValue bs / 2 ^ (8 * i) := by
        rw [show 8 * (i + 1) = 8 + 8 * i by ring, pow_add, ← Nat.div_div_eq_div_mul]
        congr 1; omega
      simp only [leValue, this, List.getElem_cons_succ]
      exact ih i (by simpa using h)

/-- A little-endian value is the sum of its bytes, each at its place (R83). -/
theorem leValue_range (k : Nat) (f : Nat → Byte) :
    leValue ((List.range k).map f) = ((List.range k).map fun i => (f i).toNat * 2 ^ (8 * i)).sum := by
  induction k generalizing f with
  | zero => rfl
  | succ k ih =>
    rw [List.range_succ_eq_map, List.map_cons, List.map_map, List.map_cons, List.map_map, List.sum_cons, leValue, ih,
      ← List.sum_map_mul_left]
    congr 1
    · simp
    · congr 1
      apply List.map_congr_left
      intro i _
      simp only [Function.comp_apply, Nat.succ_eq_add_one, Nat.mul_add, pow_add]
      generalize 2 ^ (8 * i) = x
      rw [show 2 ^ (8 * 1) = 256 from rfl, Nat.mul_comm 256, Nat.mul_assoc]

end Sys2Proof.Machine
end

