-- ==== Sys2Proof/Laws/Captures.lean ====
section
/-!
SUPPORT. What a capture unit can do to itself and to memory. One lemma for each operation.
-/

namespace Sys2Proof.Machine

/-- A predicate of the unit and the memory holds of what an operation answers, whether or not it was abandoned. -/
abbrev CapOut.holds (r : CapOut) (P : Capture → List Host.Cell → Prop) : Prop := P r.cap r.mem

theorem CapOut.andThen_holds {r : CapOut} {f : Capture → List Host.Cell → CapOut}
    {P : Capture → List Host.Cell → Prop} (h : r.holds P) (hf : ∀ c m, P c m → (f c m).holds P) :
    (r.andThen f).holds P := by
  rcases r.andThen_cases f with ⟨-, e⟩ | ⟨-, e⟩ <;> rw [e]
  exacts [hf _ _ h, h]

/-- One byte of a flush: abandoned, or written at a mapped address, the offset moved on (R273). -/
theorem flushBytes_cons (b : Byte) (bs : List Byte) (c : Capture) (m : List Host.Cell) :
    flushBytes (b :: bs) c m =
      if Config.mapped (c.dst + BitVec.ofNat 32 c.woff) then
        flushBytes bs { c with woff := if c.woff + 1 ≥ c.length then 0 else c.woff + 1 }
          (Memory.write m (c.dst + BitVec.ofNat 32 c.woff).toNat b)
      else ⟨c, m, some (c.dst + BitVec.ofNat 32 c.woff)⟩ := by
  rw [flushBytes, memWrite_one]
  cases h : Config.mapped (c.dst + BitVec.ofNat 32 c.woff) <;> simp

/-- The loop of a flush keeps what a mapped write at the unit's next address, with the offset moved on, keeps. -/
theorem flushBytes_holds {P : Capture → List Host.Cell → Prop}
    (hw : ∀ c m b, P c m → Config.mapped (c.dst + BitVec.ofNat 32 c.woff) = true →
      P { c with woff := if c.woff + 1 ≥ c.length then 0 else c.woff + 1 }
        (Memory.write m (c.dst + BitVec.ofNat 32 c.woff).toNat b))
    (bs : List Byte) (c : Capture) (m : List Host.Cell) (h : P c m) : (flushBytes bs c m).holds P := by
  induction bs generalizing c m with
  | nil => exact h
  | cons b bs ih =>
    rw [flushBytes_cons]
    split
    · rename_i hm; exact ih _ _ (hw c m b h hm)
    · exact h

theorem capFlush_holds {P : Capture → List Host.Cell → Prop}
    (hw : ∀ c m b, P c m → Config.mapped (c.dst + BitVec.ofNat 32 c.woff) = true →
      P { c with woff := if c.woff + 1 ≥ c.length then 0 else c.woff + 1 }
        (Memory.write m (c.dst + BitVec.ofNat 32 c.woff).toNat b))
    (he : ∀ c m, P c m → P { c with fifo := [] } m)
    (c : Capture) (m : List Host.Cell) (h : P c m) : (capFlush c m).holds P :=
  CapOut.andThen_holds (flushBytes_holds hw _ _ _ h) fun _ _ h => he _ _ h

/-- CAP_RUN keeps whatever these moves keep: a mapped write at the unit's next address, emptying the FIFO, appending
to it and advancing, reloading the timer, the end of the buffer in the two modes (R271 to R274). -/
theorem capRun_holds {P : Capture → List Host.Cell → Prop} (fmt8 oneshot : Bool) (sample : Int)
    (hw : ∀ c m b, P c m → Config.mapped (c.dst + BitVec.ofNat 32 c.woff) = true →
      P { c with woff := if c.woff + 1 ≥ c.length then 0 else c.woff + 1 }
        (Memory.write m (c.dst + BitVec.ofNat 32 c.woff).toNat b))
    (he : ∀ c m, P c m → P { c with fifo := [] } m)
    (ha : ∀ c m bs k, P c m → P { c with fifo := bs, pos := k } m)
    (ht : ∀ c m t, P c m → P { c with timer := t } m)
    (hstop : ∀ c m, P c m → P { c with woff := 0, cnt := clearCapEnable c.cnt } m)
    (hwrap : ∀ c m, P c m → P { c with woff := 0, pos := 0 } m)
    (c : Capture) (m : List Host.Cell) (h : P c m) : (capRun fmt8 oneshot sample c m).holds P := by
  have flush : ∀ c m, P c m → (capFlush c m).holds P := capFlush_holds hw he
  have store : ∀ c m, P c m → (capStore fmt8 oneshot sample c m).holds P := by
    intro c m h
    unfold capStore
    dsimp only
    refine CapOut.andThen_holds (P := P) ?_ fun c m h => ?_
    · split
      exacts [flush _ _ (ha _ _ _ _ h), ha _ _ _ _ h]
    · split
      · refine CapOut.andThen_holds (flush _ _ h) fun c m h => ?_
        cases oneshot
        · exact hwrap _ _ h
        · exact hstop _ _ h
      · exact h
  have loop : ∀ fuel c m, P c m → (capLoop fmt8 oneshot sample fuel c m).holds P := by
    intro fuel
    induction fuel with
    | zero => intro c m h; exact h
    | succ fuel ih =>
      intro c m h
      unfold capLoop
      split
      · refine CapOut.andThen_holds (store _ _ (ht _ _ _ h)) fun c m h => ?_
        split
        exacts [ih _ _ h, h]
      · exact h
  exact loop _ _ _ (ht _ _ _ h)

/-- CAP_RUN leaves the unit's registers alone and can only clear its enable (R271 to R274). -/
theorem capRun_keeps (fmt8 oneshot : Bool) (sample : Int) (c : Capture) (m : List Host.Cell) :
    (capRun fmt8 oneshot sample c m).cap.dst = c.dst ∧ (capRun fmt8 oneshot sample c m).cap.tmr = c.tmr ∧
      (capRun fmt8 oneshot sample c m).cap.length = c.length ∧
      ((capRun fmt8 oneshot sample c m).cap.cnt = c.cnt ∨
        (capRun fmt8 oneshot sample c m).cap.cnt = clearCapEnable c.cnt) := by
  refine capRun_holds (P := fun c' _ => c'.dst = c.dst ∧ c'.tmr = c.tmr ∧ c'.length = c.length ∧
    (c'.cnt = c.cnt ∨ c'.cnt = clearCapEnable c.cnt)) fmt8 oneshot sample (fun _ _ _ h _ => h) (fun _ _ h => h)
    (fun _ _ _ _ h => h) (fun _ _ _ h => h) ?_ (fun _ _ h => h) c m (by simp)
  rintro c' m' ⟨h1, h2, h3, h4⟩
  refine ⟨h1, h2, h3, .inr ?_⟩
  rcases h4 with h4 | h4 <;> simp [h4, clearCapEnable, BitVec.and_assoc]

theorem clearCapEnable_capEnable (cnt : Byte) : capEnable (clearCapEnable cnt) = false := by
  simp [capEnable, clearCapEnable]

/-- One captured sample leaves the timer and its reload alone. -/
theorem capStore_timer (fmt8 oneshot : Bool) (sample : Int) (c : Capture) (m : List Host.Cell) :
    (capStore fmt8 oneshot sample c m).cap.timer = c.timer ∧ (capStore fmt8 oneshot sample c m).cap.tmr = c.tmr := by
  have flush : ∀ c' m', (c'.timer = c.timer ∧ c'.tmr = c.tmr) →
      (capFlush c' m').holds fun c' _ => c'.timer = c.timer ∧ c'.tmr = c.tmr :=
    capFlush_holds (P := fun c' _ => c'.timer = c.timer ∧ c'.tmr = c.tmr) (fun _ _ _ h _ => h) (fun _ _ h => h)
  unfold capStore
  dsimp only
  refine CapOut.andThen_holds (P := fun c' _ => c'.timer = c.timer ∧ c'.tmr = c.tmr) ?_ fun c' m h => ?_
  · split
    exacts [flush _ _ ⟨rfl, rfl⟩, ⟨rfl, rfl⟩]
  · split
    · exact CapOut.andThen_holds (flush _ _ h) fun _ _ h => by cases oneshot <;> exact h
    · exact h

/-- One turn of the loop of R271 and R272. -/
theorem capLoop_turn (fmt8 oneshot : Bool) (sample : Int) (fuel : Nat) (c : Capture) (m : List Host.Cell)
    (h : Config.timerWrap ≤ c.timer) :
    capLoop fmt8 oneshot sample (fuel + 1) c m =
      (capStore fmt8 oneshot sample { c with timer := c.tmr.toNat + (c.timer - Config.timerWrap) } m).andThen
        fun c m => if capEnable c.cnt then capLoop fmt8 oneshot sample fuel c m else .ok c m :=
  if_pos h

theorem capLoop_below (fmt8 oneshot : Bool) (sample : Int) (fuel : Nat) (c : Capture) (m : List Host.Cell)
    (h : c.timer < Config.timerWrap) : capLoop fmt8 oneshot sample fuel c m = .ok c m := by
  cases fuel with
  | zero => rfl
  | succ fuel => exact if_neg (Nat.not_le.2 h)

/-- The timer after CAP_RUN: below the wrap, unless the unit stopped or was abandoned. -/
theorem capRun_timer (fmt8 oneshot : Bool) (sample : Int) (c : Capture) (m : List Host.Cell)
    (ht : c.timer < Config.timerWrap) :
    (capRun fmt8 oneshot sample c m).cap.timer < Config.timerWrap + Config.tickCycles ∧
      ((capRun fmt8 oneshot sample c m).err = none → capEnable (capRun fmt8 oneshot sample c m).cap.cnt = true →
        (capRun fmt8 oneshot sample c m).cap.timer < Config.timerWrap) := by
  have loop : ∀ fuel (c : Capture) m, c.timer + 1 ≤ Config.timerWrap + fuel →
      c.timer < Config.timerWrap + Config.tickCycles →
      (capLoop fmt8 oneshot sample fuel c m).cap.timer < Config.timerWrap + Config.tickCycles ∧
        ((capLoop fmt8 oneshot sample fuel c m).err = none →
          capEnable (capLoop fmt8 oneshot sample fuel c m).cap.cnt = true →
          (capLoop fmt8 oneshot sample fuel c m).cap.timer < Config.timerWrap) := by
    intro fuel
    induction fuel with
    | zero =>
      intro c m hf ht
      simp only [capLoop, CapOut.ok]
      exact ⟨ht, fun _ _ => by omega⟩
    | succ fuel ih =>
      intro c m hf ht
      unfold capLoop
      split
      · rename_i hw
        have hk := capStore_timer fmt8 oneshot sample { c with timer := c.tmr.toNat + (c.timer - Config.timerWrap) } m
        have htm := c.tmr.isLt
        generalize capStore fmt8 oneshot sample _ m = r at hk
        obtain ⟨hk1, -⟩ := hk
        simp only at hk1
        simp only [Config.timerWrap, Config.tickCycles] at *
        rcases r.andThen_cases (fun c m => if capEnable c.cnt then capLoop fmt8 oneshot sample fuel c m else .ok c m)
          with ⟨h, e⟩ | ⟨h, e⟩ <;> rw [e]
        · split
          · exact ih _ _ (by rw [hk1]; omega) (by rw [hk1]; omega)
          · rename_i hn
            simp only [CapOut.ok]
            exact ⟨by rw [hk1]; omega, fun _ h => absurd h hn⟩
        · exact ⟨by rw [hk1]; omega, fun h' => by simp [h'] at h⟩
      · simp only [CapOut.ok]
        exact ⟨ht, fun _ _ => by omega⟩
  have h1 : c.timer + Config.tickCycles + 1 ≤
      Config.timerWrap + (c.timer + Config.tickCycles) := by simp only [Config.timerWrap, Config.tickCycles] at *; omega
  have h2 : c.timer + Config.tickCycles < Config.timerWrap + Config.tickCycles := by omega
  have h := loop (c.timer + Config.tickCycles)
    { c with timer := c.timer + Config.tickCycles } m h1 h2
  simpa only [capRun] using h

end Sys2Proof.Machine
end

