-- ==== Sys2Proof/Laws/Generators.lean ====
section
/-!
SUPPORT. What the FIFO, the generators and the lane timer can do to a lane: which components they leave alone, and the
ranges they keep. One lemma for each operation.
-/

namespace Sys2Proof.Machine

/-- The registers of a lane and its timer are the same; the control word may have lost its key-on bit. -/
abbrev Lane.keeps (l l' : Lane) : Prop :=
  l'.src = l.src ∧ l'.tmr = l.tmr ∧ l'.loopPos = l.loopPos ∧ l'.length = l.length ∧ l'.timer = l.timer ∧
    (l'.cnt = l.cnt ∨ l'.cnt = clearKeyon l.cnt)

/-! ### The FIFO -/

/-- All that fetching words can change: the ring, its write index, and the offset, four bytes a word. -/
theorem fetchWords_shape (m : List Host.Cell) (k : Nat) (l : Lane) :
    ∃ ring fwr j, j ≤ k ∧ (fetchWords m k l).lane = { l with fifo := ring, foff := l.foff + 4 * j, fwr := fwr } ∧
      ((fetchWords m k l).err = none → j = k) := by
  induction k generalizing l with
  | zero => exact ⟨l.fifo, l.fwr, 0, le_refl 0, by simp [fetchWords, LaneOut.ok], fun _ => rfl⟩
  | succ k ih =>
    unfold fetchWords
    split
    · exact ⟨l.fifo, l.fwr, 0, Nat.zero_le _, by simp, by simp⟩
    · rename_i w _
      obtain ⟨ring, fwr, j, hj, he, hn⟩ := ih (l.pushWord w)
      refine ⟨ring, fwr, j + 1, by omega, ?_, fun h => by rw [hn h]⟩
      rw [he]
      simp only [Lane.pushWord, Lane.mk.injEq, true_and, and_true]
      omega

/-- Byte `i` of the ring after a burst word (R192). -/
theorem storeRing_get (ring : Vector Byte Config.fifoBytes) (fwr : Fin Config.fifoWords) (w i : Nat) (h : i < 32) :
    (storeRing ring fwr w)[i]'h = if i / 4 = fwr.val then BitVec.ofNat 8 (w / 2 ^ (8 * (i % 4))) else ring[i]'h := by
  have hf : fwr.val < 8 := fwr.isLt
  have e : List.finRange 4 = [0, 1, 2, 3] := by decide
  simp only [storeRing, e, List.foldl_cons, List.foldl_nil, Vector.getElem_set]
  by_cases hi : i / 4 = fwr.val
  · rw [if_pos hi]
    obtain ⟨r, hr, rfl⟩ : ∃ r, r < 4 ∧ i = 4 * fwr.val + r := ⟨i % 4, by omega, by omega⟩
    rw [show (4 * fwr.val + r) % 4 = r by omega]
    interval_cases r <;> simp
  · rw [if_neg hi]
    have : ∀ k : Fin 4, ¬ 4 * fwr.val + k.val = i := fun k => by omega
    simp only [this, if_false]

/-- A burst of `k` words to mapped addresses: byte `j` of it goes to ring place `4 fwr + j`, round the ring. -/
theorem fetchWords_ok (m : List Host.Cell) (k : Nat) (l : Lane) (hk : k ≤ 8)
    (hm : ∀ j < 4 * k, Config.mapped (l.src + BitVec.ofNat 32 (l.foff + j)) = true) :
    ∃ ring fwr, fetchWords m k l = ⟨{ l with fifo := ring, foff := l.foff + 4 * k, fwr := fwr }, none⟩ ∧
      fwr.val = (l.fwr.val + k) % 8 ∧
      ∀ i (h : i < 32), ring[i]'h = if (i + 32 - 4 * l.fwr.val) % 32 < 4 * k then
        Memory.read m (l.src + BitVec.ofNat 32 (l.foff + (i + 32 - 4 * l.fwr.val) % 32)).toNat else l.fifo[i]'h := by
  have hf := l.fwr.isLt
  simp only [Config.fifoWords] at hf
  induction k generalizing l with
  | zero => exact ⟨l.fifo, l.fwr, rfl, by omega, fun i h => by simp⟩
  | succ k ih =>
    have hr : memRead m (l.src + BitVec.ofNat 32 l.foff) 4 = _ := memRead_mapped fun i hi => by
      have := hm i (by omega)
      rwa [BitVec.ofNat_add, ← BitVec.add_assoc] at this
    unfold fetchWords
    rw [hr]
    dsimp only
    obtain ⟨ring, fwr, he, hw, hg⟩ := ih (l.pushWord _) (by omega) (fun j hj => by
      have := hm (4 + j) (by omega)
      simpa [Lane.pushWord, Nat.add_assoc] using this) (Nat.mod_lt _ (by decide))
    refine ⟨ring, fwr, ?_, ?_, fun i h => ?_⟩
    · rw [he]; simp only [Lane.pushWord, Nat.mul_add, Nat.add_assoc, Nat.add_comm, Nat.mul_one]
    · have hw : fwr.val = ((l.fwr.val + 1) % 8 + k) % 8 := hw
      omega
    · have hg : ring[i]'h = if (i + 32 - 4 * ((l.fwr.val + 1) % 8)) % 32 < 4 * k then
          Memory.read m (l.src + BitVec.ofNat 32 (l.foff + 4 + (i + 32 - 4 * ((l.fwr.val + 1) % 8)) % 32)).toNat
        else (storeRing l.fifo l.fwr _)[i]'h := hg i h
      rw [hg, storeRing_get]
      have hlen : ((accessAddrs (l.src + BitVec.ofNat 32 l.foff) 4).map fun a => Memory.read m a.toNat).length = 4 := by
        simp [accessAddrs]
      by_cases h1 : i / 4 = l.fwr.val
      · have hx : (i + 32 - 4 * l.fwr.val) % 32 = i % 4 := by omega
        rw [if_neg (by omega), if_pos h1, hx, if_pos (by omega), leValue_byte _ _ (by rw [hlen]; omega)]
        simp [accessAddrs, BitVec.ofNat_add, BitVec.add_assoc]
      · rw [if_neg h1]
        have hx : (i + 32 - 4 * ((l.fwr.val + 1) % 8)) % 32 + 4 = (i + 32 - 4 * l.fwr.val) % 32 := by
          generalize l.fwr.val = f at hf h1
          clear hg hw he ih hr hm
          rcases (show f = 7 ∨ (f + 1) % 8 = f + 1 by omega) with rfl | e <;> [skip; rw [e]] <;> omega
        rw [← hx]
        split
        · rw [if_pos (by omega), Nat.add_right_comm, ← Nat.add_assoc]
        · rw [if_neg (by omega)]

/-- A burst that meets an unmapped address first at byte `j` of it (R192, R404). -/
theorem fetchWords_error (m : List Host.Cell) (k : Nat) (l : Lane) (j : Nat) (hj : j < 4 * k)
    (hu : Config.mapped (l.src + BitVec.ofNat 32 (l.foff + j)) = false)
    (hm : ∀ i < j, Config.mapped (l.src + BitVec.ofNat 32 (l.foff + i)) = true) :
    (fetchWords m k l).err = some (l.src + BitVec.ofNat 32 (l.foff + j)) ∧
      (fetchWords m k l).lane.flevel = l.flevel ∧ (fetchWords m k l).lane.foff = l.foff + 4 * (j / 4) := by
  induction k generalizing l j with
  | zero => omega
  | succ k ih =>
    by_cases h4 : j < 4
    · have hf : firstUnmapped (l.src + BitVec.ofNat 32 l.foff) 4 = some (l.src + BitVec.ofNat 32 (l.foff + j)) := by
        have e : ∀ i, l.src + BitVec.ofNat 32 l.foff + BitVec.ofNat 32 i = l.src + BitVec.ofNat 32 (l.foff + i) := fun i => by
          rw [BitVec.ofNat_add, BitVec.add_assoc]
        simp only [firstUnmapped, accessAddrs, e, show List.range 4 = [0, 1, 2, 3] from rfl, List.map_cons, List.map_nil]
        interval_cases j
        · simp only [List.find?_cons, hu, Bool.not_false]
        · simp only [List.find?_cons, hu, hm 0 (by omega), Bool.not_true, Bool.not_false]
        · simp only [List.find?_cons, hu, hm 0 (by omega), hm 1 (by omega), Bool.not_true, Bool.not_false]
        · simp only [List.find?_cons, hu, hm 0 (by omega), hm 1 (by omega), hm 2 (by omega), Bool.not_true, Bool.not_false]
      have hr : memRead m (l.src + BitVec.ofNat 32 l.foff) 4 = .error (l.src + BitVec.ofNat 32 (l.foff + j)) := by
        simp [memRead, hf]
      unfold fetchWords
      rw [hr]
      exact ⟨rfl, rfl, by simp; omega⟩
    · have hr : memRead m (l.src + BitVec.ofNat 32 l.foff) 4 = _ := memRead_mapped fun i hi => by
        have := hm i (by omega)
        rwa [BitVec.ofNat_add, ← BitVec.add_assoc] at this
      unfold fetchWords
      rw [hr]
      dsimp only
      obtain ⟨h1, h2, h3⟩ := ih (l.pushWord (leValue ((accessAddrs (l.src + BitVec.ofNat 32 l.foff) 4).map fun a => Memory.read m a.toNat))) (j - 4) (by omega)
        (by simpa [Lane.pushWord, show l.foff + 4 + (j - 4) = l.foff + j by omega] using hu)
        (fun i hi => by simpa [Lane.pushWord, Nat.add_assoc, Nat.add_comm 4 i] using hm (i + 4) (by omega))
      refine ⟨by rw [h1]; simp [Lane.pushWord, show l.foff + 4 + (j - 4) = l.foff + j by omega], by rw [h2]; rfl, by rw [h3]; simp [Lane.pushWord]; omega⟩

/-- All that a burst can change. -/
theorem fetchBurst_shape (m : List Host.Cell) (l : Lane) (burst : Nat) :
    ∃ ring fwr j flevel, j ≤ (burst + 3) / 4 ∧
      (fetchBurst m l burst).lane = { l with fifo := ring, foff := l.foff + 4 * j, fwr := fwr, flevel := flevel } ∧
      (flevel = l.flevel + burst ∨ flevel = l.flevel) ∧
      ((fetchBurst m l burst).err = none → j = (burst + 3) / 4 ∧ flevel = l.flevel + burst) := by
  obtain ⟨ring, fwr, j, hj, he, hn⟩ := fetchWords_shape m ((burst + 3) / 4) l
  unfold fetchBurst LaneOut.andThen
  split
  · rename_i h
    refine ⟨ring, fwr, j, l.flevel + burst, hj, ?_, .inl rfl, fun _ => ⟨hn h, rfl⟩⟩
    simp [LaneOut.ok, he]
  · rename_i h
    exact ⟨ring, fwr, j, l.flevel, hj, by rw [he], .inr rfl, fun h' => by simp_all⟩

/-- All that FIFO_FILL can change (R192): at most 16 bytes are added, in whole words. -/
theorem fifoFill_shape (m : List Host.Cell) (l : Lane) :
    ∃ ring foff fwr flevel, (fifoFill m l).lane = { l with fifo := ring, foff := foff, fwr := fwr, flevel := flevel } ∧
      l.flevel ≤ flevel ∧ flevel ≤ l.flevel + 16 ∧ (4 ∣ l.foff → 4 ∣ l.loopPos → 4 ∣ foff) := by
  have burst : ∀ (l' : Lane) (b : Nat), b ≤ 16 →
      ∃ ring foff fwr flevel,
        (fetchBurst m l' b).lane = { l' with fifo := ring, foff := foff, fwr := fwr, flevel := flevel } ∧
        l'.flevel ≤ flevel ∧ flevel ≤ l'.flevel + 16 ∧ (4 ∣ l'.foff → 4 ∣ foff) := by
    intro l' b hb
    obtain ⟨ring, fwr, j, fl, -, he, hf, -⟩ := fetchBurst_shape m l' b
    exact ⟨ring, _, fwr, fl, he, by omega, by omega, fun h => by omega⟩
  have keep : ∀ b ≤ 16, ∃ ring foff fwr flevel,
      (fetchBurst m l b).lane = { l with fifo := ring, foff := foff, fwr := fwr, flevel := flevel } ∧
      l.flevel ≤ flevel ∧ flevel ≤ l.flevel + 16 ∧ (4 ∣ l.foff → 4 ∣ l.loopPos → 4 ∣ foff) := fun b hb => by
    obtain ⟨ring, foff, fwr, fl, he, h1, h2, h3⟩ := burst l b hb
    exact ⟨ring, foff, fwr, fl, he, h1, h2, fun h _ => h3 h⟩
  unfold fifoFill
  split
  · exact keep _ (by simp [Config.burstBytes])
  · split
    · split
      · obtain ⟨ring, foff, fwr, fl, he, h1, h2, h3⟩ := burst { l with foff := l.loopPos }
          (min Config.burstBytes (l.total - l.loopPos)) (by simp [Config.burstBytes])
        exact ⟨ring, foff, fwr, fl, by rw [he], h1, h2, fun _ h => h3 h⟩
      · exact ⟨l.fifo, l.foff, l.fwr, l.flevel, rfl, by omega, by omega, fun h _ => h⟩
    · exact keep _ (by simp [Config.burstBytes])

/-- All that FIFO_READ can change (R193): the level falls by `k`, and a refill leaves it at 32 or below. -/
theorem fifoConsume_shape (m : List Host.Cell) (l : Lane) (k : Nat) :
    ∃ ring foff frd fwr flevel, (fifoConsume m l k).lane =
        { l with fifo := ring, foff := foff, frd := frd, fwr := fwr, flevel := flevel } ∧
      (l.flevel ≤ 32 → flevel ≤ 32) ∧ (4 ∣ l.foff → 4 ∣ l.loopPos → 4 ∣ foff) := by
  unfold fifoConsume
  dsimp only
  split
  · rename_i h
    obtain ⟨ring, foff, fwr, fl, he, -, h2, h3⟩ :=
      fifoFill_shape m { l with frd := ringIndex l.frd k, flevel := l.flevel - k }
    simp only [Config.refillLevel] at h
    exact ⟨ring, foff, _, fwr, fl, he, fun _ => by simp only at h2; omega, h3⟩
  · exact ⟨l.fifo, l.foff, _, l.fwr, _, rfl, fun h => by omega, fun h _ => h⟩

/-- FIFO_READ handed on to `use`: abandoned, or `use` of the lane after it. -/
theorem fifoRead_cases (m : List Host.Cell) (l : Lane) (k : Nat) (use : Nat → Lane → Lane) :
    ((fifoConsume m l k).err = none ∧
      fifoRead m l k use = .ok (use (ringValue l k) (fifoConsume m l k).lane)) ∨
    ((fifoConsume m l k).err.isSome ∧ fifoRead m l k use = fifoConsume m l k) := by
  unfold fifoRead
  rcases LaneOut.andThen_cases (fifoConsume m l k) (fun l' => .ok (use (ringValue l k) l')) with ⟨h, e⟩ | ⟨h, e⟩
  exacts [.inl ⟨h, e⟩, .inr ⟨h, e⟩]

/-! ### Predicates carried through a lane operation -/

/-- A predicate of the lane holds of what an operation answers, whether or not it was abandoned. -/
abbrev LaneOut.holds (r : LaneOut) (P : Lane → Prop) : Prop := P r.lane

theorem LaneOut.andThen_holds {r : LaneOut} {f : Lane → LaneOut} {P : Lane → Prop} (h : r.holds P)
    (hf : P r.lane → (f r.lane).holds P) : (r.andThen f).holds P := by
  rcases r.andThen_cases f with ⟨-, e⟩ | ⟨-, e⟩ <;> rw [e]
  exacts [hf h, h]

/-- A predicate that the FIFO's own components cannot break and that `use` keeps holds after FIFO_READ. -/
theorem fifoRead_holds {m : List Host.Cell} {l : Lane} {k : Nat} {use : Nat → Lane → Lane} {P : Lane → Prop}
    (hc : P (fifoConsume m l k).lane) (hu : ∀ v l', P l' → P (use v l')) : (fifoRead m l k use).holds P := by
  rcases fifoRead_cases m l k use with ⟨-, e⟩ | ⟨-, e⟩ <;> rw [LaneOut.holds, e]
  exacts [hu _ _ hc, hc]

/-- FIFO_READ leaves the registers, the timer and the control word alone. -/
theorem fifoConsume_keeps (m : List Host.Cell) (l : Lane) (k : Nat) :
    l.keeps (fifoConsume m l k).lane ∧ (fifoConsume m l k).lane.cnt = l.cnt := by
  obtain ⟨ring, foff, frd, fwr, fl, he, -, -⟩ := fifoConsume_shape m l k
  simp [he, Lane.keeps]

theorem fifoConsume_runState {m : List Host.Cell} {l : Lane} (k : Nat) (h : l.runStateInRange) :
    (fifoConsume m l k).lane.runStateInRange := by
  obtain ⟨ring, foff, frd, fwr, fl, he, h1, h2⟩ := fifoConsume_shape m l k
  obtain ⟨hc, ha, hb, hf, hp, hl, hv, hn⟩ := h
  rw [he]
  exact ⟨hc, ha, hb, h2 hf hp, hp, hl, h1 hv, hn⟩

/-! ### Generator steps -/

theorem signed16_sext16 (h : Nat) : signed16 (sext16 h) := by
  have := BitVec.le_toInt (BitVec.ofNat 16 h)
  have := BitVec.toInt_lt (x := BitVec.ofNat 16 h)
  simp only [sext16]
  norm_num at *
  omega

theorem signed16_sext8 (b : Nat) : signed16 (sext8 b * 256) := by
  have := BitVec.le_toInt (BitVec.ofNat 8 b)
  have := BitVec.toInt_lt (x := BitVec.ofNat 8 b)
  simp only [sext8]
  norm_num at *
  omega

theorem signed16_zero : signed16 0 := by decide

theorem clearKeyon_keyon (cnt : Word) : keyon (clearKeyon cnt) = false := by
  simp [keyon, clearKeyon]

theorem Lane.stopped_runState {l : Lane} (h : l.runStateInRange) : l.stopped.runStateInRange := by
  obtain ⟨-, h⟩ := h
  exact ⟨signed16_zero, h⟩

theorem adpcmHeader_runState {l : Lane} (v : Nat) (h : l.runStateInRange) : (adpcmHeader v l).runStateInRange := by
  obtain ⟨hc, -, -, h⟩ := h
  exact ⟨hc, signed16_sext16 _, signed16_sext16 _, h⟩

/-- A nibble keeps the predictor, the snapshot and the sample in range (R197). -/
theorem adpcmDecode_runState {l : Lane} (h : l.runStateInRange) : (adpcmDecode l).runStateInRange := by
  obtain ⟨-, ha, hb, h⟩ := h
  have key : ∀ d : BitVec 4, signed16
      (if d.getLsbD 3 then max (l.aval - (adpcmDiff (Config.adpcmStep l.aidx) d : Int)) (-Config.adpcmClamp)
        else min (l.aval + (adpcmDiff (Config.adpcmStep l.aidx) d : Int)) Config.adpcmClamp) := by
    intro d
    simp only [Config.adpcmClamp, signed16] at *
    split <;> omega
  unfold adpcmDecode
  dsimp only
  split
  · exact ⟨key _, key _, key _, h⟩
  · exact ⟨key _, key _, hb, h⟩

theorem adpcmDecode_keeps (l : Lane) : l.keeps (adpcmDecode l) ∧ (adpcmDecode l).cnt = l.cnt := by
  unfold adpcmDecode
  dsimp only
  split <;> simp [Lane.keeps]

theorem signed16_psgWave (d : BitVec 3) (c : Nat) : signed16 (Config.psgWave d c) := by
  have key : ∀ d : BitVec 3, ∀ c < 8, signed16 (Config.psgWave d c) := by decide
  by_cases h : c < 8
  · exact key d c h
  · have rows : ∀ d : BitVec 3, (Config.psgWaveTable.getD d.toNat []).length = 8 := by decide
    have : Config.psgWave d c = 0 := by
      unfold Config.psgWave
      rw [List.getD_eq_getElem?_getD, List.getElem?_eq_none (by rw [rows]; omega), Option.getD_none]
    rw [this]; decide

theorem stepPsg_runState {l : Lane} (d : BitVec 3) (h : l.runStateInRange) : (stepPsg d l).runStateInRange := by
  obtain ⟨-, h⟩ := h
  exact ⟨signed16_psgWave _ _, h⟩

/-- The noise register stays below 2^15 (R199 b). -/
theorem stepNoise_runState {l : Lane} (h : l.runStateInRange) : (stepNoise l).runStateInRange := by
  obtain ⟨-, ha, hb, hf, hp, hl, hv, hn⟩ := h
  unfold stepNoise
  have h1 : (l.noise >>> 1).toNat < 2 ^ 14 := by
    simp only [BitVec.toNat_ushiftRight, Nat.shiftRight_eq_div_pow]; omega
  split
  · refine ⟨show signed16 Config.noiseLow by decide, ha, hb, hf, hp, hl, hv, ?_⟩
    simp only [BitVec.toNat_xor]
    exact Nat.xor_lt_two_pow (by omega) (by decide)
  · exact ⟨show signed16 Config.noiseHigh by decide, ha, hb, hf, hp, hl, hv, show (l.noise >>> 1).toNat < _ by omega⟩

/-- A predicate that holds of every lane a generator step can leave holds after it: the moves of the position, a read,
the sample, the end of a one-shot, the header, a nibble, the loop snapshot. -/
theorem genStep_holds (m : List Host.Cell) (g : Gen) (P : Lane → Prop)
    (hpos : ∀ l p, P l → P { l with pos := p })
    (hread : ∀ l k, P l → P (fifoConsume m l k).lane)
    (h8 : ∀ l b, P l → P { l with cur := sext8 b * 256 })
    (h16 : ∀ l h, P l → P { l with cur := sext16 h })
    (hstop : ∀ l, P l → P l.stopped)
    (hhead : ∀ l h, P l → P (adpcmHeader h l))
    (hbyte : ∀ l b, P l → P { l with abyte := b })
    (hnib : ∀ l, P l → P (adpcmDecode l))
    (hsnap : ∀ l, P l → P { l with aval := l.avalLoop, aidx := l.aidxLoop })
    (hcur : ∀ l, P l → P { l with cur := l.aval })
    (hpsg : ∀ l d, P l → P (stepPsg d l))
    (hnoise : ∀ l, P l → P (stepNoise l))
    (l : Lane) (h : P l) : (genStep m g l).holds P := by
  have nibble : ∀ l, P l → (adpcmNibble m l).holds P := fun l h => by
    unfold adpcmNibble
    split
    · exact fifoRead_holds (hread _ _ h) fun v l' h' => hnib _ (hbyte _ _ h')
    · exact hnib _ (hbyte _ _ h)
  cases g with
  | pcm8 =>
    have play : ∀ l, P l → (fifoRead m l 1 fun b l => { l with cur := sext8 b * 256 }).holds P := fun l h =>
      fifoRead_holds (hread _ _ h) fun v l' h' => h8 _ _ h'
    simp only [genStep, stepPcm8]
    split
    · exact hpos _ _ h
    · split
      · split
        · exact play _ (hpos _ _ (hpos _ _ h))
        · exact hstop _ (hpos _ _ h)
        · exact play _ (hpos _ _ h)
      · exact play _ (hpos _ _ h)
  | pcm16 =>
    have play : ∀ l, P l → (fifoRead m l 2 fun b l => { l with cur := sext16 b }).holds P := fun l h =>
      fifoRead_holds (hread _ _ h) fun v l' h' => h16 _ _ h'
    simp only [genStep, stepPcm16]
    split
    · exact hpos _ _ h
    · split
      · split
        · exact play _ (hpos _ _ (hpos _ _ h))
        · exact hstop _ (hpos _ _ h)
        · exact play _ (hpos _ _ h)
      · exact play _ (hpos _ _ h)
  | adpcm =>
    simp only [genStep, stepAdpcm]
    split
    · split
      · exact fifoRead_holds (hread _ _ (hpos _ _ h)) fun v l' h' => hhead _ _ h'
      · exact hpos _ _ h
    · split
      · split
        · exact fifoRead_holds (hread _ _ (hsnap _ (hpos _ (((l.loopPos * 2 : Nat) : Int)) (hpos _ _ h))))
            fun v l' h' => hcur { l' with abyte := BitVec.ofNat 8 v } (hbyte _ _ h')
        · exact hstop _ (hpos _ _ h)
        · exact nibble _ (hpos _ _ h)
      · exact nibble _ (hpos _ _ h)
  | psg => exact hpsg _ _ h
  | noise => exact hnoise _ h
  | none => exact h

/-- A generator step leaves the registers and the timer alone and can only clear key-on (R195 to R199). -/
theorem genStep_keeps (m : List Host.Cell) (g : Gen) (l : Lane) : l.keeps (genStep m g l).lane := by
  have refl : l.keeps l := by simp [Lane.keeps]
  refine genStep_holds m g l.keeps ?_ ?_ ?_ ?_ ?_ ?_ ?_ ?_ ?_ ?_ ?_ ?_ l refl
  · intro l' _ h; exact h
  · intro l' k h
    obtain ⟨⟨h1, h2, h3, h4, h5, -⟩, h6⟩ := fifoConsume_keeps m l' k
    simp only [Lane.keeps, h1, h2, h3, h4, h5, h6]
    exact h
  · intro l' _ h; exact h
  · intro l' _ h; exact h
  · rintro l' ⟨h1, h2, h3, h4, h5, h6⟩
    refine ⟨h1, h2, h3, h4, h5, .inr ?_⟩
    rcases h6 with h6 | h6 <;> simp [Lane.stopped, h6, clearKeyon, BitVec.and_assoc]
  · intro l' _ h; exact h
  · intro l' _ h; exact h
  · intro l' h
    obtain ⟨⟨h1, h2, h3, h4, h5, -⟩, h6⟩ := adpcmDecode_keeps l'
    simp only [Lane.keeps, h1, h2, h3, h4, h5, h6]
    exact h
  · intro l' h; exact h
  · intro l' h; exact h
  · intro l' _ h; exact h
  · intro l' h
    unfold stepNoise
    split <;> exact h

/-- A generator step keeps the run state in range. -/
theorem genStep_runState (m : List Host.Cell) (g : Gen) {l : Lane} (h : l.runStateInRange) :
    (genStep m g l).lane.runStateInRange := by
  refine genStep_holds m g Lane.runStateInRange ?_ ?_ ?_ ?_ ?_ ?_ ?_ ?_ ?_ ?_ ?_ ?_ l h
  · intro l' _ h; exact h
  · intro l' k h; exact fifoConsume_runState k h
  · rintro l' b ⟨-, h⟩; exact ⟨signed16_sext8 b, h⟩
  · rintro l' b ⟨-, h⟩; exact ⟨signed16_sext16 b, h⟩
  · intro l' h; exact Lane.stopped_runState h
  · intro l' v h; exact adpcmHeader_runState v h
  · intro l' _ h; exact h
  · intro l' h; exact adpcmDecode_runState h
  · rintro l' ⟨hc, -, hb, h⟩; exact ⟨hc, hb, hb, h⟩
  · rintro l' ⟨-, ha, h⟩; exact ⟨ha, ha, h⟩
  · intro l' d h; exact stepPsg_runState d h
  · intro l' h; exact stepNoise_runState h

/-! ### The lane timer (R191) -/

/-- The loop of R191 keeps whatever reloading the timer and a generator step keep. -/
theorem laneLoop_holds (m : List Host.Cell) (g : Gen) {P : Lane → Prop}
    (ht : ∀ l t, P l → P { l with timer := t }) (hg : ∀ l, P l → P (genStep m g l).lane)
    (fuel : Nat) (l : Lane) (h : P l) : (laneLoop m g fuel l).holds P := by
  induction fuel generalizing l with
  | zero => exact h
  | succ fuel ih =>
    unfold laneLoop
    split
    · refine LaneOut.andThen_holds (hg _ (ht _ _ h)) fun h' => ?_
      split
      exacts [ih _ h', h']
    · exact h

theorem laneAdvance_holds (m : List Host.Cell) (g : Gen) {P : Lane → Prop}
    (ht : ∀ l t, P l → P { l with timer := t }) (hg : ∀ l, P l → P (genStep m g l).lane)
    (l : Lane) (h : P l) : (laneAdvance m g l).holds P :=
  laneLoop_holds m g ht hg _ _ (ht _ _ h)

/-- The lane after LANE_RUN: registers unchanged, key-on perhaps cleared. -/
theorem laneAdvance_keeps (m : List Host.Cell) (g : Gen) (l : Lane) :
    (laneAdvance m g l).lane.src = l.src ∧ (laneAdvance m g l).lane.tmr = l.tmr ∧
      (laneAdvance m g l).lane.loopPos = l.loopPos ∧ (laneAdvance m g l).lane.length = l.length ∧
      ((laneAdvance m g l).lane.cnt = l.cnt ∨ (laneAdvance m g l).lane.cnt = clearKeyon l.cnt) := by
  refine laneAdvance_holds m g (P := fun l' => l'.src = l.src ∧ l'.tmr = l.tmr ∧ l'.loopPos = l.loopPos ∧
    l'.length = l.length ∧ (l'.cnt = l.cnt ∨ l'.cnt = clearKeyon l.cnt)) (fun _ _ h => h) ?_ l (by simp)
  rintro l' ⟨h1, h2, h3, h4, h5⟩
  obtain ⟨k1, k2, k3, k4, -, k6⟩ := genStep_keeps m g l'
  refine ⟨k1.trans h1, k2.trans h2, k3.trans h3, k4.trans h4, ?_⟩
  rcases k6 with k6 | k6 <;> rcases h5 with h5 | h5 <;> simp [k6, h5, clearKeyon, BitVec.and_assoc]

theorem laneAdvance_runState (m : List Host.Cell) (g : Gen) {l : Lane} (h : l.runStateInRange) :
    (laneAdvance m g l).lane.runStateInRange :=
  laneAdvance_holds m g (fun _ _ h => h) (fun _ h => genStep_runState m g h) l h

/-- One turn of the loop of R191. -/
theorem laneLoop_turn (m : List Host.Cell) (g : Gen) (fuel : Nat) (l : Lane) (h : Config.timerWrap ≤ l.timer) :
    laneLoop m g (fuel + 1) l = (genStep m g { l with timer := l.tmr.toNat + (l.timer - Config.timerWrap) }).andThen
      fun l' => if keyon l'.cnt then laneLoop m g fuel l' else .ok l' :=
  if_pos h

theorem laneLoop_below (m : List Host.Cell) (g : Gen) (fuel : Nat) (l : Lane) (h : l.timer < Config.timerWrap) :
    laneLoop m g fuel l = .ok l := by
  cases fuel with
  | zero => rfl
  | succ fuel => exact if_neg (Nat.not_le.2 h)

/-- The timer after the loop of R191: below the wrap, unless a step cleared key-on or was abandoned. -/
theorem laneLoop_timer (m : List Host.Cell) (g : Gen) (fuel : Nat) (l : Lane)
    (hf : l.timer + 1 ≤ Config.timerWrap + fuel) (ht : l.timer < Config.timerWrap + Config.tickCycles) :
    (laneLoop m g fuel l).lane.timer < Config.timerWrap + Config.tickCycles ∧
      ((laneLoop m g fuel l).err = none → keyon (laneLoop m g fuel l).lane.cnt = true →
        (laneLoop m g fuel l).lane.timer < Config.timerWrap) := by
  induction fuel generalizing l with
  | zero =>
    simp only [laneLoop, LaneOut.ok]
    exact ⟨ht, fun _ _ => by omega⟩
  | succ fuel ih =>
    unfold laneLoop
    split
    · rename_i hw
      have hk := genStep_keeps m g { l with timer := l.tmr.toNat + (l.timer - Config.timerWrap) }
      have htm := l.tmr.isLt
      generalize genStep m g _ = r at hk
      obtain ⟨-, -, -, -, hk5, -⟩ := hk
      simp only at hk5
      simp only [Config.timerWrap, Config.tickCycles] at *
      rcases r.andThen_cases (fun l' => if keyon l'.cnt then laneLoop m g fuel l' else .ok l') with ⟨h, e⟩ | ⟨h, e⟩ <;>
        rw [e]
      · split
        · exact ih _ (by rw [hk5]; omega) (by rw [hk5]; omega)
        · rename_i hn
          simp only [LaneOut.ok]
          exact ⟨by rw [hk5]; omega, fun _ h => absurd h hn⟩
      · exact ⟨by rw [hk5]; omega, fun h' => by simp [h'] at h⟩
    · simp only [LaneOut.ok]
      exact ⟨ht, fun _ _ => by omega⟩

theorem laneAdvance_timer (m : List Host.Cell) (g : Gen) (l : Lane) (ht : l.timer < Config.timerWrap) :
    (laneAdvance m g l).lane.timer < Config.timerWrap + Config.tickCycles ∧
      ((laneAdvance m g l).err = none → keyon (laneAdvance m g l).lane.cnt = true →
        (laneAdvance m g l).lane.timer < Config.timerWrap) := by
  have h1 : l.timer + Config.tickCycles + 1 ≤
      Config.timerWrap + (l.timer + Config.tickCycles) := by simp only [Config.timerWrap, Config.tickCycles] at *; omega
  have h2 : l.timer + Config.tickCycles < Config.timerWrap + Config.tickCycles := by omega
  have h := laneLoop_timer m g (l.timer + Config.tickCycles)
    { l with timer := l.timer + Config.tickCycles } h1 h2
  simpa only [laneAdvance] using h

/-! ### The start sequence (R155) -/

/-- Pre-buffering keeps whatever the components of the FIFO cannot break. -/
theorem prebuffer_holds (m : List Host.Cell) {P : Lane → Prop}
    (hf : ∀ l, P l → P (fifoFill m l).lane) (k : Nat) (l : Lane) (h : P l) : (prebuffer m k l).holds P := by
  induction k generalizing l with
  | zero => exact h
  | succ k ih => exact LaneOut.andThen_holds (hf l h) fun h' => ih _ h'

/-- The level after pre-buffering: at most 16 bytes a burst. -/
theorem prebuffer_flevel (m : List Host.Cell) (k : Nat) (l : Lane) :
    (prebuffer m k l).lane.flevel ≤ l.flevel + 16 * k := by
  induction k generalizing l with
  | zero => simp [prebuffer, LaneOut.ok]
  | succ k ih =>
    obtain ⟨ring, foff, fwr, fl, he, -, h2, -⟩ := fifoFill_shape m l
    unfold prebuffer
    rcases (fifoFill m l).andThen_cases (prebuffer m k) with ⟨-, e⟩ | ⟨-, e⟩ <;> rw [e]
    · have := ih (fifoFill m l).lane
      rw [he] at this ⊢
      simp only at this
      push_cast
      omega
    · rw [he]; push_cast; show fl ≤ _; omega

/-- START(n) leaves the registers alone and loads the timer (R155). -/
theorem laneStart_keeps (m : List Host.Cell) (l : Lane) :
    (laneStart m l).lane.cnt = l.cnt ∧ (laneStart m l).lane.src = l.src ∧ (laneStart m l).lane.tmr = l.tmr ∧
      (laneStart m l).lane.loopPos = l.loopPos ∧ (laneStart m l).lane.length = l.length ∧
      (laneStart m l).lane.timer = l.tmr.toNat := by
  unfold laneStart
  dsimp only
  split
  · simp [LaneOut.ok]
  · refine prebuffer_holds m (P := fun l' => l'.cnt = l.cnt ∧ l'.src = l.src ∧ l'.tmr = l.tmr ∧
      l'.loopPos = l.loopPos ∧ l'.length = l.length ∧ l'.timer = l.tmr.toNat) ?_ _ _ (by simp)
    intro l' h
    obtain ⟨ring, foff, fwr, fl, he, -, -, -⟩ := fifoFill_shape m l'
    rw [he]
    exact h

/-- Pre-buffering keeps the run state in range when the level starts at 0. -/
theorem prebuffer_runState (m : List Host.Cell) {l : Lane} (h : l.runStateInRange) (h0 : l.flevel = 0) :
    (prebuffer m Config.prebufferBursts l).lane.runStateInRange := by
  have h1 := prebuffer_flevel m Config.prebufferBursts l
  obtain ⟨hc, ha, hb, hf, hp, hl, -, hn⟩ := h
  obtain ⟨k1, k2, k3, k4, k5, k6, k7⟩ := prebuffer_holds m (P := fun l' => signed16 l'.cur ∧ signed16 l'.aval ∧
      signed16 l'.avalLoop ∧ 4 ∣ l'.foff ∧ 4 ∣ l'.loopPos ∧ 4 ∣ l'.length ∧ l'.noise.toNat < 2 ^ 15)
    (fun l' h => by
      obtain ⟨ring, foff, fwr, fl, he, -, -, h3⟩ := fifoFill_shape m l'
      obtain ⟨k1, k2, k3, k4, k5, k6, k7⟩ := h
      rw [he]
      exact ⟨k1, k2, k3, h3 k4 k5, k5, k6, k7⟩) Config.prebufferBursts l ⟨hc, ha, hb, hf, hp, hl, hn⟩
  simp only [h0, Config.prebufferBursts] at h1
  exact ⟨k1, k2, k3, k4, k5, k6, by simpa [Config.prebufferBursts] using h1, k7⟩

theorem laneStart_runState (m : List Host.Cell) {l : Lane} (ha : signed16 l.aval) (hb : signed16 l.avalLoop)
    (hp : 4 ∣ l.loopPos) (hl : 4 ∣ l.length) : (laneStart m l).lane.runStateInRange := by
  have hn : Config.noiseInit.toNat < 2 ^ 15 := by decide
  unfold laneStart
  dsimp only
  split
  · exact ⟨signed16_zero, ha, hb, Nat.dvd_zero 4, hp, hl, by simp [LaneOut.ok], hn⟩
  · exact prebuffer_runState m ⟨signed16_zero, ha, hb, Nat.dvd_zero 4, hp, hl, by simp, hn⟩ rfl

/-! ### What one step does, branch by branch -/

/-- The three ends of a sample, by the repeat field (R27). -/
theorem endAction_cases (c : Word) :
    (cntRepeat c = 2 ∧ (cntRepeat c).getLsbD 0 = false ∧ endAction c = .stop) ∨
    (cntRepeat c ≠ 2 ∧ cntRepeat c ≠ 0 ∧ (cntRepeat c).getLsbD 0 = true ∧ endAction c = .loop) ∨
    (cntRepeat c = 0 ∧ (cntRepeat c).getLsbD 0 = false ∧ endAction c = .none) := by
  unfold endAction
  generalize cntRepeat c = r
  revert r; decide

theorem total_cast (l : Lane) : ((l.total : Nat) : Int) = (l.loopPos : Int) + l.length := by
  unfold Lane.total; exact Int.natCast_add _ _

/-- All that a PCM8 step can do (R195). -/
theorem stepPcm8_cases (m : List Host.Cell) (l : Lane) :
    (l.pos + 1 < 0 → stepPcm8 m l = .ok { l with pos := l.pos + 1 }) ∧
    (0 ≤ l.pos + 1 → (l.loopPos : Int) + l.length ≤ l.pos + 1 → cntRepeat l.cnt = 2 →
      stepPcm8 m l = .ok { l with pos := l.pos + 1, cur := 0, cnt := clearKeyon l.cnt }) ∧
    (0 ≤ l.pos + 1 → ¬((l.loopPos : Int) + l.length ≤ l.pos + 1 ∧ cntRepeat l.cnt = 2) →
      stepPcm8 m l = fifoRead m
        { l with pos := if (l.loopPos : Int) + l.length ≤ l.pos + 1 ∧ (cntRepeat l.cnt).getLsbD 0 = true then
            (l.loopPos : Int) else l.pos + 1 } 1 fun b l => { l with cur := sext8 b * 256 }) := by
  have ht : ∀ p, ((Lane.total { l with pos := p } : Nat) : Int) = (l.loopPos : Int) + l.length := fun p => total_cast _
  refine ⟨fun hp => if_pos hp, fun hp h1 h2 => ?_, fun hp h1 => ?_⟩
  · refine (if_neg (by simp only; omega)).trans ((if_pos (by rw [ge_iff_le, ht]; exact h1)).trans ?_)
    rcases endAction_cases l.cnt with ⟨_, _, e⟩ | ⟨h, _⟩ | ⟨h, _⟩
    · simp only [e]; rfl
    · exact absurd h2 h
    · rw [h2] at h; exact absurd h (by decide)
  · refine (if_neg (by simp only; omega)).trans ?_
    by_cases h2 : (l.loopPos : Int) + l.length ≤ l.pos + 1
    · refine (if_pos (by rw [ge_iff_le, ht]; exact h2)).trans ?_
      rcases endAction_cases l.cnt with ⟨h, _⟩ | ⟨_, _, hb, e⟩ | ⟨_, hb, e⟩
      · exact absurd ⟨h2, h⟩ h1
      · simp only [e, h2, hb, and_self, if_true]
      · simp only [e, hb, and_false, Bool.false_eq_true, if_false]
    · refine (if_neg (by rw [ge_iff_le, ht]; exact h2)).trans ?_
      simp only [h2, false_and, if_false]

/-- All that a PCM16 step can do (R196). -/
theorem stepPcm16_cases (m : List Host.Cell) (l : Lane) :
    (l.pos + 1 < 0 → stepPcm16 m l = .ok { l with pos := l.pos + 1 }) ∧
    (0 ≤ l.pos + 1 → (l.loopPos : Int) + l.length ≤ (l.pos + 1) * 2 → cntRepeat l.cnt = 2 →
      stepPcm16 m l = .ok { l with pos := l.pos + 1, cur := 0, cnt := clearKeyon l.cnt }) ∧
    (0 ≤ l.pos + 1 → ¬((l.loopPos : Int) + l.length ≤ (l.pos + 1) * 2 ∧ cntRepeat l.cnt = 2) →
      stepPcm16 m l = fifoRead m
        { l with pos := if (l.loopPos : Int) + l.length ≤ (l.pos + 1) * 2 ∧ (cntRepeat l.cnt).getLsbD 0 = true then
            (l.loopPos : Int) / 2 else l.pos + 1 } 2 fun h l => { l with cur := sext16 h }) := by
  have ht : ∀ p, ((Lane.total { l with pos := p } : Nat) : Int) = (l.loopPos : Int) + l.length := fun p => total_cast _
  refine ⟨fun hp => if_pos hp, fun hp h1 h2 => ?_, fun hp h1 => ?_⟩
  · refine (if_neg (by simp only; omega)).trans ((if_pos (by rw [ge_iff_le, ht]; exact h1)).trans ?_)
    rcases endAction_cases l.cnt with ⟨_, _, e⟩ | ⟨h, _⟩ | ⟨h, _⟩
    · simp only [e]; rfl
    · exact absurd h2 h
    · rw [h2] at h; exact absurd h (by decide)
  · refine (if_neg (by simp only; omega)).trans ?_
    by_cases h2 : (l.loopPos : Int) + l.length ≤ (l.pos + 1) * 2
    · refine (if_pos (by rw [ge_iff_le, ht]; exact h2)).trans ?_
      rcases endAction_cases l.cnt with ⟨h, _⟩ | ⟨_, _, hb, e⟩ | ⟨_, hb, e⟩
      · exact absurd ⟨h2, h⟩ h1
      · simp only [e, h2, hb, and_self, if_true]; rfl
      · simp only [e, hb, and_false, Bool.false_eq_true, if_false]
    · refine (if_neg (by rw [ge_iff_le, ht]; exact h2)).trans ?_
      simp only [h2, false_and, if_false]

/-- All that an ADPCM step can do (R197). -/
theorem stepAdpcm_cases (m : List Host.Cell) (l : Lane) :
    (l.pos + 1 < 8 → l.pos + 1 ≠ 0 → stepAdpcm m l = .ok { l with pos := l.pos + 1 }) ∧
    (l.pos + 1 = 0 → stepAdpcm m l = fifoRead m { l with pos := 0 } 4 adpcmHeader) ∧
    (8 ≤ l.pos + 1 → (l.loopPos : Int) + l.length ≤ (l.pos + 1) / 2 → cntRepeat l.cnt = 2 →
      stepAdpcm m l = .ok { l with pos := l.pos + 1, cur := 0, cnt := clearKeyon l.cnt }) ∧
    (8 ≤ l.pos + 1 → (l.loopPos : Int) + l.length ≤ (l.pos + 1) / 2 → cntRepeat l.cnt ≠ 0 → cntRepeat l.cnt ≠ 2 →
      stepAdpcm m l = adpcmLoop m { l with pos := l.pos + 1 }) ∧
    (8 ≤ l.pos + 1 → ¬((l.loopPos : Int) + l.length ≤ (l.pos + 1) / 2 ∧ cntRepeat l.cnt ≠ 0) →
      stepAdpcm m l = adpcmNibble m { l with pos := l.pos + 1 }) := by
  have ht : ∀ p, ((Lane.total { l with pos := p } : Nat) : Int) = (l.loopPos : Int) + l.length := fun p => total_cast _
  refine ⟨fun h0 h1 => (if_pos h0).trans (if_neg h1), fun h0 => ?_, fun hp h1 h2 => ?_, fun hp h1 h2 h3 => ?_, fun hp h1 => ?_⟩
  · unfold stepAdpcm; simp [h0]
  · refine (if_neg (by simp only; omega)).trans ((if_pos (by rw [ge_iff_le, ht]; exact h1)).trans ?_)
    rcases endAction_cases l.cnt with ⟨_, _, e⟩ | ⟨h, _⟩ | ⟨h, _⟩
    · simp only [e]; rfl
    · exact absurd h2 h
    · rw [h2] at h; exact absurd h (by decide)
  · refine (if_neg (by simp only; omega)).trans ((if_pos (by rw [ge_iff_le, ht]; exact h1)).trans ?_)
    rcases endAction_cases l.cnt with ⟨h, _⟩ | ⟨_, _, _, e⟩ | ⟨h, _⟩
    · exact absurd h h3
    · simp only [e]
    · exact absurd h h2
  · refine (if_neg (by simp only; omega)).trans ?_
    by_cases h2 : (l.loopPos : Int) + l.length ≤ (l.pos + 1) / 2
    · refine (if_pos (by rw [ge_iff_le, ht]; exact h2)).trans ?_
      rcases endAction_cases l.cnt with ⟨h, _⟩ | ⟨_, h, _, _⟩ | ⟨_, _, e⟩
      · exact absurd ⟨h2, by rw [h]; decide⟩ h1
      · exact absurd ⟨h2, h⟩ h1
      · simp only [e]
    · exact if_neg (by rw [ge_iff_le, ht]; exact h2)

theorem State.commitLane_fifoRead {s : State} (hl : s.fatal = none) (n : LaneIx) (m : List Host.Cell) (l : Lane) (k : Nat)
    (use : Nat → Lane → Lane) :
    ((fifoConsume m l k).err = none →
      s.commitLane n (fifoRead m l k use) = s.setLane n (use (ringValue l k) (fifoConsume m l k).lane)) ∧
    (∀ a, (fifoConsume m l k).err = some a → s.commitLane n (fifoRead m l k use) =
      { s.setLane n (fifoConsume m l k).lane with fatal := some (.busError a) }) := by
  constructor
  · intro h
    rcases fifoRead_cases m l k use with ⟨_, e⟩ | ⟨h', e⟩
    · rw [e]; exact State.commitLane_ok _ _ rfl
    · simp [h] at h'
  · intro a h
    rcases fifoRead_cases m l k use with ⟨h', e⟩ | ⟨h', e⟩
    · simp [h] at h'
    · rw [e]; exact State.commitLane_error hl _ h

theorem ringIndex_zero (i : Fin Config.fifoBytes) : ringIndex i 0 = i := Fin.ext (Nat.mod_eq_of_lt i.isLt)

theorem leValue_two (a b : Byte) : sext16 (leValue [a, b]) = (b ++ a).toInt := by
  unfold sext16; congr 1
  apply BitVec.eq_of_toNat_eq
  have h1 := a.isLt
  have h2 := b.isLt
  rw [BitVec.toNat_append, ← Nat.shiftLeft_add_eq_or_of_lt h1, Nat.shiftLeft_eq]
  simp [leValue]; omega

theorem sext8_ringValue (l : Lane) : sext8 (ringValue l 1) = l.fifo[l.frd].toInt := by
  simp only [ringValue, List.range_one, List.map_cons, List.map_nil, leValue, sext8, ringIndex_zero]
  simp

theorem sext16_ringValue (l : Lane) : sext16 (ringValue l 2) =
    (l.fifo[(l.frd.val + 1) % 32]'(Nat.mod_lt _ (by decide)) ++ l.fifo[l.frd]).toInt := by
  simp only [ringValue, show List.range 2 = [0, 1] from rfl, List.map_cons, List.map_nil, ringIndex_zero]
  exact leValue_two _ _

/-- The header bytes of an ADPCM sample (R197). -/
theorem adpcmHeader_bytes (a b c d : Byte) (l : Lane) :
    ∃ i : Fin (Config.adpcmIndexMax + 1), i.val = min (c.toNat % 128) 88 ∧ adpcmHeader (leValue [a, b, c, d]) l =
      { l with aval := (b ++ a).toInt, aidx := i, avalLoop := (b ++ a).toInt, aidxLoop := i } := by
  have ha := a.isLt
  have hb := b.isLt
  have hc := c.isLt
  have h1 : leValue [a, b, c, d] % 2 ^ 16 = leValue [a, b] := by
    simp only [leValue]; omega
  have h2 : leValue [a, b, c, d] / 2 ^ 16 % 2 ^ 7 = c.toNat % 128 := by
    simp only [leValue]; omega
  refine ⟨⟨min (c.toNat % 128) 88, by simp only [Config.adpcmIndexMax]; omega⟩, rfl, ?_⟩
  simp only [adpcmHeader, h1, h2, leValue_two, Config.adpcmIndexMax]

end Sys2Proof.Machine
end

