-- ==== Sys2Proof/Laws/Registers.lean ====
section
/-!
SUPPORT. What the register writes and the engine's use of them leave alone, one lemma for each component, and what
they do to the lane they write.
-/

namespace Sys2Proof.Machine

@[simp] theorem State.writeCnt_tick (s : State) (n : LaneIx) (v : Word) :
    (s.writeCnt n v).tick = s.tick := by
  unfold State.writeCnt; dsimp only; split <;> simp
@[simp] theorem State.writeCnt_soundcnt (s : State) (n : LaneIx) (v : Word) :
    (s.writeCnt n v).soundcnt = s.soundcnt := by
  unfold State.writeCnt; dsimp only; split <;> simp
@[simp] theorem State.writeCnt_bias (s : State) (n : LaneIx) (v : Word) :
    (s.writeCnt n v).bias = s.bias := by
  unfold State.writeCnt; dsimp only; split <;> simp
@[simp] theorem State.writeCnt_events (s : State) (n : LaneIx) (v : Word) :
    (s.writeCnt n v).events = s.events := by
  unfold State.writeCnt; dsimp only; split <;> simp
@[simp] theorem State.writeCnt_out (s : State) (n : LaneIx) (v : Word) :
    (s.writeCnt n v).out = s.out := by
  unfold State.writeCnt; dsimp only; split <;> simp
@[simp] theorem State.writeCnt_caps (s : State) (n : LaneIx) (v : Word) :
    (s.writeCnt n v).caps = s.caps := by
  unfold State.writeCnt; dsimp only; split <;> simp
@[simp] theorem State.writeCnt_voices (s : State) (n : LaneIx) (v : Word) :
    (s.writeCnt n v).voices = s.voices := by
  unfold State.writeCnt; dsimp only; split <;> simp
@[simp] theorem State.writeCnt_mem (s : State) (n : LaneIx) (v : Word) :
    (s.writeCnt n v).mem = s.mem := by
  unfold State.writeCnt; dsimp only; split <;> simp
@[simp] theorem State.writeCnt_mix (s : State) (n : LaneIx) (v : Word) :
    (s.writeCnt n v).mix = s.mix := by
  unfold State.writeCnt; dsimp only; split <;> simp
@[simp] theorem State.writeCnt_port (s : State) (n : LaneIx) (v : Word) :
    (s.writeCnt n v).port = s.port := by
  unfold State.writeCnt; dsimp only; split <;> simp
@[simp] theorem State.writeCnt_emitted (s : State) (n : LaneIx) (v : Word) :
    (s.writeCnt n v).emitted = s.emitted := by
  unfold State.writeCnt; dsimp only; split <;> simp

@[simp] theorem State.voice_writeCnt (s : State) (n : LaneIx) (v : Word) (k : LaneIx) :
    (s.writeCnt n v).voice k = s.voice k := by
  simp [State.voice]

@[simp] theorem State.writeSad_tick (s : State) (n : LaneIx) (v : Word) :
    (s.writeSad n v).tick = s.tick := rfl
@[simp] theorem State.writeSad_soundcnt (s : State) (n : LaneIx) (v : Word) :
    (s.writeSad n v).soundcnt = s.soundcnt := rfl
@[simp] theorem State.writeSad_bias (s : State) (n : LaneIx) (v : Word) :
    (s.writeSad n v).bias = s.bias := rfl
@[simp] theorem State.writeSad_events (s : State) (n : LaneIx) (v : Word) :
    (s.writeSad n v).events = s.events := rfl
@[simp] theorem State.writeSad_out (s : State) (n : LaneIx) (v : Word) :
    (s.writeSad n v).out = s.out := rfl
@[simp] theorem State.writeSad_caps (s : State) (n : LaneIx) (v : Word) :
    (s.writeSad n v).caps = s.caps := rfl
@[simp] theorem State.writeSad_voices (s : State) (n : LaneIx) (v : Word) :
    (s.writeSad n v).voices = s.voices := rfl
@[simp] theorem State.writeSad_mem (s : State) (n : LaneIx) (v : Word) :
    (s.writeSad n v).mem = s.mem := rfl
@[simp] theorem State.writeSad_mix (s : State) (n : LaneIx) (v : Word) :
    (s.writeSad n v).mix = s.mix := rfl
@[simp] theorem State.writeSad_port (s : State) (n : LaneIx) (v : Word) :
    (s.writeSad n v).port = s.port := rfl
@[simp] theorem State.writeSad_emitted (s : State) (n : LaneIx) (v : Word) :
    (s.writeSad n v).emitted = s.emitted := rfl
@[simp] theorem State.writeSad_fatal (s : State) (n : LaneIx) (v : Word) :
    (s.writeSad n v).fatal = s.fatal := rfl

@[simp] theorem State.voice_writeSad (s : State) (n : LaneIx) (v : Word) (k : LaneIx) :
    (s.writeSad n v).voice k = s.voice k := by
  simp [State.voice]

@[simp] theorem State.writeTmr_tick (s : State) (n : LaneIx) (v : Half) :
    (s.writeTmr n v).tick = s.tick := by
  unfold State.writeTmr; dsimp only; split; rfl; split <;> rfl
@[simp] theorem State.writeTmr_soundcnt (s : State) (n : LaneIx) (v : Half) :
    (s.writeTmr n v).soundcnt = s.soundcnt := by
  unfold State.writeTmr; dsimp only; split; rfl; split <;> rfl
@[simp] theorem State.writeTmr_bias (s : State) (n : LaneIx) (v : Half) :
    (s.writeTmr n v).bias = s.bias := by
  unfold State.writeTmr; dsimp only; split; rfl; split <;> rfl
@[simp] theorem State.writeTmr_events (s : State) (n : LaneIx) (v : Half) :
    (s.writeTmr n v).events = s.events := by
  unfold State.writeTmr; dsimp only; split; rfl; split <;> rfl
@[simp] theorem State.writeTmr_out (s : State) (n : LaneIx) (v : Half) :
    (s.writeTmr n v).out = s.out := by
  unfold State.writeTmr; dsimp only; split; rfl; split <;> rfl
@[simp] theorem State.writeTmr_voices (s : State) (n : LaneIx) (v : Half) :
    (s.writeTmr n v).voices = s.voices := by
  unfold State.writeTmr; dsimp only; split; rfl; split <;> rfl
@[simp] theorem State.writeTmr_mem (s : State) (n : LaneIx) (v : Half) :
    (s.writeTmr n v).mem = s.mem := by
  unfold State.writeTmr; dsimp only; split; rfl; split <;> rfl
@[simp] theorem State.writeTmr_mix (s : State) (n : LaneIx) (v : Half) :
    (s.writeTmr n v).mix = s.mix := by
  unfold State.writeTmr; dsimp only; split; rfl; split <;> rfl
@[simp] theorem State.writeTmr_port (s : State) (n : LaneIx) (v : Half) :
    (s.writeTmr n v).port = s.port := by
  unfold State.writeTmr; dsimp only; split; rfl; split <;> rfl
@[simp] theorem State.writeTmr_emitted (s : State) (n : LaneIx) (v : Half) :
    (s.writeTmr n v).emitted = s.emitted := by
  unfold State.writeTmr; dsimp only; split; rfl; split <;> rfl
@[simp] theorem State.writeTmr_fatal (s : State) (n : LaneIx) (v : Half) :
    (s.writeTmr n v).fatal = s.fatal := by
  unfold State.writeTmr; dsimp only; split; rfl; split <;> rfl

@[simp] theorem State.voice_writeTmr (s : State) (n : LaneIx) (v : Half) (k : LaneIx) :
    (s.writeTmr n v).voice k = s.voice k := by
  simp [State.voice]

@[simp] theorem State.writePnt_tick (s : State) (n : LaneIx) (v : Half) :
    (s.writePnt n v).tick = s.tick := rfl
@[simp] theorem State.writePnt_soundcnt (s : State) (n : LaneIx) (v : Half) :
    (s.writePnt n v).soundcnt = s.soundcnt := rfl
@[simp] theorem State.writePnt_bias (s : State) (n : LaneIx) (v : Half) :
    (s.writePnt n v).bias = s.bias := rfl
@[simp] theorem State.writePnt_events (s : State) (n : LaneIx) (v : Half) :
    (s.writePnt n v).events = s.events := rfl
@[simp] theorem State.writePnt_out (s : State) (n : LaneIx) (v : Half) :
    (s.writePnt n v).out = s.out := rfl
@[simp] theorem State.writePnt_caps (s : State) (n : LaneIx) (v : Half) :
    (s.writePnt n v).caps = s.caps := rfl
@[simp] theorem State.writePnt_voices (s : State) (n : LaneIx) (v : Half) :
    (s.writePnt n v).voices = s.voices := rfl
@[simp] theorem State.writePnt_mem (s : State) (n : LaneIx) (v : Half) :
    (s.writePnt n v).mem = s.mem := rfl
@[simp] theorem State.writePnt_mix (s : State) (n : LaneIx) (v : Half) :
    (s.writePnt n v).mix = s.mix := rfl
@[simp] theorem State.writePnt_port (s : State) (n : LaneIx) (v : Half) :
    (s.writePnt n v).port = s.port := rfl
@[simp] theorem State.writePnt_emitted (s : State) (n : LaneIx) (v : Half) :
    (s.writePnt n v).emitted = s.emitted := rfl
@[simp] theorem State.writePnt_fatal (s : State) (n : LaneIx) (v : Half) :
    (s.writePnt n v).fatal = s.fatal := rfl

@[simp] theorem State.voice_writePnt (s : State) (n : LaneIx) (v : Half) (k : LaneIx) :
    (s.writePnt n v).voice k = s.voice k := by
  simp [State.voice]

@[simp] theorem State.writeLen_tick (s : State) (n : LaneIx) (v : Word) :
    (s.writeLen n v).tick = s.tick := rfl
@[simp] theorem State.writeLen_soundcnt (s : State) (n : LaneIx) (v : Word) :
    (s.writeLen n v).soundcnt = s.soundcnt := rfl
@[simp] theorem State.writeLen_bias (s : State) (n : LaneIx) (v : Word) :
    (s.writeLen n v).bias = s.bias := rfl
@[simp] theorem State.writeLen_events (s : State) (n : LaneIx) (v : Word) :
    (s.writeLen n v).events = s.events := rfl
@[simp] theorem State.writeLen_out (s : State) (n : LaneIx) (v : Word) :
    (s.writeLen n v).out = s.out := rfl
@[simp] theorem State.writeLen_caps (s : State) (n : LaneIx) (v : Word) :
    (s.writeLen n v).caps = s.caps := rfl
@[simp] theorem State.writeLen_voices (s : State) (n : LaneIx) (v : Word) :
    (s.writeLen n v).voices = s.voices := rfl
@[simp] theorem State.writeLen_mem (s : State) (n : LaneIx) (v : Word) :
    (s.writeLen n v).mem = s.mem := rfl
@[simp] theorem State.writeLen_mix (s : State) (n : LaneIx) (v : Word) :
    (s.writeLen n v).mix = s.mix := rfl
@[simp] theorem State.writeLen_port (s : State) (n : LaneIx) (v : Word) :
    (s.writeLen n v).port = s.port := rfl
@[simp] theorem State.writeLen_emitted (s : State) (n : LaneIx) (v : Word) :
    (s.writeLen n v).emitted = s.emitted := rfl
@[simp] theorem State.writeLen_fatal (s : State) (n : LaneIx) (v : Word) :
    (s.writeLen n v).fatal = s.fatal := rfl

@[simp] theorem State.voice_writeLen (s : State) (n : LaneIx) (v : Word) (k : LaneIx) :
    (s.writeLen n v).voice k = s.voice k := by
  simp [State.voice]

@[simp] theorem State.writeSoundcnt_tick (s : State) (v : Half) :
    (s.writeSoundcnt v).tick = s.tick := rfl
@[simp] theorem State.writeSoundcnt_bias (s : State) (v : Half) :
    (s.writeSoundcnt v).bias = s.bias := rfl
@[simp] theorem State.writeSoundcnt_events (s : State) (v : Half) :
    (s.writeSoundcnt v).events = s.events := rfl
@[simp] theorem State.writeSoundcnt_out (s : State) (v : Half) :
    (s.writeSoundcnt v).out = s.out := rfl
@[simp] theorem State.writeSoundcnt_lanes (s : State) (v : Half) :
    (s.writeSoundcnt v).lanes = s.lanes := rfl
@[simp] theorem State.writeSoundcnt_caps (s : State) (v : Half) :
    (s.writeSoundcnt v).caps = s.caps := rfl
@[simp] theorem State.writeSoundcnt_voices (s : State) (v : Half) :
    (s.writeSoundcnt v).voices = s.voices := rfl
@[simp] theorem State.writeSoundcnt_mem (s : State) (v : Half) :
    (s.writeSoundcnt v).mem = s.mem := rfl
@[simp] theorem State.writeSoundcnt_mix (s : State) (v : Half) :
    (s.writeSoundcnt v).mix = s.mix := rfl
@[simp] theorem State.writeSoundcnt_port (s : State) (v : Half) :
    (s.writeSoundcnt v).port = s.port := rfl
@[simp] theorem State.writeSoundcnt_emitted (s : State) (v : Half) :
    (s.writeSoundcnt v).emitted = s.emitted := rfl
@[simp] theorem State.writeSoundcnt_fatal (s : State) (v : Half) :
    (s.writeSoundcnt v).fatal = s.fatal := rfl

@[simp] theorem State.voice_writeSoundcnt (s : State) (v : Half) (k : LaneIx) :
    (s.writeSoundcnt v).voice k = s.voice k := by
  simp [State.voice]

@[simp] theorem State.writeSoundbias_tick (s : State) (v : Half) :
    (s.writeSoundbias v).tick = s.tick := rfl
@[simp] theorem State.writeSoundbias_soundcnt (s : State) (v : Half) :
    (s.writeSoundbias v).soundcnt = s.soundcnt := rfl
@[simp] theorem State.writeSoundbias_events (s : State) (v : Half) :
    (s.writeSoundbias v).events = s.events := rfl
@[simp] theorem State.writeSoundbias_out (s : State) (v : Half) :
    (s.writeSoundbias v).out = s.out := rfl
@[simp] theorem State.writeSoundbias_lanes (s : State) (v : Half) :
    (s.writeSoundbias v).lanes = s.lanes := rfl
@[simp] theorem State.writeSoundbias_caps (s : State) (v : Half) :
    (s.writeSoundbias v).caps = s.caps := rfl
@[simp] theorem State.writeSoundbias_voices (s : State) (v : Half) :
    (s.writeSoundbias v).voices = s.voices := rfl
@[simp] theorem State.writeSoundbias_mem (s : State) (v : Half) :
    (s.writeSoundbias v).mem = s.mem := rfl
@[simp] theorem State.writeSoundbias_mix (s : State) (v : Half) :
    (s.writeSoundbias v).mix = s.mix := rfl
@[simp] theorem State.writeSoundbias_port (s : State) (v : Half) :
    (s.writeSoundbias v).port = s.port := rfl
@[simp] theorem State.writeSoundbias_emitted (s : State) (v : Half) :
    (s.writeSoundbias v).emitted = s.emitted := rfl
@[simp] theorem State.writeSoundbias_fatal (s : State) (v : Half) :
    (s.writeSoundbias v).fatal = s.fatal := rfl

@[simp] theorem State.voice_writeSoundbias (s : State) (v : Half) (k : LaneIx) :
    (s.writeSoundbias v).voice k = s.voice k := by
  simp [State.voice]

@[simp] theorem State.writeCapCnt_tick (s : State) (u : CapIx) (v : Byte) :
    (s.writeCapCnt u v).tick = s.tick := rfl
@[simp] theorem State.writeCapCnt_soundcnt (s : State) (u : CapIx) (v : Byte) :
    (s.writeCapCnt u v).soundcnt = s.soundcnt := rfl
@[simp] theorem State.writeCapCnt_bias (s : State) (u : CapIx) (v : Byte) :
    (s.writeCapCnt u v).bias = s.bias := rfl
@[simp] theorem State.writeCapCnt_events (s : State) (u : CapIx) (v : Byte) :
    (s.writeCapCnt u v).events = s.events := rfl
@[simp] theorem State.writeCapCnt_out (s : State) (u : CapIx) (v : Byte) :
    (s.writeCapCnt u v).out = s.out := rfl
@[simp] theorem State.writeCapCnt_lanes (s : State) (u : CapIx) (v : Byte) :
    (s.writeCapCnt u v).lanes = s.lanes := rfl
@[simp] theorem State.writeCapCnt_voices (s : State) (u : CapIx) (v : Byte) :
    (s.writeCapCnt u v).voices = s.voices := rfl
@[simp] theorem State.writeCapCnt_mem (s : State) (u : CapIx) (v : Byte) :
    (s.writeCapCnt u v).mem = s.mem := rfl
@[simp] theorem State.writeCapCnt_mix (s : State) (u : CapIx) (v : Byte) :
    (s.writeCapCnt u v).mix = s.mix := rfl
@[simp] theorem State.writeCapCnt_port (s : State) (u : CapIx) (v : Byte) :
    (s.writeCapCnt u v).port = s.port := rfl
@[simp] theorem State.writeCapCnt_emitted (s : State) (u : CapIx) (v : Byte) :
    (s.writeCapCnt u v).emitted = s.emitted := rfl
@[simp] theorem State.writeCapCnt_fatal (s : State) (u : CapIx) (v : Byte) :
    (s.writeCapCnt u v).fatal = s.fatal := rfl

@[simp] theorem State.voice_writeCapCnt (s : State) (u : CapIx) (v : Byte) (k : LaneIx) :
    (s.writeCapCnt u v).voice k = s.voice k := by
  simp [State.voice]

@[simp] theorem State.writeCapDad_tick (s : State) (u : CapIx) (v : Word) :
    (s.writeCapDad u v).tick = s.tick := rfl
@[simp] theorem State.writeCapDad_soundcnt (s : State) (u : CapIx) (v : Word) :
    (s.writeCapDad u v).soundcnt = s.soundcnt := rfl
@[simp] theorem State.writeCapDad_bias (s : State) (u : CapIx) (v : Word) :
    (s.writeCapDad u v).bias = s.bias := rfl
@[simp] theorem State.writeCapDad_events (s : State) (u : CapIx) (v : Word) :
    (s.writeCapDad u v).events = s.events := rfl
@[simp] theorem State.writeCapDad_out (s : State) (u : CapIx) (v : Word) :
    (s.writeCapDad u v).out = s.out := rfl
@[simp] theorem State.writeCapDad_lanes (s : State) (u : CapIx) (v : Word) :
    (s.writeCapDad u v).lanes = s.lanes := rfl
@[simp] theorem State.writeCapDad_voices (s : State) (u : CapIx) (v : Word) :
    (s.writeCapDad u v).voices = s.voices := rfl
@[simp] theorem State.writeCapDad_mem (s : State) (u : CapIx) (v : Word) :
    (s.writeCapDad u v).mem = s.mem := rfl
@[simp] theorem State.writeCapDad_mix (s : State) (u : CapIx) (v : Word) :
    (s.writeCapDad u v).mix = s.mix := rfl
@[simp] theorem State.writeCapDad_port (s : State) (u : CapIx) (v : Word) :
    (s.writeCapDad u v).port = s.port := rfl
@[simp] theorem State.writeCapDad_emitted (s : State) (u : CapIx) (v : Word) :
    (s.writeCapDad u v).emitted = s.emitted := rfl
@[simp] theorem State.writeCapDad_fatal (s : State) (u : CapIx) (v : Word) :
    (s.writeCapDad u v).fatal = s.fatal := rfl

@[simp] theorem State.voice_writeCapDad (s : State) (u : CapIx) (v : Word) (k : LaneIx) :
    (s.writeCapDad u v).voice k = s.voice k := by
  simp [State.voice]

@[simp] theorem State.writeCapLen_tick (s : State) (u : CapIx) (v : Half) :
    (s.writeCapLen u v).tick = s.tick := rfl
@[simp] theorem State.writeCapLen_soundcnt (s : State) (u : CapIx) (v : Half) :
    (s.writeCapLen u v).soundcnt = s.soundcnt := rfl
@[simp] theorem State.writeCapLen_bias (s : State) (u : CapIx) (v : Half) :
    (s.writeCapLen u v).bias = s.bias := rfl
@[simp] theorem State.writeCapLen_events (s : State) (u : CapIx) (v : Half) :
    (s.writeCapLen u v).events = s.events := rfl
@[simp] theorem State.writeCapLen_out (s : State) (u : CapIx) (v : Half) :
    (s.writeCapLen u v).out = s.out := rfl
@[simp] theorem State.writeCapLen_lanes (s : State) (u : CapIx) (v : Half) :
    (s.writeCapLen u v).lanes = s.lanes := rfl
@[simp] theorem State.writeCapLen_voices (s : State) (u : CapIx) (v : Half) :
    (s.writeCapLen u v).voices = s.voices := rfl
@[simp] theorem State.writeCapLen_mem (s : State) (u : CapIx) (v : Half) :
    (s.writeCapLen u v).mem = s.mem := rfl
@[simp] theorem State.writeCapLen_mix (s : State) (u : CapIx) (v : Half) :
    (s.writeCapLen u v).mix = s.mix := rfl
@[simp] theorem State.writeCapLen_port (s : State) (u : CapIx) (v : Half) :
    (s.writeCapLen u v).port = s.port := rfl
@[simp] theorem State.writeCapLen_emitted (s : State) (u : CapIx) (v : Half) :
    (s.writeCapLen u v).emitted = s.emitted := rfl
@[simp] theorem State.writeCapLen_fatal (s : State) (u : CapIx) (v : Half) :
    (s.writeCapLen u v).fatal = s.fatal := rfl

@[simp] theorem State.cap_writeCapLen (s : State) (u : CapIx) (v : Half) (w : CapIx) :
    (s.writeCapLen u v).cap w = if u = w then { s.cap u with length := capLengthBytes v } else s.cap w := by
  simp [State.writeCapLen]

@[simp] theorem State.voice_writeCapLen (s : State) (u : CapIx) (v : Half) (k : LaneIx) :
    (s.writeCapLen u v).voice k = s.voice k := by
  simp [State.voice]

@[simp] theorem State.setVolume_tick (s : State) (n : LaneIx) (q : BitVec 7) :
    (s.setVolume n q).tick = s.tick := by
  simp [State.setVolume]
@[simp] theorem State.setVolume_soundcnt (s : State) (n : LaneIx) (q : BitVec 7) :
    (s.setVolume n q).soundcnt = s.soundcnt := by
  simp [State.setVolume]
@[simp] theorem State.setVolume_bias (s : State) (n : LaneIx) (q : BitVec 7) :
    (s.setVolume n q).bias = s.bias := by
  simp [State.setVolume]
@[simp] theorem State.setVolume_events (s : State) (n : LaneIx) (q : BitVec 7) :
    (s.setVolume n q).events = s.events := by
  simp [State.setVolume]
@[simp] theorem State.setVolume_out (s : State) (n : LaneIx) (q : BitVec 7) :
    (s.setVolume n q).out = s.out := by
  simp [State.setVolume]
@[simp] theorem State.setVolume_caps (s : State) (n : LaneIx) (q : BitVec 7) :
    (s.setVolume n q).caps = s.caps := by
  simp [State.setVolume]
@[simp] theorem State.setVolume_voices (s : State) (n : LaneIx) (q : BitVec 7) :
    (s.setVolume n q).voices = s.voices := by
  simp [State.setVolume]
@[simp] theorem State.setVolume_mem (s : State) (n : LaneIx) (q : BitVec 7) :
    (s.setVolume n q).mem = s.mem := by
  simp [State.setVolume]
@[simp] theorem State.setVolume_mix (s : State) (n : LaneIx) (q : BitVec 7) :
    (s.setVolume n q).mix = s.mix := by
  simp [State.setVolume]
@[simp] theorem State.setVolume_port (s : State) (n : LaneIx) (q : BitVec 7) :
    (s.setVolume n q).port = s.port := by
  simp [State.setVolume]
@[simp] theorem State.setVolume_emitted (s : State) (n : LaneIx) (q : BitVec 7) :
    (s.setVolume n q).emitted = s.emitted := by
  simp [State.setVolume]

@[simp] theorem State.voice_setVolume (s : State) (n : LaneIx) (q : BitVec 7) (k : LaneIx) :
    (s.setVolume n q).voice k = s.voice k := by
  simp [State.voice]

@[simp] theorem State.programRegs_tick (s : State) (n : LaneIx) (src : Word) (lw : Half) (len : BitVec 21) (r : Option Half) :
    (s.programRegs n src lw len r).tick = s.tick := by
  unfold State.programRegs; cases r <;> simp
@[simp] theorem State.programRegs_soundcnt (s : State) (n : LaneIx) (src : Word) (lw : Half) (len : BitVec 21) (r : Option Half) :
    (s.programRegs n src lw len r).soundcnt = s.soundcnt := by
  unfold State.programRegs; cases r <;> simp
@[simp] theorem State.programRegs_bias (s : State) (n : LaneIx) (src : Word) (lw : Half) (len : BitVec 21) (r : Option Half) :
    (s.programRegs n src lw len r).bias = s.bias := by
  unfold State.programRegs; cases r <;> simp
@[simp] theorem State.programRegs_events (s : State) (n : LaneIx) (src : Word) (lw : Half) (len : BitVec 21) (r : Option Half) :
    (s.programRegs n src lw len r).events = s.events := by
  unfold State.programRegs; cases r <;> simp
@[simp] theorem State.programRegs_out (s : State) (n : LaneIx) (src : Word) (lw : Half) (len : BitVec 21) (r : Option Half) :
    (s.programRegs n src lw len r).out = s.out := by
  unfold State.programRegs; cases r <;> simp
@[simp] theorem State.programRegs_voices (s : State) (n : LaneIx) (src : Word) (lw : Half) (len : BitVec 21) (r : Option Half) :
    (s.programRegs n src lw len r).voices = s.voices := by
  unfold State.programRegs; cases r <;> simp
@[simp] theorem State.programRegs_mem (s : State) (n : LaneIx) (src : Word) (lw : Half) (len : BitVec 21) (r : Option Half) :
    (s.programRegs n src lw len r).mem = s.mem := by
  unfold State.programRegs; cases r <;> simp
@[simp] theorem State.programRegs_mix (s : State) (n : LaneIx) (src : Word) (lw : Half) (len : BitVec 21) (r : Option Half) :
    (s.programRegs n src lw len r).mix = s.mix := by
  unfold State.programRegs; cases r <;> simp
@[simp] theorem State.programRegs_port (s : State) (n : LaneIx) (src : Word) (lw : Half) (len : BitVec 21) (r : Option Half) :
    (s.programRegs n src lw len r).port = s.port := by
  unfold State.programRegs; cases r <;> simp
@[simp] theorem State.programRegs_emitted (s : State) (n : LaneIx) (src : Word) (lw : Half) (len : BitVec 21) (r : Option Half) :
    (s.programRegs n src lw len r).emitted = s.emitted := by
  unfold State.programRegs; cases r <;> simp

@[simp] theorem State.voice_programRegs (s : State) (n : LaneIx) (src : Word) (lw : Half) (len : BitVec 21) (r : Option Half) (k : LaneIx) :
    (s.programRegs n src lw len r).voice k = s.voice k := by
  simp [State.voice]

@[simp] theorem State.programLane_tick (s : State) (n : LaneIx) (rt : ResolvedTimbre) (pan : Nat) (src : Word) (lw : Half) (len : BitVec 21) (q : BitVec 7) (r : Option Half) :
    (s.programLane n rt pan src lw len q r).tick = s.tick := by
  simp [State.programLane]
@[simp] theorem State.programLane_soundcnt (s : State) (n : LaneIx) (rt : ResolvedTimbre) (pan : Nat) (src : Word) (lw : Half) (len : BitVec 21) (q : BitVec 7) (r : Option Half) :
    (s.programLane n rt pan src lw len q r).soundcnt = s.soundcnt := by
  simp [State.programLane]
@[simp] theorem State.programLane_bias (s : State) (n : LaneIx) (rt : ResolvedTimbre) (pan : Nat) (src : Word) (lw : Half) (len : BitVec 21) (q : BitVec 7) (r : Option Half) :
    (s.programLane n rt pan src lw len q r).bias = s.bias := by
  simp [State.programLane]
@[simp] theorem State.programLane_events (s : State) (n : LaneIx) (rt : ResolvedTimbre) (pan : Nat) (src : Word) (lw : Half) (len : BitVec 21) (q : BitVec 7) (r : Option Half) :
    (s.programLane n rt pan src lw len q r).events = s.events := by
  simp [State.programLane]
@[simp] theorem State.programLane_out (s : State) (n : LaneIx) (rt : ResolvedTimbre) (pan : Nat) (src : Word) (lw : Half) (len : BitVec 21) (q : BitVec 7) (r : Option Half) :
    (s.programLane n rt pan src lw len q r).out = s.out := by
  simp [State.programLane]
@[simp] theorem State.programLane_voices (s : State) (n : LaneIx) (rt : ResolvedTimbre) (pan : Nat) (src : Word) (lw : Half) (len : BitVec 21) (q : BitVec 7) (r : Option Half) :
    (s.programLane n rt pan src lw len q r).voices = s.voices := by
  simp [State.programLane]
@[simp] theorem State.programLane_mem (s : State) (n : LaneIx) (rt : ResolvedTimbre) (pan : Nat) (src : Word) (lw : Half) (len : BitVec 21) (q : BitVec 7) (r : Option Half) :
    (s.programLane n rt pan src lw len q r).mem = s.mem := by
  simp [State.programLane]
@[simp] theorem State.programLane_mix (s : State) (n : LaneIx) (rt : ResolvedTimbre) (pan : Nat) (src : Word) (lw : Half) (len : BitVec 21) (q : BitVec 7) (r : Option Half) :
    (s.programLane n rt pan src lw len q r).mix = s.mix := by
  simp [State.programLane]
@[simp] theorem State.programLane_port (s : State) (n : LaneIx) (rt : ResolvedTimbre) (pan : Nat) (src : Word) (lw : Half) (len : BitVec 21) (q : BitVec 7) (r : Option Half) :
    (s.programLane n rt pan src lw len q r).port = s.port := by
  simp [State.programLane]
@[simp] theorem State.programLane_emitted (s : State) (n : LaneIx) (rt : ResolvedTimbre) (pan : Nat) (src : Word) (lw : Half) (len : BitVec 21) (q : BitVec 7) (r : Option Half) :
    (s.programLane n rt pan src lw len q r).emitted = s.emitted := by
  simp [State.programLane]

@[simp] theorem State.voice_programLane (s : State) (n : LaneIx) (rt : ResolvedTimbre) (pan : Nat) (src : Word) (lw : Half) (len : BitVec 21) (q : BitVec 7) (r : Option Half) (k : LaneIx) :
    (s.programLane n rt pan src lw len q r).voice k = s.voice k := by
  simp [State.voice]

/-! ### The control word -/

/-- A control write that is no rising edge of key-on stores the word and nothing else (R150). -/
theorem State.writeCnt_noEdge (s : State) (n : LaneIx) (v : Word)
    (h : keyon v = false ∨ keyon (s.lane n).cnt = true) :
    s.writeCnt n v = s.setLane n { s.lane n with cnt := v } := by
  unfold State.writeCnt
  rcases h with h | h <;> simp [h]

/-- A rising edge of key-on stores the word and runs the start sequence (R150, R155). -/
theorem State.writeCnt_edge (s : State) (n : LaneIx) (v : Word) (h : keyon v = true)
    (h' : keyon (s.lane n).cnt = false) :
    s.writeCnt n v = s.commitLane n (laneStart s.mem { s.lane n with cnt := v }) := by
  unfold State.writeCnt
  simp [h, h']

theorem keyon_zero : keyon 0 = false := by decide

/-- Writing 0 to a control word stores it. -/
theorem State.writeCnt_zero (s : State) (n : LaneIx) : s.writeCnt n 0 = s.setLane n { s.lane n with cnt := 0 } :=
  s.writeCnt_noEdge n 0 (.inl keyon_zero)

/-- Replacing the volume field leaves key-on as it was (R339). -/
@[simp] theorem keyon_withVolumeField (cnt : Word) (q : BitVec 7) : keyon (withVolumeField cnt q) = keyon cnt := by
  simp [keyon, withVolumeField]

/-- SET_VOLUME writes the volume field and is never a rising edge (R339). -/
theorem State.setVolume_eq (s : State) (n : LaneIx) (q : BitVec 7) :
    s.setVolume n q = s.setLane n { s.lane n with cnt := withVolumeField (s.lane n).cnt q } := by
  unfold State.setVolume
  apply State.writeCnt_noEdge
  simp

@[simp] theorem State.setVolume_fatal (s : State) (n : LaneIx) (q : BitVec 7) :
    (s.setVolume n q).fatal = s.fatal := by
  simp [State.setVolume_eq]

/-- The control word that ends PROGRAM_LANE has key-on set (R323). -/
theorem keyon_packCnt (f : BitVec 2) (d : BitVec 3) (r : BitVec 2) (pan : Nat) (sh : BitVec 2) (q : BitVec 7) :
    keyon (packCnt true f d r pan sh q) = true := by
  simp [keyon, packCnt, Config.dutyLsb, Config.repeatLsb]

theorem keyon_programWord (rt : ResolvedTimbre) (pan : Nat) (q : BitVec 7) : keyon (programWord rt pan q) = true :=
  keyon_packCnt ..

/-! ### Accessors after the register writes -/

@[simp] theorem State.cap_writeCnt (s : State) (n : LaneIx) (v : Word) (u : CapIx) :
    (s.writeCnt n v).cap u = s.cap u := by
  simp [State.cap]

@[simp] theorem State.cap_setVolume (s : State) (n : LaneIx) (q : BitVec 7) (u : CapIx) :
    (s.setVolume n q).cap u = s.cap u := by
  simp [State.cap]

/-- The lanes after a timer write (R152). -/
@[simp] theorem State.lane_writeTmr (s : State) (n k : LaneIx) (v : Half) :
    (s.writeTmr n v).lane k = if n = k then { s.lane n with tmr := v } else s.lane k := by
  unfold State.writeTmr
  dsimp only
  split <;> [skip; split] <;> simp

/-- The capture units after a timer write (R120, R152). -/
theorem State.cap_writeTmr (s : State) (n : LaneIx) (v : Half) (u : CapIx) :
    (s.writeTmr n v).cap u =
      if (n = 1 ∧ u = 0) ∨ (n = 3 ∧ u = 1) then { s.cap u with tmr := v } else s.cap u := by
  have hu : u = 0 ∨ u = 1 := by revert u; decide
  unfold State.writeTmr
  dsimp only
  split
  · rename_i h; subst h
    rcases hu with rfl | rfl <;> simp
  · split
    · rename_i h; subst h
      rcases hu with rfl | rfl <;> simp
    · rename_i h1 h2; simp [h1, h2]

/-- A control write leaves the other lanes alone. -/
theorem State.lane_writeCnt_other (s : State) {n k : LaneIx} (v : Word) (h : n ≠ k) :
    (s.writeCnt n v).lane k = s.lane k := by
  unfold State.writeCnt
  dsimp only
  split <;> simp [h]

/-! ### PROGRAM_LANE (R323) -/

/-- The registers PROGRAM_LANE leaves in the lane before its last write. -/
theorem State.lane_programRegs (s : State) (n : LaneIx) (src : Word) (lw : Half) (len : BitVec 21) (r : Option Half) :
    (s.programRegs n src lw len r).lane n =
      { s.lane n with
        cnt := 0, tmr := r.getD (s.lane n).tmr, src := maskAddr src, loopPos := loopBytes lw,
        length := lengthBytes (len.setWidth 32) } := by
  unfold State.programRegs
  rw [State.writeCnt_zero]
  cases r <;> simp [State.writeSad, State.writePnt, State.writeLen]

theorem State.lane_programRegs_other (s : State) {n k : LaneIx} (src : Word) (lw : Half) (len : BitVec 21)
    (r : Option Half) (h : n ≠ k) : (s.programRegs n src lw len r).lane k = s.lane k := by
  unfold State.programRegs
  rw [State.writeCnt_zero]
  cases r <;> simp [State.writeSad, State.writePnt, State.writeLen, h]

@[simp] theorem State.programRegs_fatal (s : State) (n : LaneIx) (src : Word) (lw : Half) (len : BitVec 21)
    (r : Option Half) : (s.programRegs n src lw len r).fatal = s.fatal := by
  unfold State.programRegs
  rw [State.writeCnt_zero]
  cases r <;> simp

/-- PROGRAM_LANE ends in a rising edge of key-on: the start sequence runs (R323). -/
theorem State.programLane_eq (s : State) (n : LaneIx) (rt : ResolvedTimbre) (pan : Nat) (src : Word) (lw : Half)
    (len : BitVec 21) (q : BitVec 7) (r : Option Half) :
    s.programLane n rt pan src lw len q r =
      (s.programRegs n src lw len r).commitLane n
        (laneStart s.mem { (s.programRegs n src lw len r).lane n with cnt := programWord rt pan q }) := by
  unfold State.programLane
  rw [State.writeCnt_edge _ _ _ (keyon_programWord ..) (by rw [State.lane_programRegs]; exact keyon_zero)]
  simp

end Sys2Proof.Machine
end

