-- ==== Sys2Proof/Laws/Closed.lean ====
section
/-!
SUPPORT. Everything a step can do, said once: a predicate of the state that each single move of the block keeps is kept
by every operation and by every step.
-/

namespace Sys2Proof.Machine

/-- The single moves of the block, each in a state without a fatal error unless it says otherwise. -/
structure Closed (P : State → Prop) : Prop where
  raise : ∀ s e, s.fatal = none → P s → P (s.raise e)
  cnt : ∀ s n v, s.fatal = none → P s → P (s.writeCnt n v)
  sad : ∀ s n v, s.fatal = none → P s → P (s.writeSad n v)
  tmr : ∀ s n v, s.fatal = none → P s → P (s.writeTmr n v)
  pnt : ∀ s n v, s.fatal = none → P s → P (s.writePnt n v)
  len : ∀ s n v, s.fatal = none → P s → P (s.writeLen n v)
  soundcnt : ∀ s v, s.fatal = none → P s → P (s.writeSoundcnt v)
  soundbias : ∀ s v, s.fatal = none → P s → P (s.writeSoundbias v)
  capCnt : ∀ s u v, s.fatal = none → P s → P (s.writeCapCnt u v)
  capDad : ∀ s u v, s.fatal = none → P s → P (s.writeCapDad u v)
  capLen : ∀ s u v, s.fatal = none → P s → P (s.writeCapLen u v)
  gen : ∀ s n g, s.fatal = none → P s → P (s.laneStep n (genStep s.mem g))
  psg : ∀ s n d, s.fatal = none → P s → P (s.laneStep n fun l => .ok (stepPsg d l))
  run : ∀ s n, s.fatal = none → laneRuns n (s.lane n) = true → P s →
    P (s.commitLane n (laneAdvance s.mem (genOf n (s.lane n).cnt) (s.lane n)))
  cap : ∀ s u fmt8 oneshot, s.fatal = none → P s → P (s.runCap u fmt8 oneshot)
  mix : ∀ s x, s.fatal = none → P s → P { s with mix := x }
  reserve : ∀ s n category track t, s.fatal = none → n ∈ prefLanes category →
    tierHolds category track t (s.voice n) = true → P s → P (s.setVoice n .withheld)
  fill : ∀ s n ev rt, s.fatal = none → s.voice n = .withheld → P s →
    P (s.setVoice n (.used (newVoice s.tick ev rt)))
  used : ∀ s n u u', s.fatal = none → s.voice n = .used u → u'.start = u.start → P s → P (s.setVoice n (.used u'))
  freeing : ∀ s n f f', s.fatal = none → s.voice n = .freeing f → P s → P (s.setVoice n (.freeing f'))
  openUsed : ∀ s n u, s.fatal = none → s.voice n = .used u → P s → P (s.setVoice n .opened)
  openFreeing : ∀ s n f, s.fatal = none → s.voice n = .freeing f → P s → P (s.setVoice n .opened)
  release : ∀ s track tick, s.fatal = none → P s → P (s.releaseTrack track tick)
  emit : ∀ s e, P s → P (s.emit e)
  pop : ∀ s ev rest, s.fatal = none → s.events = ev :: rest → P s → P { s with events := rest }
  load : ∀ s events, s.fatal = none → firstLate s.tick events = none → P s → P { s with events := events }
  finish : ∀ s, s.fatal = none → (∀ ev rest, s.events = ev :: rest → ev.tick ≠ s.tick) → P s → P s.finishStep
  write : ∀ s a b, s.fatal = none → Config.mapped a = true → P s → P { s with mem := Memory.write s.mem a.toNat b }
  port : ∀ s items, P s → P { s with port := items }
  reset : ∀ s, P s → P s.resetBlock

/-- The output select raises nothing (R244). -/
theorem State.outputSelect_live (s : State) (side : Side) (hl : s.fatal = none) : (s.outputSelect side).fatal = none := by
  unfold State.outputSelect
  split <;> simpa [State.outMixer, State.outCh1, State.outCh3, State.outCh1Ch3] using hl

/-- All that `onUsed` can do. -/
theorem State.onUsed_holds (s : State) (n : LaneIx) {P : State → Prop} {f : UsedVoice → State} (h : P s)
    (hf : ∀ u, s.voice n = .used u → P (f u)) : P (s.onUsed n f) := by
  unfold State.onUsed
  split
  · rename_i u hu; exact hf u hu
  all_goals exact h

/-- Parts 1 and 3 of an evaluation raise nothing. -/
theorem State.evalVolume_live (s : State) (n : LaneIx) (vt : Nat) (hl : s.fatal = none) :
    (s.evalVolume n vt).fatal = none := by
  refine s.onUsed_holds n (P := fun t => t.fatal = none) hl fun u _ => ?_
  split <;> simp [hl, State.applyEnv]

theorem State.evalPitch_live (s : State) (n : LaneIx) (vt : Nat) (hl : s.fatal = none) :
    (s.evalPitch n vt).fatal = none := by
  refine s.onUsed_holds n (P := fun t => t.fatal = none) hl fun u _ => ?_
  split <;> simp [hl]

namespace Closed

variable {P : State → Prop} (c : Closed P)

/-- A predicate that the rest of an operation keeps, unless it is abandoned, holds after it. -/
theorem andThen {s : State} {f : State → State} (h : P s) (hf : s.fatal = none → P s → P (f s)) :
    P (s.andThen f) := by
  rcases s.andThen_cases f with ⟨hl, e⟩ | ⟨-, e⟩ <;> rw [e]
  exacts [hf hl h, h]

include c

/-! ### Registers -/

theorem busWrite32 (s : State) (a v : Word) (hl : s.fatal = none) (h : P s) : P (s.busWrite32 a v) := by
  unfold State.busWrite32
  split
  exacts [c.cnt _ _ _ hl h, c.sad _ _ _ hl h, c.len _ _ _ hl h, c.capDad _ _ _ hl h, c.raise _ _ hl h]

theorem busWrite16 (s : State) (a : Word) (v : Half) (hl : s.fatal = none) (h : P s) : P (s.busWrite16 a v) := by
  unfold State.busWrite16
  split
  exacts [c.tmr _ _ _ hl h, c.pnt _ _ _ hl h, c.soundcnt _ _ hl h, c.soundbias _ _ hl h, c.capLen _ _ _ hl h,
    c.raise _ _ hl h]

theorem busWrite8 (s : State) (a : Word) (v : Byte) (hl : s.fatal = none) (h : P s) : P (s.busWrite8 a v) := by
  unfold State.busWrite8
  split
  exacts [c.capCnt _ _ _ hl h, c.raise _ _ hl h]

theorem setVolume (s : State) (n : LaneIx) (q : BitVec 7) (hl : s.fatal = none) (h : P s) : P (s.setVolume n q) :=
  c.cnt _ _ _ hl h

theorem programRegs (s : State) (n : LaneIx) (src : Word) (lw : Half) (len : BitVec 21) (r : Option Half)
    (hl : s.fatal = none) (h : P s) : P (s.programRegs n src lw len r) := by
  have h0 := c.cnt _ n 0 hl h
  have hl0 : (s.writeCnt n 0).fatal = none := by
    rw [State.writeCnt_zero]; exact hl
  unfold State.programRegs
  cases r with
  | none => exact c.len _ _ _ (by simpa using hl0) (c.pnt _ _ _ (by simpa using hl0) (c.sad _ _ _ hl0 h0))
  | some r =>
    exact c.len _ _ _ (by simpa using hl0) (c.pnt _ _ _ (by simpa using hl0)
      (c.sad _ _ _ (by simpa using hl0) (c.tmr _ _ _ hl0 h0)))

theorem programLane (s : State) (n : LaneIx) (rt : ResolvedTimbre) (pan : Nat) (src : Word) (lw : Half)
    (len : BitVec 21) (q : BitVec 7) (r : Option Half) (hl : s.fatal = none) (h : P s) :
    P (s.programLane n rt pan src lw len q r) :=
  c.cnt _ _ _ (by simp [hl]) (c.programRegs _ _ _ _ _ _ hl h)

/-! ### The mixer -/

theorem runLane (s : State) (n : LaneIx) (hl : s.fatal = none) (h : P s) : P (s.runLane n) := by
  unfold State.runLane
  dsimp only
  split
  · rename_i hr
    exact andThen (c.run _ _ hl hr h) fun hl' h' => c.mix _ _ hl' h'
  · exact c.mix _ _ hl h

theorem runLanes (ns : List LaneIx) (s : State) (hl : s.fatal = none) (h : P s) : P (s.runLanes ns) := by
  induction ns generalizing s with
  | nil => exact h
  | cons n ns ih => exact andThen (c.runLane _ _ hl h) fun hl' h' => ih _ hl' h'

theorem feedCap (s : State) (u : CapIx) (hl : s.fatal = none) (h : P s) : P (s.feedCap u) := by
  unfold State.feedCap
  dsimp only
  split
  exacts [c.cap _ _ _ _ hl h, h]

theorem setOutput (s : State) (side : Side) (x : Int) (hl : s.fatal = none) (h : P s) : P (s.setOutput side x) := by
  cases side <;> exact c.mix _ _ hl h

theorem outputSelect (s : State) (side : Side) (hl : s.fatal = none) (h : P s) : P (s.outputSelect side) := by
  unfold State.outputSelect
  split <;> exact c.setOutput _ _ _ hl h

theorem runMix (s : State) (hl : s.fatal = none) (h : P s) : P s.runMix := by
  unfold State.runMix
  dsimp only
  split
  · refine andThen (c.runLanes _ _ hl (c.mix _ _ hl h)) fun hl h => ?_
    refine andThen ?_ fun hl h => c.outputSelect _ _ (State.outputSelect_live _ _ hl) (c.outputSelect _ _ hl h)
    exact andThen (c.feedCap _ _ hl (c.mix _ _ hl h)) fun hl h => c.feedCap _ _ hl h
  · exact c.mix _ _ hl h

/-! ### Voices -/

end Closed

/-- The lane REQCH finds is of the category's list, and some tier holds of its voice (R295). -/
theorem State.findLane_some {s : State} {category : Category} {track : Nat} {n : LaneIx}
    (h : s.findLane category track = some n) :
    n ∈ prefLanes category ∧ ∃ t ∈ tiers, tierHolds category track t (s.voice n) = true := by
  unfold State.findLane at h
  obtain ⟨t, ht, hn⟩ := List.exists_of_findSome?_eq_some h
  exact ⟨List.mem_of_find?_eq_some hn, t, ht, by simpa using List.find?_some hn⟩

namespace Closed

variable {P : State → Prop} (c : Closed P)
include c

theorem returning (s : State) (n : Option LaneIx) (h : P s) : P (s.returning n) := by
  cases n
  exacts [h, c.emit _ _ h]

theorem reqch (s : State) (category : Category) (track : Nat) (hl : s.fatal = none) (h : P s) :
    P (s.reqch category track).2 := by
  unfold State.reqch
  split
  · rename_i n hn
    obtain ⟨hp, t, -, ht⟩ := State.findLane_some hn
    exact c.reserve _ _ _ _ t hl hp ht h
  · exact c.raise _ _ hl h

theorem populate (s : State) (n : Int) (ev : Event) (rt : ResolvedTimbre) (hl : s.fatal = none) (h : P s) :
    P (s.populate n ev rt) := by
  unfold State.populate
  split
  · exact c.raise _ _ hl h
  · split
    · rename_i k _ _ hv
      split
      · exact c.raise _ _ hl h
      · exact c.programLane _ _ _ _ _ _ _ _ _ hl (c.fill _ _ _ _ hl hv h)
    all_goals exact c.raise _ _ hl h

theorem trigger (s : State) (ev : Event) (hl : s.fatal = none) (h : P s) : P (s.trigger ev).2 := by
  unfold State.trigger State.triggerWith
  have hr := c.reqch s (Config.resolve ev).category ev.track hl h
  unfold State.reqch at hr ⊢
  split
  · rename_i heq
    split at heq
    · simp at heq
    · rename_i hn
      simp only [Prod.mk.injEq, true_and] at heq
      rw [hn] at hr
      rw [← heq]; exact hr
  · rename_i heq
    split at heq
    · rename_i hn
      simp only [Prod.mk.injEq] at heq
      rw [hn] at hr
      obtain ⟨-, rfl⟩ := heq
      exact c.populate _ _ _ _ hl hr
    · simp at heq

/-! ### The engine -/

theorem evalPitch (s : State) (n : LaneIx) (vt : Nat) (hl : s.fatal = none) (h : P s) : P (s.evalPitch n vt) := by
  refine s.onUsed_holds n h fun u hu => ?_
  split
  · exact h
  · exact c.used _ _ u _ (by simpa using hl) (by simpa using hu) rfl (c.tmr _ _ _ hl h)

end Closed

/-- Retriggers leave the voice table and the tick alone (R343). -/
theorem State.retrigger_keeps (s : State) (n : LaneIx) (rt : ResolvedTimbre) (pan : Nat)
    (segs : List (Nat × SampleSeg)) :
    (s.retrigger n rt pan segs).voices = s.voices ∧ (s.retrigger n rt pan segs).tick = s.tick := by
  induction segs generalizing s with
  | nil => exact ⟨rfl, rfl⟩
  | cons p segs ih =>
    unfold State.retrigger
    rcases State.andThen_cases (s.programLane n rt pan p.2.src p.2.loopWords p.2.lenWords (volq p.2.volume) none)
      (fun s => s.retrigger n rt pan segs) with ⟨-, e⟩ | ⟨-, e⟩ <;> rw [e]
    · have := ih (s.programLane n rt pan p.2.src p.2.loopWords p.2.lenWords (volq p.2.volume) none)
      simpa using this
    · simp

namespace Closed

variable {P : State → Prop} (c : Closed P)
include c

theorem retrigger (s : State) (n : LaneIx) (rt : ResolvedTimbre) (pan : Nat) (segs : List (Nat × SampleSeg))
    (hl : s.fatal = none) (h : P s) : P (s.retrigger n rt pan segs) := by
  induction segs generalizing s with
  | nil => exact h
  | cons p segs ih => exact andThen (c.programLane _ _ _ _ _ _ _ _ _ hl h) fun hl h => ih _ hl h

theorem evalSamples (s : State) (n : LaneIx) (vt : Nat) (hl : s.fatal = none) (h : P s) :
    P (s.evalSamples n vt) := by
  refine s.onUsed_holds n h fun u hu => ?_
  refine andThen (c.retrigger _ _ _ _ _ hl h) fun hl h => c.used _ _ u _ hl ?_ rfl h
  simp only [State.voice, (s.retrigger_keeps n u.rt u.pan _).1]
  exact hu

theorem applyEnv (s : State) (n : LaneIx) (u u' : UsedVoice) (x : EnvValue) (hl : s.fatal = none)
    (hu : s.voice n = .used u) (hs : u'.start = u.start) (h : P s) : P (s.applyEnv n u' x) :=
  c.setVolume _ _ _ hl (c.used _ _ u _ hl hu hs h)

theorem evalVolume (s : State) (n : LaneIx) (vt : Nat) (hl : s.fatal = none) (h : P s) : P (s.evalVolume n vt) := by
  refine s.onUsed_holds n h fun u hu => ?_
  split
  exacts [h, c.applyEnv _ _ u u _ hl hu rfl h]

theorem evalCompletion (s : State) (n : LaneIx) (vt : Nat) (hl : s.fatal = none) (h : P s) :
    P (s.evalCompletion n vt) := by
  refine s.onUsed_holds n h fun u hu => ?_
  split
  · split
    · split
      · exact c.applyEnv _ _ u _ _ hl hu rfl h
      · exact c.setVolume _ _ _ hl (c.used _ _ u _ hl hu rfl h)
    · exact c.openUsed _ _ u (by simpa using hl) (by simpa using hu) (c.setVolume _ _ _ hl h)
  · exact h

theorem evalUsed (s : State) (n : LaneIx) (vt : Nat) (hl : s.fatal = none) (h : P s) : P (s.evalUsed n vt) := by
  unfold State.evalUsed
  refine andThen (c.evalSamples _ _ _ (State.evalPitch_live _ _ _ hl) (c.evalPitch _ _ _ hl h)) fun hl h => ?_
  exact c.evalCompletion _ _ _ (State.evalVolume_live _ _ _ hl) (c.evalVolume _ _ _ hl h)

theorem evalFreeing (s : State) (n : LaneIx) (f : FreeingVoice) (hl : s.fatal = none) (hf : s.voice n = .freeing f)
    (h : P s) : P (s.evalFreeing n f) := by
  unfold State.evalFreeing
  dsimp only
  split
  · exact c.openFreeing _ _ f (by simpa using hl) (by simpa using hf) (c.setVolume _ _ _ hl h)
  · exact c.setVolume _ _ _ hl (c.freeing _ _ f _ hl hf h)

theorem evalVoice (s : State) (n : LaneIx) (hl : s.fatal = none) (h : P s) : P (s.evalVoice n) := by
  unfold State.evalVoice
  split
  · split
    exacts [c.evalUsed _ _ _ hl h, h]
  · rename_i f hf
    split
    exacts [c.evalFreeing _ _ f hl hf h, h]
  all_goals exact h

theorem evalVoices (ns : List LaneIx) (s : State) (hl : s.fatal = none) (h : P s) : P (s.evalVoices ns) := by
  induction ns generalizing s with
  | nil => exact h
  | cons n ns ih => exact andThen (c.evalVoice _ _ hl h) fun hl h => ih _ hl h

theorem engine (s : State) (hl : s.fatal = none) (h : P s) : P s.engine := c.evalVoices _ _ hl h

end Closed

/-! ### The tick sequence -/

/-- What the voice engine leaves alone, all but the lanes, the voices, the fatal error, and the reload of a capture unit
that a lane's timer write reaches (R120). -/
def State.voiceKeeps (s t : State) : Prop :=
  t.events = s.events ∧ t.tick = s.tick ∧ t.soundcnt = s.soundcnt ∧ t.bias = s.bias ∧ t.out = s.out ∧ t.mem = s.mem ∧
    t.mix = s.mix ∧ t.port = s.port ∧ t.emitted = s.emitted ∧ ∀ u, ∃ h, t.cap u = { s.cap u with tmr := h }

namespace State.voiceKeeps

variable {s t : State}

theorem refl (s : State) : s.voiceKeeps s := ⟨rfl, rfl, rfl, rfl, rfl, rfl, rfl, rfl, rfl, fun u => ⟨(s.cap u).tmr, rfl⟩⟩

theorem trans {r : State} (h : s.voiceKeeps t) (h' : t.voiceKeeps r) : s.voiceKeeps r := by
  obtain ⟨a1, a2, a3, a4, a5, a6, a7, a8, a9, ac⟩ := h
  obtain ⟨b1, b2, b3, b4, b5, b6, b7, b8, b9, bc⟩ := h'
  refine ⟨b1.trans a1, b2.trans a2, b3.trans a3, b4.trans a4, b5.trans a5, b6.trans a6, b7.trans a7, b8.trans a8,
    b9.trans a9, fun u => ?_⟩
  obtain ⟨x, hx⟩ := ac u
  obtain ⟨y, hy⟩ := bc u
  exact ⟨y, by rw [hy, hx]⟩

theorem raise (h : s.voiceKeeps t) (e : FatalError) : s.voiceKeeps (t.raise e) := by
  simpa [State.voiceKeeps] using h

theorem setVoice (h : s.voiceKeeps t) (n : LaneIx) (x : Voice) : s.voiceKeeps (t.setVoice n x) := by
  simpa [State.voiceKeeps] using h

theorem setVolume (h : s.voiceKeeps t) (n : LaneIx) (q : BitVec 7) : s.voiceKeeps (t.setVolume n q) := by
  simpa [State.voiceKeeps] using h

theorem writeCnt (h : s.voiceKeeps t) (n : LaneIx) (v : Word) : s.voiceKeeps (t.writeCnt n v) := by
  simpa [State.voiceKeeps] using h

theorem writeTmr (h : s.voiceKeeps t) (n : LaneIx) (v : Half) : s.voiceKeeps (t.writeTmr n v) := by
  obtain ⟨a1, a2, a3, a4, a5, a6, a7, a8, a9, ac⟩ := h
  refine ⟨by simpa, by simpa, by simpa, by simpa, by simpa, by simpa, by simpa, by simpa, by simpa, fun u => ?_⟩
  obtain ⟨x, hx⟩ := ac u
  rw [State.cap_writeTmr]
  split
  · exact ⟨v, by rw [hx]⟩
  · exact ⟨x, hx⟩

theorem programLane (h : s.voiceKeeps t) (n : LaneIx) (rt : ResolvedTimbre) (pan : Nat) (src : Word) (lw : Half)
    (len : BitVec 21) (q : BitVec 7) (r : Option Half) : s.voiceKeeps (t.programLane n rt pan src lw len q r) := by
  have regs : s.voiceKeeps (t.programRegs n src lw len r) := by
    unfold State.programRegs
    have tail : ∀ t' : State, s.voiceKeeps t' →
        s.voiceKeeps (((t'.writeSad n src).writePnt n lw).writeLen n (len.setWidth 32)) := fun t' h => by
      simpa [State.voiceKeeps, State.cap, State.writeSad, State.writePnt, State.writeLen] using h
    cases r with
    | none => exact tail _ (h.writeCnt n 0)
    | some r => exact tail _ ((h.writeCnt n 0).writeTmr n r)
  exact regs.writeCnt n _

theorem andThen (h : s.voiceKeeps t) {f : State → State} (hf : s.voiceKeeps t → s.voiceKeeps (f t)) :
    s.voiceKeeps (t.andThen f) := by
  rcases State.andThen_cases t f with ⟨-, e⟩ | ⟨-, e⟩ <;> rw [e]
  exacts [hf h, h]

theorem trigger (h : s.voiceKeeps t) (ev : Event) : s.voiceKeeps (t.trigger ev).2 := by
  unfold State.trigger State.triggerWith State.reqch
  split
  · rename_i heq
    split at heq <;> simp only [Prod.mk.injEq, reduceCtorEq, false_and, true_and] at heq
    rw [← heq]; exact h.raise _
  · rename_i heq
    split at heq <;> simp only [Prod.mk.injEq, reduceCtorEq, false_and] at heq
    rename_i n _
    obtain ⟨-, rfl⟩ := heq
    have h := h.setVoice n .withheld
    unfold State.populate
    split
    · exact h.raise _
    · split
      · split
        · exact h.raise _
        · exact (h.setVoice _ _).programLane ..
      all_goals exact h.raise _

theorem retrigger (segs : List (Nat × SampleSeg)) {t : State} (h : s.voiceKeeps t) (n : LaneIx) (rt : ResolvedTimbre)
    (pan : Nat) : s.voiceKeeps (t.retrigger n rt pan segs) := by
  induction segs generalizing t with
  | nil => exact h
  | cons p segs ih => exact (h.programLane ..).andThen fun h => ih h

theorem evalUsed (h : s.voiceKeeps t) (n : LaneIx) (vt : Nat) : s.voiceKeeps (t.evalUsed n vt) := by
  have pitch : s.voiceKeeps (t.evalPitch n vt) :=
    t.onUsed_holds n h fun u _ => by
      split
      · exact h
      · exact (h.writeTmr _ _).setVoice _ _
  have samples : s.voiceKeeps ((t.evalPitch n vt).evalSamples n vt) :=
    (t.evalPitch n vt).onUsed_holds n pitch fun u _ => (retrigger _ pitch n _ _).andThen fun h => h.setVoice _ _
  refine samples.andThen fun h => ?_
  have volume := State.onUsed_holds _ n h (f := fun u =>
      if u.completed then _ else State.applyEnv _ n u (envEval u.env ((vt - u.segStart) * Config.envTimeScale)))
    fun u _ => by
      split
      · exact h
      · exact (h.setVoice _ _).setVolume _ _
  refine State.onUsed_holds _ n volume fun u _ => ?_
  split
  · split
    · split
      · exact (volume.setVoice _ _).setVolume _ _
      · exact (volume.setVoice _ _).setVolume _ _
    · exact (volume.setVolume _ _).setVoice _ _
  · exact volume

theorem evalVoice (h : s.voiceKeeps t) (n : LaneIx) : s.voiceKeeps (t.evalVoice n) := by
  unfold State.evalVoice
  split
  · split
    exacts [h.evalUsed n _, h]
  · split
    · unfold State.evalFreeing
      dsimp only
      split
      exacts [(h.setVolume _ _).setVoice _ _, (h.setVoice _ _).setVolume _ _]
    · exact h
  all_goals exact h

theorem engine (h : s.voiceKeeps t) : s.voiceKeeps t.engine := by
  have voices : ∀ (ns : List LaneIx) (t : State), s.voiceKeeps t → s.voiceKeeps (t.evalVoices ns) := by
    intro ns
    induction ns with
    | nil => intro t h; exact h
    | cons n ns ih => intro t h; exact (h.evalVoice n).andThen fun h => ih _ h
  exact voices _ t h

end State.voiceKeeps

/-- TRIGGER leaves the tick and the pending events alone (R320). -/
theorem State.trigger_events (s : State) (ev : Event) :
    (s.trigger ev).2.events = s.events ∧ (s.trigger ev).2.tick = s.tick :=
  have h := (State.voiceKeeps.refl s).trigger ev
  ⟨h.1, h.2.1⟩

/-- The engine leaves the tick and the pending events alone (R348). -/
theorem State.engine_events (s : State) : s.engine.events = s.events ∧ s.engine.tick = s.tick :=
  have h := (State.voiceKeeps.refl s).engine
  ⟨h.1, h.2.1⟩

/-- DISPATCH can change the event list, and what the voice engine can change (R382). -/
theorem State.dispatch_keeps (s : State) : ({ s with events := s.dispatch.events } : State).voiceKeeps s.dispatch := by
  have go : ∀ (events : List Event) (t : State),
      ({ t with events := (t.dispatchFrom events).events } : State).voiceKeeps (t.dispatchFrom events) := by
    intro events
    induction events with
    | nil => intro t; exact State.voiceKeeps.refl t
    | cons ev rest ih =>
      intro t
      unfold State.dispatchFrom
      split
      · have h1 := (State.voiceKeeps.refl ({ t with events := rest } : State)).trigger ev
        rcases State.andThen_cases (({ t with events := rest } : State).trigger ev).2
          (fun s => s.dispatchFrom rest) with ⟨-, e⟩ | ⟨-, e⟩ <;> rw [e]
        · obtain ⟨a1, a2, a3, a4, a5, a6, a7, a8, a9, ac⟩ := h1
          obtain ⟨b1, b2, b3, b4, b5, b6, b7, b8, b9, bc⟩ := ih (({ t with events := rest } : State).trigger ev).2
          refine ⟨rfl, b2.trans a2, b3.trans a3, b4.trans a4, b5.trans a5, b6.trans a6, b7.trans a7, b8.trans a8,
            b9.trans a9, fun u => ?_⟩
          obtain ⟨x, hx⟩ := ac u
          obtain ⟨y, hy⟩ := bc u
          exact ⟨y, hy.trans (by
            show { State.cap _ u with tmr := y } = _
            rw [show ({ (({ t with events := rest } : State).trigger ev).2 with
              events := ((({ t with events := rest } : State).trigger ev).2.dispatchFrom rest).events } : State).cap u =
                (({ t with events := rest } : State).trigger ev).2.cap u from rfl, hx]
            rfl)⟩
        · obtain ⟨-, h⟩ := h1
          exact ⟨rfl, h⟩
      · exact State.voiceKeeps.refl t
  exact go s.events s

/-- What a mix leaves alone. -/
def State.mixKeeps (s t : State) : Prop :=
  t.events = s.events ∧ t.tick = s.tick ∧ t.voices = s.voices ∧ t.out = s.out ∧ t.emitted = s.emitted ∧
    t.port = s.port ∧ t.soundcnt = s.soundcnt ∧ t.bias = s.bias

theorem State.commitLane_keeps {s t : State} (n : LaneIx) (r : LaneOut) (x : Int) (h : s.mixKeeps t) :
    s.mixKeeps ((t.commitLane n r).andThen fun s => s.setLaneValue n x) := by
  refine Closed.andThen (P := s.mixKeeps) (by simpa [State.mixKeeps] using h) fun _ h => ?_
  simpa [State.mixKeeps] using h

theorem State.runLane_keeps {s t : State} (n : LaneIx) (h : s.mixKeeps t) : s.mixKeeps (t.runLane n) := by
  unfold State.runLane
  dsimp only
  split
  · exact State.commitLane_keeps n _ _ h
  · simpa [State.mixKeeps] using h

/-- A mix leaves the tick, the pending events, the voices, the output pair and what was emitted alone (R240). -/
theorem State.runMix_keeps (s : State) : s.mixKeeps s.runMix := by
  have lanes : ∀ ns t, s.mixKeeps t → s.mixKeeps (t.runLanes ns) := by
    intro ns
    induction ns with
    | nil => intro t h; exact h
    | cons n ns ih => intro t h; exact Closed.andThen (State.runLane_keeps n h) fun _ h => ih _ h
  have feed : ∀ t u, s.mixKeeps t → s.mixKeeps (t.feedCap u) := by
    intro t u h
    unfold State.feedCap
    dsimp only
    split
    · simpa [State.mixKeeps, State.runCap] using h
    · exact h
  have select : ∀ t side, s.mixKeeps t → s.mixKeeps (t.outputSelect side) := by
    intro t side h
    unfold State.outputSelect
    split <;> simpa [State.mixKeeps, State.outMixer, State.outCh1, State.outCh3, State.outCh1Ch3] using h
  unfold State.runMix
  dsimp only
  split
  · refine Closed.andThen (lanes _ _ (by simp [State.mixKeeps])) fun _ h => ?_
    refine Closed.andThen ?_ fun _ h => select _ _ (select _ _ h)
    exact Closed.andThen (feed _ _ h) fun _ h => feed _ _ h
  · simp [State.mixKeeps]

/-- DISPATCH ends with no event due, unless it was abandoned, and leaves the tick alone (R382). -/
theorem State.dispatchFrom_spec (events : List Event) (s : State) (h : s.events = events) :
    (s.dispatchFrom events).tick = s.tick ∧
      ((s.dispatchFrom events).fatal = none →
        (s.dispatchFrom events).events = events.dropWhile fun ev => ev.tick = s.tick) := by
  induction events generalizing s with
  | nil => exact ⟨rfl, fun _ => h⟩
  | cons ev rest ih =>
    unfold State.dispatchFrom
    split
    · rename_i hd
      have ht := ({ s with events := rest } : State).trigger_events ev
      rcases State.andThen_cases (({ s with events := rest } : State).trigger ev).2
        (fun s => s.dispatchFrom rest) with ⟨-, e⟩ | ⟨hf, e⟩ <;> rw [e]
      · have := ih (({ s with events := rest } : State).trigger ev).2 ht.1
        rw [ht.2] at this
        exact ⟨this.1, fun hl => by rw [this.2 hl, List.dropWhile_cons_of_pos (by simpa using hd)]⟩
      · exact ⟨ht.2, fun hl => by simp [hl] at hf⟩
    · rename_i hd
      exact ⟨rfl, fun _ => by rw [h, List.dropWhile_cons_of_neg (by simpa using hd)]⟩

namespace Closed

variable {P : State → Prop} (c : Closed P)
include c

theorem dispatchFrom (events : List Event) (s : State) (he : s.events = events) (hl : s.fatal = none) (h : P s) :
    P (s.dispatchFrom events) := by
  induction events generalizing s with
  | nil => exact h
  | cons ev rest ih =>
    unfold State.dispatchFrom
    split
    · exact andThen (c.trigger _ _ (by exact hl) (c.pop _ ev rest hl he h)) fun hl h =>
        ih _ (State.trigger_events _ _).1 hl h
    · exact h

theorem outputTick (s : State) (hl : s.fatal = none) (h : P s) : P s.outputTick := by
  have hd := s.dispatchFrom_spec s.events rfl
  have he : ∀ t : State, t.events = s.events.dropWhile (fun ev => ev.tick = s.tick) → t.tick = s.tick →
      ∀ ev rest, t.events = ev :: rest → ev.tick ≠ t.tick := by
    intro t h1 h2 ev rest h3 h4
    rw [h1] at h3
    have := List.head?_dropWhile_not (fun ev : Event => decide (ev.tick = s.tick)) s.events
    rw [h3] at this
    simp [h4, h2] at this
  unfold State.outputTick
  refine andThen (c.dispatchFrom _ _ rfl hl h) fun hl1 h => ?_
  refine andThen (c.engine _ hl1 h) fun hl2 h => ?_
  refine andThen (c.runMix _ hl2 h) fun hl3 h => ?_
  obtain ⟨m1, m2, -⟩ := s.dispatch.engine.runMix_keeps
  obtain ⟨e1, e2⟩ := s.dispatch.engine_events
  exact c.finish _ hl3 (he _ (m1.trans (e1.trans (hd.2 hl1))) (m2.trans (e2.trans hd.1))) h

/-! ### Operations and steps -/

/-- Every operation keeps a closed predicate. -/
theorem exec (i : Instr) (s t : State) (h : P s) (he : exec i s = .next t) : P t := by
  have go : ∀ f : State → State, (s.fatal = none → P s → P (f s)) → (Host.Outcome.next (s.andThen f) : Result) = .next t → P t := by
    intro f hf he
    simp only [Host.Outcome.next.injEq] at he
    rw [← he]
    exact andThen h hf
  cases i with
  | reset =>
    simp only [Machine.exec, execReset, Host.Outcome.next.injEq] at he
    rw [← he]; exact c.reset _ h
  | step => exact go _ (fun hl h => c.outputTick _ hl h) he
  | memw a b =>
    refine go _ (fun hl h => ?_) he
    unfold State.hostWrite
    rw [memWrite_one]
    split
    · rename_i heq; exact c.raise _ _ hl h
    · rename_i m heq
      split at heq
      · rename_i hm
        simp only [Except.ok.injEq] at heq
        rw [← heq]; exact c.write _ _ _ hl hm h
      · simp at heq
  | loadEvents evs =>
    refine go _ (fun hl h => ?_) he
    unfold State.loadEvents
    split
    · exact c.raise _ _ hl h
    · rename_i hf; exact c.load _ _ hl hf h
  | trigger ev => exact go _ (fun hl h => c.returning _ _ (c.trigger _ _ hl h)) he
  | reqch category track => exact go _ (fun hl h => c.returning _ _ (c.reqch _ _ _ hl h)) he
  | populate n ev rt => exact go _ (fun hl h => c.populate _ _ _ _ hl h) he
  | release track tick => exact go _ (fun hl h => c.release _ _ _ hl h) he
  | wr8 a v => exact go _ (fun hl h => c.busWrite8 _ _ _ hl h) he
  | wr16 a v => exact go _ (fun hl h => c.busWrite16 _ _ _ hl h) he
  | wr32 a v => exact go _ (fun hl h => c.busWrite32 _ _ _ hl h) he
  | chCnt n v => exact go _ (fun hl h => c.cnt _ _ _ hl h) he
  | chSad n v => exact go _ (fun hl h => c.sad _ _ _ hl h) he
  | chTmr n v => exact go _ (fun hl h => c.tmr _ _ _ hl h) he
  | chPnt n v => exact go _ (fun hl h => c.pnt _ _ _ hl h) he
  | chLen n v => exact go _ (fun hl h => c.len _ _ _ hl h) he
  | soundcnt v => exact go _ (fun hl h => c.soundcnt _ _ hl h) he
  | soundbias v => exact go _ (fun hl h => c.soundbias _ _ hl h) he
  | sndcap0cnt v => exact go _ (fun hl h => c.capCnt _ _ _ hl h) he
  | sndcap1cnt v => exact go _ (fun hl h => c.capCnt _ _ _ hl h) he
  | sndcap0dad v => exact go _ (fun hl h => c.capDad _ _ _ hl h) he
  | sndcap0len v => exact go _ (fun hl h => c.capLen _ _ _ hl h) he
  | sndcap1dad v => exact go _ (fun hl h => c.capDad _ _ _ hl h) he
  | sndcap1len v => exact go _ (fun hl h => c.capLen _ _ _ hl h) he
  | genPcm8 n => exact go _ (fun hl h => c.gen _ n .pcm8 hl h) he
  | genPcm16 n => exact go _ (fun hl h => c.gen _ n .pcm16 hl h) he
  | genAdpcm n => exact go _ (fun hl h => c.gen _ n .adpcm hl h) he
  | genPsg n d => exact go _ (fun hl h => c.psg _ n d hl h) he
  | genNoise n => exact go _ (fun hl h => c.gen _ n .noise hl h) he
  | genNone n => exact go _ (fun hl h => c.mix _ _ hl h) he
  | genOff n => exact go _ (fun hl h => c.mix _ _ hl h) he
  | capPcm16 u o => exact go (fun s => s.runCap u false o) (fun hl h => c.cap _ u false o hl h) he
  | capPcm8 u o => exact go (fun s => s.runCap u true o) (fun hl h => c.cap _ u true o hl h) he
  | outMixer side => exact go _ (fun hl h => c.setOutput _ _ _ hl h) he
  | outCh1 side => exact go _ (fun hl h => c.setOutput _ _ _ hl h) he
  | outCh3 side => exact go _ (fun hl h => c.setOutput _ _ _ hl h) he
  | outCh1Ch3 side => exact go _ (fun hl h => c.setOutput _ _ _ hl h) he

/-- Every step keeps a closed predicate. -/
theorem step (s t : State) (h : P s) (he : step s = .next t) : P t := by
  unfold Machine.step at he
  split at he
  · simp only [Host.Outcome.next.injEq] at he
    rw [← he]; exact h
  · rename_i item rest _
    have hp := c.port s rest h
    split at he
    · exact c.exec _ _ _ hp he
    · simp only [Host.Outcome.next.injEq] at he
      rw [← he]
      have raise : ∀ (s : State) e, P s → P (s.raise e) := by
        intro s e h
        cases hl : s.fatal with
        | none => exact c.raise _ _ hl h
        | some e' => rw [State.raise_fatal_of_set hl]; exact h
      unfold State.rejected
      split
      exacts [raise _ _ hp, raise _ _ hp, hp]

end Closed

end Sys2Proof.Machine
end

