-- ==== Sys2Proof/Laws/Reals.lean ====
section
/-!
SUPPORT. The real arithmetic: what an expression denotes, that the two questions about expressions are answered for what
they denote, and that the functions R12 speaks of are among those the model allows.
-/

namespace Sys2Proof

open Config

/-- What the named properties alone make rational has that value whatever the functions are. -/
theorem RealNum.rational?_val (I : RealInterp) (x : RealNum) (q : Rat) (h : x.rational? = some q) : I.val x = q := by
  induction x generalizing q with
  | rat p => simp only [RealNum.rational?, Option.some.injEq] at h; subst h; rfl
  | add x y hx hy | sub x y hx hy | mul x y hx hy =>
    simp only [RealNum.rational?, Option.bind_eq_some_iff, Option.map_eq_some_iff] at h
    obtain ⟨p, hp, p', hp', rfl⟩ := h
    simp [RealInterp.val, hx p hp, hy p' hp']
  | div x y hx hy =>
    simp only [RealNum.rational?, Option.bind_eq_some_iff, Option.ite_none_left_eq_some, Option.some.injEq] at h
    obtain ⟨p, hp, p', hp', h0, rfl⟩ := h
    simp [RealInterp.val, hx p hp, hy p' hp', h0]
  | exp x hx =>
    simp only [RealNum.rational?, Option.bind_eq_some_iff, Option.ite_none_right_eq_some, Option.some.injEq] at h
    obtain ⟨p, hp, rfl, rfl⟩ := h
    simp [RealInterp.val, hx 0 hp, I.exp_zero]
  | pow2 x hx =>
    simp only [RealNum.rational?, Option.bind_eq_some_iff, Option.ite_none_right_eq_some, Option.some.injEq] at h
    obtain ⟨p, hp, rfl, rfl⟩ := h
    simp [RealInterp.val, hx 0 hp, I.pow2_zero]
  | pow x n hx =>
    simp only [RealNum.rational?, Option.map_eq_some_iff] at h
    obtain ⟨p, hp, rfl⟩ := h
    simp [RealInterp.val, hx p hp]
  | named _ | geomRatio | geomSbRatio | pitchTimer | ln _ _ => simp [RealNum.rational?] at h

/-- The comparison of two expressions is that of the reals they denote. -/
theorem realLe_iff (x y : RealNum) : realLe x y = true ↔ x.val ≤ y.val := by
  unfold realLe
  split
  · rename_i p q hp hq
    rw [RealNum.val, RealNum.val, x.rational?_val _ p hp, y.rational?_val _ q hq, decide_eq_true_eq, Rat.cast_le]
  · exact (Classical.choose_spec realOracle.right).1 x y

/-- The comparison fails where the other order is strict. -/
theorem realLe_eq_false (x y : RealNum) : realLe x y = false ↔ y.val < x.val := by
  rw [← not_le, ← realLe_iff, Bool.not_eq_true]

/-- The floor of an expression is that of the real it denotes. -/
theorem realFloor_eq (x : RealNum) : realFloor x = ⌊x.val⌋ := by
  unfold realFloor
  split
  · rename_i p hp
    rw [RealNum.val, x.rational?_val _ p hp, Rat.floor_cast]; rfl
  · exact (Classical.choose_spec realOracle.right).2 x

@[simp] theorem RealNum.val_rat (q : Rat) : (RealNum.rat q).val = q := rfl
@[simp] theorem RealNum.val_nat (n : Nat) : (realNat n).val = n := by simp [realNat]
@[simp] theorem RealNum.val_geomRatio : RealNum.geomRatio.val = realInterp.geomRatio := rfl
@[simp] theorem RealNum.val_geomSbRatio : RealNum.geomSbRatio.val = realInterp.geomSbRatio := rfl
@[simp] theorem RealNum.val_pitchTimer : RealNum.pitchTimer.val = realInterp.pitchTimer := rfl
@[simp] theorem RealNum.val_add (x y : RealNum) : (RealNum.add x y).val = x.val + y.val := rfl
@[simp] theorem RealNum.val_sub (x y : RealNum) : (RealNum.sub x y).val = x.val - y.val := rfl
@[simp] theorem RealNum.val_mul (x y : RealNum) : (RealNum.mul x y).val = x.val * y.val := rfl
@[simp] theorem RealNum.val_exp (x : RealNum) : (RealNum.exp x).val = realInterp.exp x.val := rfl
@[simp] theorem RealNum.val_ln (x : RealNum) : (RealNum.ln x).val = realInterp.ln x.val := rfl
@[simp] theorem RealNum.val_pow2 (x : RealNum) : (RealNum.pow2 x).val = realInterp.pow2 x.val := rfl
@[simp] theorem RealNum.val_pow (x : RealNum) (n : Nat) : (RealNum.pow x n).val = x.val ^ n := rfl

/-- A quotient by zero is free; any other is the quotient. -/
@[simp] theorem RealNum.val_div (x y : RealNum) :
    (RealNum.div x y).val = if y.val = 0 then realInterp.byZero x.val else x.val / y.val := rfl

/-- The real exponential, natural logarithm and base-2 power, with any OPEN reals in their ranges and any named reals, are
among the functions the model allows (R12). -/
theorem real_functions_allowed (named : Nat → ℝ) (g g' p : ℝ) (hg : 0 < g ∧ g < 1) (hg' : 0 < g' ∧ g' < 1) (hp : 0 < p) :
    ∃ I : RealInterp, I.exp = Real.exp ∧ I.ln = Real.log ∧ (I.pow2 = fun x => (2 : ℝ) ^ x) ∧ I.named = named ∧
      I.geomRatio = g ∧ I.geomSbRatio = g' ∧ I.pitchTimer = p :=
  ⟨{ exp := Real.exp, ln := Real.log, pow2 := fun x => (2 : ℝ) ^ x, named := named, geomRatio := g, geomSbRatio := g',
     pitchTimer := p, byZero := fun _ => 0, exp_zero := Real.exp_zero, exp_strictMono := fun _ _ h => Real.exp_lt_exp.2 h,
     exp_ln := fun _ h => Real.exp_log h, pow2_zero := Real.rpow_zero 2, geomRatio_mem := hg, geomSbRatio_mem := hg',
     pitchTimer_pos := hp }, rfl, rfl, rfl, rfl, rfl, rfl, rfl⟩

/-- Every interpretation has an oracle, so any of them may be the machine's. -/
theorem every_interp_has_an_oracle (I : RealInterp) :
    ∃ o : RealOracle, (∀ x y, o.le x y = true ↔ I.val x ≤ I.val y) ∧ ∀ x, o.floor x = ⌊I.val x⌋ := by
  classical
  exact ⟨{ le := fun x y => decide (I.val x ≤ I.val y), floor := fun x => ⌊I.val x⌋,
           right := ⟨I, by simp, by simp⟩ }, by simp, by simp⟩

end Sys2Proof
end

