-- ==== Sys2Proof/Laws/Envelopes.lean ====
section
/-!
SUPPORT. What the envelope arithmetic denotes, and the halving loop of VOLQ.
-/

namespace Sys2Proof.Machine

/-- With as many turns as the number itself, the halving of R338 ends at 127 or below. -/
theorem downShift_le (k q : Nat) (h : q ≤ k) : downShift k q ≤ 127 := by
  induction k generalizing q with
  | zero =>
    obtain rfl : q = 0 := by omega
    simp [downShift]
  | succ k ih =>
    unfold downShift; split
    · exact ih _ (by omega)
    · omega

theorem downShift_small (k q : Nat) (h : q ≤ 127) : downShift k q = q := by
  cases k with
  | zero => rfl
  | succ k => unfold downShift; rw [if_neg (by omega)]

/-- Turns beyond the number itself change nothing. -/
theorem downShift_fuel (k k' q : Nat) (h : q ≤ k) (h' : q ≤ k') : downShift k q = downShift k' q := by
  induction k generalizing q k' with
  | zero => rw [downShift_small _ _ (by omega), downShift_small _ _ (by omega)]
  | succ k ih =>
    by_cases hq : q > 127
    · obtain ⟨k', rfl⟩ : ∃ x, k' = x + 1 := ⟨k' - 1, by omega⟩
      unfold downShift; rw [if_pos hq, if_pos hq]; exact ih _ _ (by omega) (by omega)
    · rw [downShift_small _ _ (by omega), downShift_small _ _ (by omega)]

end Sys2Proof.Machine
end

