-- ==== Sys2Proof/Laws/PerInstr.lean ====
section
/-!
SUPPORT. The family RowPattern: what `encode` presents for an operation lies in the pattern (format, match and mask) of
that operation's row of spec/opcode_table.json.
-/

namespace Sys2Proof.Laws.RowPattern

/-- The formats of the table's rows. -/
inductive Format where
  | cmd
  | buswr8
  | buswr16
  | buswr32
  | selCnt
  | selCap
  | selOut
  deriving DecidableEq, Repr

/-- A row of the table: the bits of its word under `mask` are those of `pattern`. -/
structure Row where
  format : Format
  pattern : Nat
  mask : Nat
  deriving DecidableEq, Repr

/-- The row of an operation, written from the table. -/
def row : Instr → Row
  | .reset => ⟨.cmd, 0x00, 0xFF⟩
  | .step => ⟨.cmd, 0x01, 0xFF⟩
  | .memw _ _ => ⟨.cmd, 0x02, 0xFF⟩
  | .loadEvents _ => ⟨.cmd, 0x03, 0xFF⟩
  | .trigger _ => ⟨.cmd, 0x04, 0xFF⟩
  | .reqch _ _ => ⟨.cmd, 0x05, 0xFF⟩
  | .populate _ _ _ => ⟨.cmd, 0x06, 0xFF⟩
  | .release _ _ => ⟨.cmd, 0x07, 0xFF⟩
  | .wr8 _ _ => ⟨.cmd, 0x10, 0xFF⟩
  | .wr16 _ _ => ⟨.cmd, 0x11, 0xFF⟩
  | .wr32 _ _ => ⟨.cmd, 0x12, 0xFF⟩
  | .chCnt _ _ => ⟨.buswr32, 0x04000400, 0xFFFFFF0F⟩
  | .chSad _ _ => ⟨.buswr32, 0x04000404, 0xFFFFFF0F⟩
  | .chTmr _ _ => ⟨.buswr16, 0x04000408, 0xFFFFFF0F⟩
  | .chPnt _ _ => ⟨.buswr16, 0x0400040A, 0xFFFFFF0F⟩
  | .chLen _ _ => ⟨.buswr32, 0x0400040C, 0xFFFFFF0F⟩
  | .soundcnt _ => ⟨.buswr16, 0x04000500, 0xFFFFFFFF⟩
  | .soundbias _ => ⟨.buswr16, 0x04000504, 0xFFFFFFFF⟩
  | .sndcap0cnt _ => ⟨.buswr8, 0x04000508, 0xFFFFFFFF⟩
  | .sndcap1cnt _ => ⟨.buswr8, 0x04000509, 0xFFFFFFFF⟩
  | .sndcap0dad _ => ⟨.buswr32, 0x04000510, 0xFFFFFFFF⟩
  | .sndcap0len _ => ⟨.buswr16, 0x04000514, 0xFFFFFFFF⟩
  | .sndcap1dad _ => ⟨.buswr32, 0x04000518, 0xFFFFFFFF⟩
  | .sndcap1len _ => ⟨.buswr16, 0x0400051C, 0xFFFFFFFF⟩
  | .genPcm8 _ => ⟨.selCnt, 0x80000000, 0xE0000000⟩
  | .genPcm16 _ => ⟨.selCnt, 0xA0000000, 0xE0000000⟩
  | .genAdpcm _ => ⟨.selCnt, 0xC0000000, 0xE0000000⟩
  | .genPsg _ _ => ⟨.selCnt, 0xE0000000, 0xE0000000⟩
  | .genNoise _ => ⟨.selCnt, 0xE0000000, 0xE0000000⟩
  | .genNone _ => ⟨.selCnt, 0xE0000000, 0xE0000000⟩
  | .genOff _ => ⟨.selCnt, 0x00000000, 0x80000000⟩
  | .capPcm16 _ _ => ⟨.selCap, 0x80, 0x88⟩
  | .capPcm8 _ _ => ⟨.selCap, 0x88, 0x88⟩
  | .outMixer _ => ⟨.selOut, 0x8000, 0x8300⟩
  | .outCh1 _ => ⟨.selOut, 0x8100, 0x8300⟩
  | .outCh3 _ => ⟨.selOut, 0x8200, 0x8300⟩
  | .outCh1Ch3 _ => ⟨.selOut, 0x8300, 0x8300⟩

/-- The format and the word, in the table's numbering, of what is presented. The table shows SEL_OUT for the left side; the
right side has its select bits 11:10 where the left has 9:8 (R125). -/
def word : PortItem → Format × Nat
  | .command opcode _ => (.cmd, opcode.toNat)
  | .bus8 addr _ => (.buswr8, addr.toNat)
  | .bus16 addr _ => (.buswr16, addr.toNat)
  | .bus32 addr _ => (.buswr32, addr.toNat)
  | .selCnt _ cnt => (.selCnt, cnt.toNat)
  | .selCap _ cnt => (.selCap, cnt.toNat)
  | .selOut .left soundcnt => (.selOut, soundcnt.toNat)
  | .selOut .right soundcnt => (.selOut, (soundcnt &&& 0x8000).toNat + ((soundcnt &&& 0x0C00) >>> 2).toNat)

/-- What is presented lies in a row. -/
abbrev fits (item : PortItem) (r : Row) : Prop := (word item).1 = r.format ∧ (word item).2 &&& r.mask = r.pattern

/-- What `encode` presents for an operation lies in its row. -/
def Statement (i : Instr) : Prop := fits (encode i) (row i)

theorem reset : Statement .reset := ⟨rfl, rfl⟩

theorem step : Statement .step := ⟨rfl, rfl⟩

theorem memw (addr : Word) (byte : Byte) : Statement (.memw addr byte) :=
  ⟨rfl, by simp [word, encode, row]⟩

theorem loadEvents (events : List Event) : Statement (.loadEvents events) :=
  ⟨rfl, by simp [word, encode, row]⟩

theorem trigger (ev : Event) : Statement (.trigger ev) :=
  ⟨rfl, by simp [word, encode, row]⟩

theorem reqch (category : Category) (track : Nat) : Statement (.reqch category track) :=
  ⟨rfl, by simp [word, encode, row]⟩

theorem populate (lane : Int) (ev : Event) (rt : ResolvedTimbre) : Statement (.populate lane ev rt) :=
  ⟨rfl, by simp [word, encode, row]⟩

theorem release (track : Nat) (tick : Nat) : Statement (.release track tick) :=
  ⟨rfl, by simp [word, encode, row]⟩

theorem wr8 (addr : Word) (value : Byte) : Statement (.wr8 addr value) :=
  ⟨rfl, by simp [word, encode, row]⟩

theorem wr16 (addr : Word) (value : Half) : Statement (.wr16 addr value) :=
  ⟨rfl, by simp [word, encode, row]⟩

theorem wr32 (addr : Word) (value : Word) : Statement (.wr32 addr value) :=
  ⟨rfl, by simp [word, encode, row]⟩

theorem chCnt (n : LaneIx) (value : Word) : Statement (.chCnt n value) := by
  show fits (encode (.chCnt n 0)) (row (.chCnt n 0))
  revert n; decide

theorem chSad (n : LaneIx) (value : Word) : Statement (.chSad n value) := by
  show fits (encode (.chSad n 0)) (row (.chSad n 0))
  revert n; decide

theorem chTmr (n : LaneIx) (value : Half) : Statement (.chTmr n value) := by
  show fits (encode (.chTmr n 0)) (row (.chTmr n 0))
  revert n; decide

theorem chPnt (n : LaneIx) (value : Half) : Statement (.chPnt n value) := by
  show fits (encode (.chPnt n 0)) (row (.chPnt n 0))
  revert n; decide

theorem chLen (n : LaneIx) (value : Word) : Statement (.chLen n value) := by
  show fits (encode (.chLen n 0)) (row (.chLen n 0))
  revert n; decide

theorem soundcnt (value : Half) : Statement (.soundcnt value) :=
  ⟨rfl, by simp [word, encode, row, Config.addrSoundcnt]⟩

theorem soundbias (value : Half) : Statement (.soundbias value) :=
  ⟨rfl, by simp [word, encode, row, Config.addrSoundbias]⟩

theorem sndcap0cnt (value : Byte) : Statement (.sndcap0cnt value) :=
  ⟨rfl, by simp [word, encode, row, Config.addrCapCnt]⟩

theorem sndcap1cnt (value : Byte) : Statement (.sndcap1cnt value) :=
  ⟨rfl, by simp [word, encode, row, Config.addrCapCnt]⟩

theorem sndcap0dad (value : Word) : Statement (.sndcap0dad value) :=
  ⟨rfl, by simp [word, encode, row, Config.addrCapDad]⟩

theorem sndcap0len (value : Half) : Statement (.sndcap0len value) :=
  ⟨rfl, by simp [word, encode, row, Config.addrCapLen]⟩

theorem sndcap1dad (value : Word) : Statement (.sndcap1dad value) :=
  ⟨rfl, by simp [word, encode, row, Config.addrCapDad]⟩

theorem sndcap1len (value : Half) : Statement (.sndcap1len value) :=
  ⟨rfl, by simp [word, encode, row, Config.addrCapLen]⟩

theorem genPcm8 (n : LaneIx) : Statement (.genPcm8 n) :=
  ⟨rfl, by simp [word, encode, row]⟩

theorem genPcm16 (n : LaneIx) : Statement (.genPcm16 n) :=
  ⟨rfl, by simp [word, encode, row]⟩

theorem genAdpcm (n : LaneIx) : Statement (.genAdpcm n) :=
  ⟨rfl, by simp [word, encode, row]⟩

theorem genPsg (n : LaneIx) (duty : BitVec 3) : Statement (.genPsg n duty) := by
  refine ⟨rfl, ?_⟩
  revert duty n; decide

theorem genNoise (n : LaneIx) : Statement (.genNoise n) :=
  ⟨rfl, by simp [word, encode, row]⟩

theorem genNone (n : LaneIx) : Statement (.genNone n) :=
  ⟨rfl, by simp [word, encode, row]⟩

theorem genOff (n : LaneIx) : Statement (.genOff n) :=
  ⟨rfl, by simp [word, encode, row]⟩

theorem capPcm16 (u : CapIx) (oneshot : Bool) : Statement (.capPcm16 u oneshot) := by
  refine ⟨rfl, ?_⟩
  revert oneshot u; decide

theorem capPcm8 (u : CapIx) (oneshot : Bool) : Statement (.capPcm8 u oneshot) := by
  refine ⟨rfl, ?_⟩
  revert oneshot u; decide

theorem outMixer (side : Side) : Statement (.outMixer side) := by
  cases side <;> exact ⟨rfl, rfl⟩

theorem outCh1 (side : Side) : Statement (.outCh1 side) := by
  cases side <;> exact ⟨rfl, rfl⟩

theorem outCh3 (side : Side) : Statement (.outCh3 side) := by
  cases side <;> exact ⟨rfl, rfl⟩

theorem outCh1Ch3 (side : Side) : Statement (.outCh1Ch3 side) := by
  cases side <;> exact ⟨rfl, rfl⟩

end Sys2Proof.Laws.RowPattern
end

