-- ==== Sys2Proof/Laws/Sequence.lean ====
section
/-!
SUPPORT. The order that LOAD_EVENTS asks of a list.
-/

namespace Sys2Proof.Machine

/-- The lists that LOAD_EVENTS takes (R381). -/
theorem firstLate_none (l : List Event) (k : Nat) :
    firstLate k l = none ↔ l.Pairwise (fun a b => a.tick ≤ b.tick) ∧ ∀ ev ∈ l, k ≤ ev.tick := by
  induction l generalizing k with
  | nil => simp [firstLate]
  | cons e l ih =>
    unfold firstLate
    split
    · simp; intro _ _ h; omega
    · rw [ih, List.pairwise_cons]
      constructor
      · rintro ⟨h1, h2⟩
        exact ⟨⟨h2, h1⟩, fun ev h => by rcases List.mem_cons.1 h with rfl | h; omega; have := h2 ev h; omega⟩
      · rintro ⟨⟨h1, h2⟩, h3⟩; exact ⟨h2, h1⟩

/-- The first offending tick of a list that LOAD_EVENTS refuses (R381). -/
theorem firstLate_some (before : List Event) (ev : Event) (after : List Event) (k : Nat)
    (h1 : before.Pairwise (fun a b => a.tick ≤ b.tick)) (h2 : ∀ b ∈ before, k ≤ b.tick)
    (h3 : ev.tick < k ∨ ∃ b ∈ before, ev.tick < b.tick) :
    firstLate k (before ++ ev :: after) = some ev.tick := by
  induction before generalizing k with
  | nil => simp at h3; simp [firstLate, h3]
  | cons b bs ih =>
    rw [List.cons_append]
    unfold firstLate
    have hb := h2 b (by simp)
    rw [if_neg (by omega)]
    rw [List.pairwise_cons] at h1
    apply ih _ h1.2 h1.1
    rcases h3 with h | ⟨c, hc, h⟩
    · left; omega
    · rcases List.mem_cons.1 hc with rfl | hc
      · left; exact h
      · right; exact ⟨c, hc, h⟩

end Sys2Proof.Machine
end

