-- ==== Sys2Proof/Laws/Wire.lean ====
section
/-!
SUPPORT. Reading back what was written: one lemma for each form of an operand record, and the bus addresses.
-/

namespace Sys2Proof.Wire

/-- The reader takes exactly these bytes and answers this value, whatever follows. -/
def Reads {α : Type} (p : Reader α) (bytes : List Byte) (a : α) : Prop := ∀ rest, p (bytes ++ rest) = .ok (a, rest)

theorem Reads.done {α : Type} (a : α) : Reads (Wire.done a) [] a := fun _ => rfl

theorem Reads.andThen {α β : Type} {p : Reader α} {f : α → Reader β} {bs cs : List Byte} {a : α} {b : β}
    (h : Reads p bs a) (h' : Reads (f a) cs b) : Reads (Wire.andThen p f) (bs ++ cs) b := by
  intro rest
  simp only [Wire.andThen, List.append_assoc, h (cs ++ rest)]
  exact h' rest

theorem Reads.mapped {α β : Type} {p : Reader α} {f : α → β} {bs : List Byte} {a : α} (h : Reads p bs a) :
    Reads (Wire.mapped f p) bs (f a) := by
  have := h.andThen (f := fun a => Wire.done (f a)) (Reads.done (f a))
  rwa [List.append_nil] at this

theorem reads_byte (b : Byte) : Reads byte [b] b := fun _ => rfl

theorem reads_leNat (k n : Nat) (h : n < 256 ^ k) : Reads (leNat k) (putLe k n) n := by
  induction k generalizing n with
  | zero =>
    obtain rfl : n = 0 := by simpa using h
    exact Reads.done 0
  | succ k ih =>
    have := (reads_byte (BitVec.ofNat 8 (n % 256))).andThen
      (f := fun b => Wire.mapped (fun hi => b.toNat + 256 * hi) (leNat k))
      ((ih (n / 256) (by rw [Nat.div_lt_iff_lt_mul (by norm_num)]; rwa [pow_succ] at h)).mapped)
    have e : (BitVec.ofNat 8 (n % 256)).toNat + 256 * (n / 256) = n := by
      rw [BitVec.toNat_ofNat]; omega
    rw [e] at this
    exact this

theorem reads_bits {w : Nat} (k : Nat) (v : BitVec w) (h : 2 ^ w ≤ 256 ^ k) : Reads (bits w k) (putLe k v.toNat) v := by
  have := (reads_leNat k v.toNat (lt_of_lt_of_le v.isLt h)).mapped (f := BitVec.ofNat w)
  rwa [BitVec.ofNat_toNat, BitVec.setWidth_eq] at this

theorem reads_groups (fuel n : Nat) (h : n < 128 ∨ n ≤ fuel) : Reads nat (putGroups fuel n) n := by
  induction fuel generalizing n with
  | zero =>
    intro rest
    have hn : n < 128 := by omega
    have e : (BitVec.ofNat 8 n).toNat = n := by rw [BitVec.toNat_ofNat]; omega
    simp only [putGroups, List.singleton_append, nat, e, if_pos hn]
  | succ fuel ih =>
    intro rest
    unfold putGroups
    split
    · rename_i hn
      have e : (BitVec.ofNat 8 n).toNat = n := by rw [BitVec.toNat_ofNat]; omega
      simp only [List.singleton_append, nat, e, if_pos hn]
    · have e : (BitVec.ofNat 8 (n % 128 + 128)).toNat = n % 128 + 128 := by rw [BitVec.toNat_ofNat]; omega
      have := ih (n / 128) (by omega) rest
      rw [List.cons_append, nat, e, if_neg (by omega), this]
      simp only [Except.ok.injEq, Prod.mk.injEq, and_true]
      omega

theorem reads_nat (n : Nat) : Reads nat (putNat n) n := reads_groups n n (.inr le_rfl)

theorem reads_int (z : Int) : Reads int (putInt z) z := by
  cases z with
  | ofNat k =>
    have := (reads_nat (2 * k)).mapped (f := fun z => if z % 2 = 0 then ((z / 2 : Nat) : Int) else Int.negSucc (z / 2))
    rw [if_pos (by omega), show 2 * k / 2 = k by omega] at this
    exact this
  | negSucc k =>
    have := (reads_nat (2 * k + 1)).mapped
      (f := fun z => if z % 2 = 0 then ((z / 2 : Nat) : Int) else Int.negSucc (z / 2))
    rw [if_neg (by omega), show (2 * k + 1) / 2 = k by omega] at this
    exact this

theorem reads_rat (q : Rat) : Reads rat (putRat q) q := by
  have := (reads_int q.num).andThen (f := fun num => Wire.mapped (fun d => mkRat num (d + 1)) nat)
    ((reads_nat (q.den - 1)).mapped)
  rw [Nat.sub_add_cancel q.den_pos, Rat.mkRat_self] at this
  exact this

theorem reads_tag (k t : Nat) (h : t < k) (h' : t < 256) : Reads (tag k) (putTag t) t := by
  intro rest
  have e : (BitVec.ofNat 8 t).toNat = t := by rw [BitVec.toNat_ofNat]; omega
  simp only [tag, Wire.andThen, putTag, List.singleton_append, byte, e, if_pos h]

/-- How many levels an expression has. -/
def depth : RealNum → Nat
  | .rat _ | .named _ | .geomRatio | .geomSbRatio | .pitchTimer => 1
  | .add x y | .sub x y | .mul x y | .div x y => max (depth x) (depth y) + 1
  | .exp x | .ln x | .pow2 x | .pow x _ => depth x + 1

/-- Every level takes a byte. -/
theorem depth_le_length (x : RealNum) : depth x ≤ (putReal x).length := by
  induction x <;> simp_all [depth, putReal, putTag] <;> omega

theorem Reads.binary {f : RealNum → RealNum → RealNum} {p : Reader RealNum} {bs cs : List Byte} {x y : RealNum}
    (hx : Reads p bs x) (hy : Reads p cs y) : Reads (Wire.binary f p) (bs ++ cs) (f x y) := hx.andThen hy.mapped

theorem reads_realUpTo (x : RealNum) (fuel : Nat) (h : depth x ≤ fuel) : Reads (realUpTo fuel) (putReal x) x := by
  induction x generalizing fuel with
  | rat q | named k | geomRatio | geomSbRatio | pitchTimer =>
    obtain ⟨f, rfl⟩ : ∃ f, fuel = f + 1 := ⟨fuel - 1, by simp only [depth] at h; omega⟩
    first
      | exact (reads_tag 13 0 (by norm_num) (by norm_num)).andThen (reads_rat q).mapped
      | exact (reads_tag 13 1 (by norm_num) (by norm_num)).andThen (reads_nat k).mapped
      | exact (reads_tag 13 2 (by norm_num) (by norm_num)).andThen (Reads.done _)
      | exact (reads_tag 13 3 (by norm_num) (by norm_num)).andThen (Reads.done _)
      | exact (reads_tag 13 4 (by norm_num) (by norm_num)).andThen (Reads.done _)
  | add x y hx hy | sub x y hx hy | mul x y hx hy | div x y hx hy =>
    obtain ⟨f, rfl⟩ : ∃ f, fuel = f + 1 := ⟨fuel - 1, by simp only [depth] at h; omega⟩
    have hx := hx f (by simp only [depth] at h; omega)
    have hy := hy f (by simp only [depth] at h; omega)
    first
      | exact (reads_tag 13 5 (by norm_num) (by norm_num)).andThen (hx.binary hy)
      | exact (reads_tag 13 6 (by norm_num) (by norm_num)).andThen (hx.binary hy)
      | exact (reads_tag 13 7 (by norm_num) (by norm_num)).andThen (hx.binary hy)
      | exact (reads_tag 13 8 (by norm_num) (by norm_num)).andThen (hx.binary hy)
  | exp x hx | ln x hx | pow2 x hx =>
    obtain ⟨f, rfl⟩ : ∃ f, fuel = f + 1 := ⟨fuel - 1, by simp only [depth] at h; omega⟩
    have hx := hx f (by simp only [depth] at h; omega)
    first
      | exact (reads_tag 13 9 (by norm_num) (by norm_num)).andThen hx.mapped
      | exact (reads_tag 13 10 (by norm_num) (by norm_num)).andThen hx.mapped
      | exact (reads_tag 13 11 (by norm_num) (by norm_num)).andThen hx.mapped
  | pow x n hx =>
    obtain ⟨f, rfl⟩ : ∃ f, fuel = f + 1 := ⟨fuel - 1, by simp only [depth] at h; omega⟩
    exact (reads_tag 13 12 (by norm_num) (by norm_num)).andThen
      ((hx f (by simp only [depth] at h; omega)).andThen (reads_nat n).mapped)

theorem reads_real (x : RealNum) : Reads real (putReal x) x := fun rest =>
  reads_realUpTo x _ (le_trans (depth_le_length x) (by simp)) rest

theorem reads_items {α : Type} {p : Reader α} {f : α → List Byte} (h : ∀ a, Reads p (f a) a) (as : List α) :
    Reads (items p as.length) (as.flatMap f) as := by
  induction as with
  | nil => exact Reads.done []
  | cons a as ih => exact (h a).andThen ih.mapped

theorem reads_list {α : Type} {p : Reader α} {f : α → List Byte} (h : ∀ a, Reads p (f a) a) (as : List α) :
    Reads (list p) (putList f as) as :=
  (reads_nat as.length).andThen (reads_items h as)

theorem reads_opt {α : Type} {p : Reader α} {f : α → List Byte} (h : ∀ a, Reads p (f a) a) (o : Option α) :
    Reads (opt p) (putOpt f o) o := by
  cases o with
  | none => exact (reads_tag 2 0 (by norm_num) (by norm_num)).andThen (Reads.done none)
  | some a => exact (reads_tag 2 1 (by norm_num) (by norm_num)).andThen (h a).mapped

theorem reads_pair {α β : Type} {p : Reader α} {q : Reader β} {f : α → List Byte} {g : β → List Byte}
    (h : ∀ a, Reads p (f a) a) (h' : ∀ b, Reads q (g b) b) (x : α × β) : Reads (pair p q) (putPair f g x) x :=
  (h x.1).andThen (h' x.2).mapped

theorem reads_category (c : Category) : Reads category (putCategory c) c := by
  cases c
  · exact (reads_tag 3 0 (by norm_num) (by norm_num)).mapped
  · exact (reads_tag 3 1 (by norm_num) (by norm_num)).mapped
  · exact (reads_tag 3 2 (by norm_num) (by norm_num)).mapped

theorem reads_kind (k : EventKind) : Reads kind (putKind k) k := by
  cases k
  · exact (reads_tag 2 0 (by norm_num) (by norm_num)).mapped
  · exact (reads_tag 2 1 (by norm_num) (by norm_num)).mapped

theorem reads_event (ev : Event) : Reads event (putEvent ev) ev :=
  (reads_nat _).andThen ((reads_kind _).andThen ((reads_nat _).andThen ((reads_nat _).andThen
    ((reads_int _).andThen (reads_real _).mapped))))

theorem reads_attack (a : Attack) : Reads attack (putAttack a) a := by
  cases a with
  | linear v d =>
    exact (reads_tag 2 0 (by norm_num) (by norm_num)).andThen ((reads_real v).andThen (reads_nat d).mapped)
  | exactPoints ps =>
    exact (reads_tag 2 1 (by norm_num) (by norm_num)).andThen
      (reads_list (reads_pair reads_nat reads_real) ps).mapped

theorem reads_decay (d : Decay) : Reads decay (putDecay d) d := by
  cases d with
  | linear d => exact (reads_tag 2 0 (by norm_num) (by norm_num)).andThen (reads_nat d).mapped
  | exponential c d =>
    exact (reads_tag 2 1 (by norm_num) (by norm_num)).andThen ((reads_real c).andThen (reads_nat d).mapped)

theorem reads_sustain (s : Sustain) : Reads sustain (putSustain s) s := by
  obtain ⟨v, d⟩ := s
  cases d with
  | inf => exact (reads_real v).andThen (reads_opt reads_nat none).mapped
  | ticks n => exact (reads_real v).andThen (reads_opt reads_nat (some n)).mapped

theorem reads_release (r : Release) : Reads release (putRelease r) r := by
  cases r with
  | basic => exact (reads_tag 7 0 (by norm_num) (by norm_num)).andThen (Reads.done _)
  | geometric => exact (reads_tag 7 1 (by norm_num) (by norm_num)).andThen (Reads.done _)
  | geometricStopBlowing => exact (reads_tag 7 2 (by norm_num) (by norm_num)).andThen (Reads.done _)
  | exponential d f =>
    exact (reads_tag 7 3 (by norm_num) (by norm_num)).andThen ((reads_nat d).andThen (reads_real f).mapped)
  | exponentialUntil d f =>
    exact (reads_tag 7 4 (by norm_num) (by norm_num)).andThen ((reads_nat d).andThen (reads_real f).mapped)
  | staticValue v => exact (reads_tag 7 5 (by norm_num) (by norm_num)).andThen (reads_real v).mapped
  | keepBlowing => exact (reads_tag 7 6 (by norm_num) (by norm_num)).andThen (Reads.done _)

theorem reads_envelope (e : Envelope) : Reads envelope (putEnvelope e) e :=
  (reads_opt reads_attack _).andThen ((reads_opt reads_decay _).andThen ((reads_opt reads_sustain _).andThen
    (reads_opt reads_release _).mapped))

theorem reads_pitch (p : Pitch) : Reads pitch (putPitch p) p := by
  cases p with
  | formula b o =>
    exact (reads_tag 2 0 (by norm_num) (by norm_num)).andThen
      ((reads_bits 2 b (by norm_num)).andThen (reads_real o).mapped)
  | table r =>
    exact (reads_tag 2 1 (by norm_num) (by norm_num)).andThen (reads_bits 2 r (by norm_num)).mapped

theorem reads_sampleSeg (s : SampleSeg) : Reads sampleSeg (putSampleSeg s) s :=
  (reads_bits 4 _ (by norm_num)).andThen ((reads_bits 2 _ (by norm_num)).andThen
    ((reads_bits 3 _ (by norm_num)).andThen (reads_real _).mapped))

theorem reads_timbre (rt : ResolvedTimbre) : Reads timbre (putTimbre rt) rt := by
  obtain ⟨cat, format, src, lw, len, rep, sh, duty, p, env, adj, smp, q⟩ := rt
  have key : ∀ t, t < 2 → (t == 1) = rep → Reads timbre (putCategory cat ++ (putLe 1 format.toNat ++
      (putLe 4 src.toNat ++ (putLe 2 lw.toNat ++ (putLe 3 len.toNat ++ (putTag t ++ (putLe 1 sh.toNat ++
      (putLe 1 duty.toNat ++ (putPitch p ++ (putEnvelope env ++ (putList (putPair putNat putPitch) adj ++
      (putList (putPair putNat putSampleSeg) smp ++ putList (putPair putNat putEnvelope) q))))))))))))
      ⟨cat, format, src, lw, len, rep, sh, duty, p, env, adj, smp, q⟩ := by
    rintro t ht rfl
    exact (reads_category _).andThen ((reads_bits 1 _ (by norm_num)).andThen ((reads_bits 4 _ (by norm_num)).andThen
      ((reads_bits 2 _ (by norm_num)).andThen ((reads_bits 3 _ (by norm_num)).andThen
      ((reads_tag 2 t ht (by omega)).andThen ((reads_bits 1 _ (by norm_num)).andThen
      ((reads_bits 1 _ (by norm_num)).andThen ((reads_pitch _).andThen ((reads_envelope _).andThen
      ((reads_list (reads_pair reads_nat reads_pitch) _).andThen
      ((reads_list (reads_pair reads_nat reads_sampleSeg) _).andThen
      (reads_list (reads_pair reads_nat reads_envelope) _).mapped)))))))))))
  cases rep
  · exact key 0 (by norm_num) rfl
  · exact key 1 (by norm_num) rfl

/-- A command whose operand record reads back decodes to the operation it encodes. -/
theorem decode_command {opcode : Byte} {bytes : List Byte} {i : Instr} (h : Reads (command opcode) bytes i) :
    decode (.command opcode bytes) = .ok i := by
  have := h []
  rw [List.append_nil] at this
  simp only [decode, decodeCommand, this]

end Sys2Proof.Wire

namespace Sys2Proof.Machine

/-- The bus map names each lane register by its address (R111, R121). -/
theorem reg32_laneAddr (n : LaneIx) :
    reg32 (laneAddr n 0x0) = some (.cnt n) ∧ reg32 (laneAddr n 0x4) = some (.sad n) ∧
      reg32 (laneAddr n 0xC) = some (.len n) := by
  revert n; decide

theorem reg16_laneAddr (n : LaneIx) :
    reg16 (laneAddr n 0x8) = some (.tmr n) ∧ reg16 (laneAddr n 0xA) = some (.pnt n) := by
  revert n; decide

/-- The page of an address (R111). -/
theorem toNat_page (a : Word) : (a &&& 0xFFFFFF00).toNat = a.toNat / 256 * 256 := by
  have : a &&& 0xFFFFFF00#32 = (a >>> 8) <<< 8 := by
    ext i hi
    have h : (0xFFFFFF00#32)[i] = decide (8 ≤ i) := by revert i; decide
    rw [BitVec.getElem_and, h]
    simp only [BitVec.getElem_shiftLeft, BitVec.getElem_ushiftRight]
    by_cases h8 : i < 8
    · simp [h8]
    · simp [h8, show 8 + (i - 8) = i by omega, show 8 ≤ i by omega, BitVec.getLsbD_eq_getElem hi]
  rw [show (0xFFFFFF00 : Word) = 0xFFFFFF00#32 from rfl, this]
  have := a.isLt
  simp [BitVec.toNat_shiftLeft, Nat.shiftLeft_eq, Nat.shiftRight_eq_div_pow]
  omega

/-- Every address of a lane register (R111). -/
theorem isLaneReg_addr (a : Word) (o : Nat) (h : isLaneReg a o = true) :
    a = 0x04000400 + BitVec.ofNat 32 (0x10 * (laneOfAddr a).val + o) := by
  simp only [isLaneReg, Config.chBase, Bool.and_eq_true, decide_eq_true_eq] at h
  obtain ⟨h1, h2⟩ := h
  have h1 := congrArg BitVec.toNat (of_decide_eq_true h1)
  rw [toNat_page] at h1
  simp [BitVec.extractLsb'_toNat] at h1 h2
  apply BitVec.eq_of_toNat_eq
  simp [laneOfAddr, BitVec.extractLsb'_toNat, Nat.shiftRight_eq_div_pow]
  have := a.isLt
  omega

end Sys2Proof.Machine
end

