-- ==== Sys2Proof/Tests/Slice0.lean ====
section
/-!
SUPPORT. Tests: ill-formed terms, decoding of words written out from spec/30_encoding.md, at most two small theorems an
operation whose expected values are the vectors of spec/95_test_vectors.md, and, for every statement with hypotheses,
states and operands that meet them (test_witness_<statement>).
-/

namespace Sys2Proof.Tests

open Sys2Proof Sys2Proof.Machine

/-! ### Helpers -/

/-- The state after an operation. -/
def after (i : Instr) (s : State) : State :=
  match exec i s with
  | .next t => t
  | _ => s

/-- The state after a step. -/
def stepped (s : State) : State :=
  match step s with
  | .next t => t
  | _ => s

/-- Reset, with lane 0 put to `l`. -/
def withLane (l : Lane) : State := State.reset.setLane 0 l

/-- Reset, with lane `n` put to `l` and the mixer enabled at full master volume. -/
def playing (n : LaneIx) (l : Lane) : State := { State.reset.setLane n l with soundcnt := 0x807F }

/-- Reset, with unit 0 put to `c`. -/
def withCap (c : Capture) : State := State.reset.setCap 0 c

/-- Reset, with lane values and accumulators. -/
def mixed (v1 v3 left right : Int) : State :=
  { State.reset with mix := { v := ((Vector.replicate 16 (0 : Int)).set 1 v1).set 3 v3, left := left, right := right,
                              outl := 0, outr := 0 } }

/-- A ring that begins with these bytes. -/
def ring (bs : List Byte) : Vector Byte Config.fifoBytes := Vector.ofFn fun i => bs.getD i.val 0

/-- Memory cells from an address on; every byte must be other than 0. -/
def cells (a : Nat) (bs : List Byte) : List Host.Cell := bs.zipIdx.map fun p => (a + p.2, p.1)

/-- A note event of a tick and a track. -/
def note (tick track : Nat) : Event :=
  { tick := tick, kind := .note, ident := 0, track := track, panOffset := 0, volMult := .rat 1 }

/-- Sustain 63.5 without end, basic release: the envelope of program P5 without its decay. -/
def env : Envelope :=
  { attack := none, decay := none, sustain := some { volume := .rat (127 / 2), duration := .inf }, release := some .basic }

/-- The timbre of program P5, with the envelope `env`. -/
def timbre : ResolvedTimbre :=
  { category := .pcm, format := 0, src := 0x1000, loopWords := 0, lenWords := 4, repeating := true, shiftSel := 0,
    duty := 0, pitch := .table 0xFE00, env := env, pitchAdj := [], samples := [], queue := [] }

/-- A used voice of a kind and a track. -/
def usedBy (kind : EventKind) (track : Nat) : UsedVoice :=
  { track := track, kind := kind, category := .pcm, rt := timbre, pan := 64, env := env, pitchAdj := [], samples := [],
    queue := [], start := 0, segStart := 0, cur := .rat (127 / 2), completed := false }

/-- A freeing voice that has come to a volume. -/
def freed (v : Rat) : FreeingVoice := 
  { cur := .rat v, init := .rat v, relTick := 0, release := some .basic, sus := .rat (127 / 2) }

/-- A voice table with the six PCM lanes used by tracks 1 to 6. -/
def pcmFull : State :=
  (((((State.reset.setVoice 0 (.used (usedBy .note 1))).setVoice 2 (.used (usedBy .note 2))).setVoice 4
    (.used (usedBy .note 3))).setVoice 5 (.used (usedBy .note 4))).setVoice 6 (.used (usedBy .note 5))).setVoice 7
      (.used (usedBy .note 6))

/-- Every lane used by track 1. -/
def full : State := { State.reset with voices := Vector.replicate 16 (Voice.used (usedBy .note 1)) }

/-! ### Ill-formed terms (R125, R190) -/

theorem test_wf_psg_refused_on_lane_0 : (Instr.genPsg 0 2).wellFormed = false := by decide
theorem test_wf_psg_refused_on_lane_14 : (Instr.genPsg 14 2).wellFormed = false := by decide
theorem test_wf_noise_refused_on_lane_13 : (Instr.genNoise 13).wellFormed = false := by decide
theorem test_wf_none_refused_on_lane_8 : (Instr.genNone 8).wellFormed = false := by decide
theorem test_wf_accepted : (Instr.genPsg 8 2).wellFormed = true ∧ (Instr.genNoise 15).wellFormed = true ∧
    (Instr.genNone 7).wellFormed = true ∧ Instr.step.wellFormed = true := by decide

/-! ### Decoding of words written out from the spec's encodings -/

/-- R126: opcodes; the operand bytes are in the model's layout (log 3). -/
theorem test_decode_commands :
    decode (.command 0x00 []) = .ok .reset ∧
    decode (.command 0x01 []) = .ok .step ∧
    decode (.command 0x02 [0x00, 0x30, 0x00, 0x00, 0x2C]) = .ok (.memw 0x3000 0x2C) ∧
    decode (.command 0x05 [0x01, 0x04]) = .ok (.reqch .psg 4) ∧
    decode (.command 0x07 [0x02, 0x03]) = .ok (.release 2 3) ∧
    decode (.command 0x10 [0x08, 0x05, 0x00, 0x04, 0x80]) = .ok (.wr8 0x04000508 0x80) ∧
    decode (.command 0x11 [0x00, 0x05, 0x00, 0x04, 0x7F, 0x80]) = .ok (.wr16 0x04000500 0x807F) ∧
    decode (.command 0x12 [0x40, 0x04, 0x00, 0x04, 0x7F, 0x00, 0x40, 0xC9]) = .ok (.wr32 0x04000440 0xC940007F) := by
  decide

/-- R126, R127, R381: a list of one drum event: tick 300, identifier 2, track 5, pan -3, volume 1/2. -/
theorem test_decode_load_events :
    decode (.command 0x03 [1, 0xAC, 0x02, 1, 2, 5, 5, 0, 2, 1]) =
      .ok (.loadEvents [⟨300, .drum, 2, 5, -3, .rat (1 / 2)⟩]) := by decide +kernel

/-- R126, R127, R320: a note event with volume 1. -/
theorem test_decode_trigger :
    decode (.command 0x04 [0, 0, 0, 1, 0, 0, 2, 0]) = .ok (.trigger (note 0 1)) := by decide

/-- R126, R128, R322: lane 1, an event, and the timbre of program P5. -/
theorem test_decode_populate :
    decode (.command 0x06 (
      [2] ++ [0, 0, 0, 1, 0, 0, 2, 0] ++
      [0, 0] ++ [0x00, 0x10, 0, 0] ++ [0, 0] ++ [4, 0, 0] ++ [1, 0, 0] ++ [1, 0x00, 0xFE] ++
      [0, 0, 1, 0, 0xFE, 1, 1, 0, 1, 0] ++ [0, 0, 0])) = .ok (.populate 1 (note 0 1) timbre) := by decide +kernel

/-- The real LN(1/2) / 192 (V-ENV-3), as it is written at the ports (log 3): the tags of `div`, `ln` and two rationals. -/
theorem test_decode_real : Wire.real [8, 10, 0, 2, 1, 0, 0x80, 3, 0, 7] =
    .ok (.div (.ln (.rat (1 / 2))) (.rat 192), [7]) := by decide +kernel

/-- R111, R112, R121: the lane registers, at lanes 0, 1, 8, 14 and 15. -/
theorem test_decode_lane_registers :
    decode (.bus32 0x04000480 0xE8400040) = .ok (.chCnt 8 0xE8400040) ∧
    decode (.bus32 0x04000414 0x00008000) = .ok (.chSad 1 0x00008000) ∧
    decode (.bus16 0x040004E8 0xFC00) = .ok (.chTmr 14 0xFC00) ∧
    decode (.bus16 0x040004FA 1) = .ok (.chPnt 15 1) ∧
    decode (.bus32 0x0400040C 0x3C) = .ok (.chLen 0 0x3C) := by decide

/-- R115 to R119: the global registers and those of the two capture units. -/
theorem test_decode_global_registers :
    decode (.bus16 0x04000500 0x947F) = .ok (.soundcnt 0x947F) ∧
    decode (.bus16 0x04000504 0x200) = .ok (.soundbias 0x200) ∧
    decode (.bus8 0x04000508 0x80) = .ok (.sndcap0cnt 0x80) ∧
    decode (.bus8 0x04000509 0x84) = .ok (.sndcap1cnt 0x84) ∧
    decode (.bus32 0x04000510 0x8000) = .ok (.sndcap0dad 0x8000) ∧
    decode (.bus16 0x04000514 8) = .ok (.sndcap0len 8) ∧
    decode (.bus32 0x04000518 0x9000) = .ok (.sndcap1dad 0x9000) ∧
    decode (.bus16 0x0400051C 9) = .ok (.sndcap1len 9) := by decide

/-- R125: stored control words. Bit 31 is key-on, bits 30 to 29 the format, bits 28 to 26 the duty. -/
theorem test_decode_generators :
    decode (.selCnt 0 0x8240007F) = .ok (.genPcm8 0) ∧
    decode (.selCnt 2 0xA940007F) = .ok (.genPcm16 2) ∧
    decode (.selCnt 4 0xC940007F) = .ok (.genAdpcm 4) ∧
    decode (.selCnt 8 0xE8400040) = .ok (.genPsg 8 2) ∧
    decode (.selCnt 14 0xE0000040) = .ok (.genNoise 14) ∧
    decode (.selCnt 7 0xE040007F) = .ok (.genNone 7) ∧
    decode (.selCnt 0 0x7FFFFFFF) = .ok (.genOff 0) := by decide

/-- R125: stored capture control bytes. Bit 7 is the enable, bit 3 the format, bit 2 one-shot. -/
theorem test_decode_captures :
    decode (.selCap 0 0x80) = .ok (.capPcm16 0 false) ∧
    decode (.selCap 1 0x84) = .ok (.capPcm16 1 true) ∧
    decode (.selCap 1 0x88) = .ok (.capPcm8 1 false) ∧
    decode (.selCap 0 0x08) = .error .selectsNothing := by decide

/-- R125, V-MIX-4: stored SOUNDCNT words; bits 9 to 8 select the left side, bits 11 to 10 the right side. -/
theorem test_decode_outputs :
    decode (.selOut .left 0x807F) = .ok (.outMixer .left) ∧
    decode (.selOut .left 0x817F) = .ok (.outCh1 .left) ∧
    decode (.selOut .right 0x8A7F) = .ok (.outCh3 .right) ∧
    decode (.selOut .left 0x837F) = .ok (.outCh1Ch3 .left) ∧
    decode (.selOut .left 0x007F) = .error .selectsNothing := by decide

/-- V-SEQ-6, V-REG-8, R406: what is rejected, by name: an opcode that is none, a bad tag, missing operands, and a
register at another width. -/
theorem test_decode_rejects :
    decode (.command 0x08 []) = .error (.badCommand 0x08 .unknownOpcode) ∧
    decode (.command 0x05 [0x03, 0x00]) = .error (.badCommand 0x05 .badTag) ∧
    decode (.command 0x02 [0x00]) = .error (.badCommand 0x02 .truncated) ∧
    decode (.bus16 0x04000400 0) = .error (.badRegister 16 0x04000400) ∧
    decode (.bus8 0x0400050A 0) = .error (.badRegister 8 0x0400050A) := by decide

/-- The words of the opcode table (log 21): the row's own bits, and its `lanes` field where it has one. -/
theorem test_decode_table_words :
    decodeTableWord 8 0x01 = some .step ∧
    decodeTableWord 8 0x88 = some (.capPcm8 0 false) ∧
    decodeTableWord 16 0x8300 = some (.outCh1Ch3 .left) ∧
    decodeTableWord 32 0x0400040C = some (.chLen 0 0) ∧
    decodeTableWord 32 0x04000509 = some (.sndcap1cnt 0) ∧
    decodeTableWord 32 0xA0000001 = some (.genPcm16 0) ∧
    decodeTableWord 32 0xE0000000 = some (.genPsg 8 0) ∧
    decodeTableWord 32 0xE0004000 = some (.genNoise 14) ∧
    decodeTableWord 32 0xE0000080 = some (.genNone 7) ∧
    decodeTableWord 32 0x00000000 = some (.genOff 8) := by decide

/-- A word placed for the fetch is what the next step runs. -/
theorem test_with_fetch_word : (stepped (State.reset.withFetchWord 8 0x01)).tick = 1 ∧
    (stepped (State.reset.withFetchWord 8 0x01)).port = [] := by decide

/-! ### Commands -/

/-- V-SEQ-4, R430: reset clears the fatal error and keeps memory. -/
theorem test_reset_clears_fatal :
    let t := after .reset { State.reset with fatal := some (.badCommand 8), mem := [(5, 7)], tick := 9 }
    t.fatal = none ∧ t.mem = [(5, 7)] ∧ t.tick = 0 := by decide

/-- V-SEQ-1. -/
theorem test_step_from_reset : (after .step State.reset).emitted = [.sample 0 0 0] ∧
    (after .step State.reset).tick = 1 := by decide

/-- V-GEN-9, tick 0: one noise step, pan 0, volume 64. -/
theorem test_step_noise :
    let t := after .step (playing 14 { Lane.reset with
      cnt := 0xE0000040, tmr := 0xFE00, timer := 0xFE00, pos := -1, noise := 0x7FFF })
    t.out = (-16384, 0) ∧ (t.lane 14).noise = 0x5FFF ∧ (t.lane 14).timer = 0xFE00 := by decide

theorem test_memw : Memory.read (after (.memw 0x1003 0x7F) State.reset).mem 0x1003 = 0x7F ∧
    Memory.read (after (.memw 0x1003 0x7F) State.reset).mem 0x1002 = 0 := by decide

/-- R404. -/
theorem test_memw_unmapped :
    (after (.memw 0x08000000 1) State.reset).fatal = some (.busError 0x08000000) := by decide

/-- V-SEQ-2. -/
theorem test_load_events_late :
    (after (.loadEvents [note 9 1]) { State.reset with tick := 10 }).fatal = some (.eventOrder 9) := by decide

/-- V-SEQ-2. -/
theorem test_load_events_unordered :
    (after (.loadEvents [note 12 1, note 11 1]) { State.reset with tick := 10 }).fatal = some (.eventOrder 11) ∧
    (after (.loadEvents [note 10 1, note 10 2]) { State.reset with tick := 10 }).events = [note 10 1, note 10 2] := by
  decide

/-- V-CM-1, first request: lane 0. -/
theorem test_reqch_first : (after (.reqch .pcm 1) State.reset).emitted = [.lane 0] ∧
    (after (.reqch .pcm 1) State.reset).voice 0 = .withheld := by decide

/-- V-CM-6: the drum of the same track before the freeing lane; and the PSG list. -/
theorem test_reqch_tiers :
    let s := (pcmFull.setVoice 5 (.used (usedBy .drum 4))).setVoice 2 (.freeing (freed 50))
    (after (.reqch .pcm 4) s).emitted = [.lane 5] ∧ (after (.reqch .psg 4) s).emitted = [.lane 8] := by decide

/-- P6, tick 0: the registers POPULATE leaves. -/
theorem test_populate_registers :
    let t := after (.populate 0 (note 0 1) timbre) (State.reset.setVoice 0 .withheld)
    (t.lane 0).cnt = 0x81400000 ∧ (t.lane 0).tmr = 0xFE00 ∧ (t.lane 0).src = 0x1000 ∧ (t.lane 0).length = 16 ∧
      (t.lane 0).pos = -3 := by decide

/-- V-SEQ-5, V-CM-7. -/
theorem test_populate_lane_index :
    (after (.populate 16 (note 0 1) timbre) State.reset).fatal = some (.laneIndex 16) ∧
    (after (.populate 0 (note 0 1) timbre) State.reset).fatal = some (.laneIndex 0) ∧
    (after (.populate 1 (note 0 1) timbre) State.reset).fatal = some (.laneIndex 1) := by decide

/-- P6: `release 1, 200` captures the sustain volume. -/
theorem test_release :
    (after (.release 1 200) pcmFull).voice 0 =
      .freeing { cur := .rat (127 / 2), init := .rat (127 / 2), relTick := 200, release := some .basic,
                 sus := .rat (127 / 2) } := by
  decide +kernel

/-- V-CM-8: no voice of the track. -/
theorem test_release_nobody : after (.release 9 200) pcmFull = pcmFull := by decide +kernel

/-- P5, tick 0, with the timbre that RESOLVE gives there: lane 0 is allocated, programmed and returned. -/
theorem test_trigger_first :
    let r := State.reset.triggerWith (note 0 1) timbre
    r.1 = some 0 ∧ (r.2.lane 0).cnt = 0x81400000 ∧ r.2.voice 0 = .used { usedBy .note 1 with cur := .rat 0 } := by
  decide +kernel

/-- V-CM-2: with every lane used by other tracks no lane is found, whatever category RESOLVE gives. -/
theorem test_trigger_no_lane :
    (after (.trigger (note 0 7)) full).fatal =
      some (.noLaneAvailable (Config.resolve (note 0 7)).category 7) := by
  have h (c : Category) : full.reqch c 7 = (none, { full with fatal := some (.noLaneAvailable c 7) }) := by
    cases c <;> decide +kernel
  have hl : full.fatal.isSome = false := by decide
  simp only [after, exec, execTrigger, State.andThen, hl, State.trigger, State.triggerWith, h, note]
  rfl

/-! ### Register writes -/

/-- V-REG-4: no start without the enable. -/
theorem test_wr8 : ((after (.wr8 0x04000508 0x7F) State.reset).cap 0).cnt = 0x0F := by decide

/-- V-REG-8. -/
theorem test_wr8_bad :
    (after (.wr8 0x04000408 0) State.reset).fatal = some (.badRegisterAccess 8 0x04000408) := by decide

/-- V-REG-5. -/
theorem test_wr16 : ((after (.wr16 0x04000438 0xABCD) State.reset).lane 3).tmr = 0xABCD ∧
    ((after (.wr16 0x04000438 0xABCD) State.reset).cap 1).tmr = 0xABCD := by decide

/-- V-REG-8. -/
theorem test_wr16_bad :
    (after (.wr16 0x04000400 0) State.reset).fatal = some (.badRegisterAccess 16 0x04000400) ∧
    (after (.wr16 0x04000502 0) State.reset).fatal = some (.badRegisterAccess 16 0x04000502) := by decide

/-- V-REG-1. -/
theorem test_wr32 :
    let c := ((after (.wr32 0x04000400 0x7FFFFFFF) State.reset).lane 0).cnt
    c = 0x7FFFFFFF ∧ cntFormat c = 3 ∧ cntDuty c = 7 ∧ cntRepeat c = 3 ∧ cntPan c = 128 ∧ cntVolShift c = 0 ∧
      cntVolume c = 128 ∧ keyon c = false := by decide

/-- V-REG-8. -/
theorem test_wr32_bad :
    (after (.wr32 0x04000500 0) State.reset).fatal = some (.badRegisterAccess 32 0x04000500) ∧
    (after (.wr32 0x04000600 0) State.reset).fatal = some (.badRegisterAccess 32 0x04000600) := by decide

/-- V-REG-6, the looping lane: the second burst wraps to the loop position. -/
theorem test_chCnt_start :
    let s := { withLane { Lane.reset with src := 0x1000, tmr := 0xFE00, loopPos := 4, length := 4 } with
      mem := cells 0x1000 [0x10, 0x20, 0x40, 0x7F, 0x80, 0xF0, 0xFF] }
    let l := (after (.chCnt 0 0x8940007F) s).lane 0
    l.timer = 0xFE00 ∧ l.pos = -3 ∧ l.noise = 0x7FFF ∧ l.foff = 8 ∧ l.flevel = 12 ∧ l.fwr = 3 ∧
      l.fifo = ring [0x10, 0x20, 0x40, 0x7F, 0x80, 0xF0, 0xFF, 0, 0x80, 0xF0, 0xFF] := by decide

/-- V-REG-7: no edge, no start. -/
theorem test_chCnt_no_edge :
    after (.chCnt 0 0x82400040) (withLane { Lane.reset with cnt := 0x8240007F, pos := 2 }) =
      withLane { Lane.reset with cnt := 0x82400040, pos := 2 } := by decide

/-- V-REG-3. -/
theorem test_chSad : ((after (.chSad 0 0xFFFFFFFF) State.reset).lane 0).src = 0x07FFFFFC := by decide

/-- V-REG-5: lane 1 and unit 0. -/
theorem test_chTmr_shared : ((after (.chTmr 1 0x1111) State.reset).lane 1).tmr = 0x1111 ∧
    ((after (.chTmr 1 0x1111) State.reset).cap 0).tmr = 0x1111 ∧
    ((after (.chTmr 1 0x1111) State.reset).cap 1).tmr = 0 := by decide

/-- V-REG-5: another lane touches no unit. -/
theorem test_chTmr_other : (after (.chTmr 0 0x1234) State.reset).caps = State.reset.caps ∧
    ((after (.chTmr 0 0x1234) State.reset).lane 0).tmr = 0x1234 := by decide

/-- V-REG-3. -/
theorem test_chPnt : ((after (.chPnt 0 0xFFFF) State.reset).lane 0).loopPos = 0x3FFFC := by decide

/-- V-REG-3. -/
theorem test_chLen : ((after (.chLen 0 0xFFFFFFFF) State.reset).lane 0).length = 0x7FFFFC := by decide

/-- V-REG-4. -/
theorem test_soundcnt : (after (.soundcnt 0xFFFF) State.reset).soundcnt = 0xBF7F := by decide

/-- V-REG-4. -/
theorem test_soundbias : (after (.soundbias 0xFFFF) State.reset).bias = 0x3FF := by decide

/-- V-REG-4. -/
theorem test_sndcap0cnt : ((after (.sndcap0cnt 0x7F) State.reset).cap 0).cnt = 0x0F := by decide

/-- R270: a rising edge loads the timer. -/
theorem test_sndcap1cnt_start :
    let t := after (.sndcap1cnt 0x80) (State.reset.setCap 1 { Capture.reset with tmr := 0xFE00, pos := 6, woff := 4 })
    (t.cap 1).cnt = 0x80 ∧ (t.cap 1).timer = 0xFE00 ∧ (t.cap 1).pos = 0 ∧ (t.cap 1).woff = 0 := by decide

/-- V-REG-4. -/
theorem test_sndcap0dad : ((after (.sndcap0dad 0xFFFFFFFF) State.reset).cap 0).dst = 0x07FFFFFC := by decide

/-- V-REG-4: length 0 means one word. -/
theorem test_sndcap0len : ((after (.sndcap0len 0) State.reset).cap 0).length = 4 := by decide

theorem test_sndcap1dad : ((after (.sndcap1dad 0x8001) State.reset).cap 1).dst = 0x8000 ∧
    ((after (.sndcap1dad 0x8001) State.reset).cap 0).dst = 0 := by decide

/-- V-REG-4. -/
theorem test_sndcap1len : ((after (.sndcap1len 0xFFFF) State.reset).cap 1).length = 0x3FFFC := by decide

/-- R162 assigns the length alone, and R273 then uses the old offset for one byte and wraps. -/
theorem test_sndcap0len_keeps_offset :
    let c := (after (.sndcap0len 1) (State.reset.setCap 0 { Capture.reset with length := 16, woff := 8, fifo := [7, 9] })).cap 0
    c.length = 4 ∧ c.woff = 8 ∧
    capFlush c [] = ⟨{ c with fifo := [], woff := 1 }, [(0, 9), (8, 7)], none⟩ := by decide

/-! ### Generators -/

/-- P1, tick 2: the first sample of the one-shot lane. -/
theorem test_genPcm8_first :
    let l := (after (.genPcm8 0) (withLane { Lane.reset with
      cnt := 0x8240007F, length := 8, pos := -1, fifo := ring [0x10, 0x20], foff := 8, flevel := 8 })).lane 0
    l.pos = 0 ∧ l.cur = 4096 ∧ l.flevel = 7 ∧ l.frd = 1 := by decide

/-- P1, tick 10: the stop. -/
theorem test_genPcm8_stop :
    let l := (after (.genPcm8 0) (withLane { Lane.reset with
      cnt := 0x8240007F, length := 8, pos := 7, cur := -256, foff := 8 })).lane 0
    l.pos = 8 ∧ l.cur = 0 ∧ l.cnt = 0x0240007F := by decide

/-- V-GEN-4, tick 5: the low byte first, sign extended. -/
theorem test_genPcm16_extreme :
    let l := (after (.genPcm16 0) (withLane { Lane.reset with
      cnt := 0xA940007F, loopPos := 4, length := 8, pos := 2, fifo := ring [0x00, 0x80], flevel := 20 })).lane 0
    l.pos = 3 ∧ l.cur = -32768 := by decide

/-- V-GEN-4, tick 8: back to the sample index of the loop position. -/
theorem test_genPcm16_loop :
    let l := (after (.genPcm16 0) (withLane { Lane.reset with
      cnt := 0xA940007F, loopPos := 4, length := 8, pos := 5, fifo := ring [0xFF, 0x7F], flevel := 20 })).lane 0
    l.pos = 2 ∧ l.cur = 32767 := by decide

/-- V-GEN-5, tick 10: the first nibble of 0x07 is 7. -/
theorem test_genAdpcm_first_nibble :
    let l := (after (.genAdpcm 0) (withLane { Lane.reset with
      cnt := 0xC240007F, length := 8, pos := 7, fifo := ring [0x07], flevel := 20 })).lane 0
    l.pos = 8 ∧ l.cur = 11 ∧ l.aidx = 8 := by decide

/-- P2: the loop restores the snapshot and gives its value as the sample. -/
theorem test_genAdpcm_loop :
    let l := (after (.genAdpcm 0) (withLane { Lane.reset with
      cnt := 0xC940007F, loopPos := 4, length := 4, pos := 15, aval := 298, aidx := 19, avalLoop := 262, aidxLoop := 9,
      fifo := ring [0x31], flevel := 20 })).lane 0
    l.pos = 8 ∧ l.cur = 262 ∧ l.aidx = 9 ∧ l.abyte = 0x31 := by decide

/-- V-GEN-8: the fifth and the sixth column of duty 2. -/
theorem test_genPsg :
    ((after (.genPsg 8 2) (playing 8 { Lane.reset with pos := 3 })).lane 8).cur = -0x7FFF ∧
    ((after (.genPsg 8 2) (playing 8 { Lane.reset with pos := 4 })).lane 8).cur = 0x7FFF := by decide

/-- V-GEN-9: the first step and the one that first gives the high level. -/
theorem test_genNoise :
    ((after (.genNoise 14) (playing 14 { Lane.reset with noise := 0x7FFF })).lane 14).noise = 0x5FFF ∧
    ((after (.genNoise 14) (playing 14 { Lane.reset with noise := 0x4000 })).lane 14).noise = 0x2000 ∧
    ((after (.genNoise 14) (playing 14 { Lane.reset with noise := 0x4000 })).lane 14).cur = 0x7FFF := by decide

/-- V-GEN-11. -/
theorem test_genNone :
    let s := { playing 0 { Lane.reset with cnt := 0xE040007F, pos := -1 } with mix := (mixed 0 0 0 0).mix }
    (after (.genNone 0) s).lanes = s.lanes ∧ (after (.genNone 0) s).laneValue 0 = 0 := by decide

/-- R191: a lane that is off gives 0. -/
theorem test_genOff : (after (.genOff 1) (mixed 55 0 0 0)).laneValue 1 = 0 := by decide

/-! ### Capture and output -/

/-- V-CAP-4, tick 3: the fourth sample completes the flush unit and the buffer. -/
theorem test_capPcm16 :
    let t := after (.capPcm16 0 true) { withCap { Capture.reset with
        cnt := 0x84, dst := 0x8000, tmr := 0xFE00, timer := 0xFE00, length := 8, pos := 6,
        fifo := [0, 0, 0, 0, 0x01, 0x01] } with mix := (mixed 0 0 0x20200 0).mix }
    (t.cap 0).cnt = 0x04 ∧ (List.range 8).map (fun i => Memory.read t.mem (0x8000 + i)) = [0, 0, 0, 0, 1, 1, 2, 2] := by
  decide

/-- V-CAP-2: the byte is `cur >> 8`, one a sample. -/
theorem test_capPcm8 :
    let t := after (.capPcm8 0 false) { withCap { Capture.reset with
        cnt := 0x88, dst := 0x8000, tmr := 0xFE00, timer := 0xFE00, length := 32, pos := 2, fifo := [0, 0] } with
          mix := (mixed 0 0 0x10000 0).mix }
    (t.cap 0).fifo = [0, 0, 1] ∧ (t.cap 0).pos = 3 ∧ (t.cap 0).timer = 0xFE00 := by decide

/-- V-MIX-4: the accumulators at `SOUNDCNT = 0x807F`; `10240 << 8` and `18432 << 8`. -/
theorem test_outMixer :
    (after (.outMixer .left) (mixed 0 0 (10240 * 256) (18432 * 256))).mix.outl = 10240 * 256 ∧
    (after (.outMixer .right) (mixed 0 0 (10240 * 256) (18432 * 256))).mix.outr = 18432 * 256 := by decide

/-- V-MIX-4: lane 1, bytes 0x20 (`0x2000 << 4` at volume 128), pan 0: 8192 on the left, nothing on the right. -/
theorem test_outCh1 :
    (after (.outCh1 .left) (mixed (0x20000 * 128) 0 1 1)).mix.outl = 8192 * 256 ∧
    (after (.outCh1 .right) (mixed (0x20000 * 128) 0 1 1)).mix.outr = 0 := by decide

/-- V-MIX-4: lane 3, bytes 0x40, pan field 127: 16384 on the right, nothing on the left. -/
theorem test_outCh3 :
    let s := { mixed 0 (0x40000 * 128) 1 1 with lanes := State.reset.lanes.set 3 { Lane.reset with cnt := 0x007F007F } }
    (after (.outCh3 .left) s).mix.outl = 0 ∧ (after (.outCh3 .right) s).mix.outr = 16384 * 256 := by decide

/-- V-MIX-4: both. -/
theorem test_outCh1Ch3 :
    let s := { mixed (0x20000 * 128) (0x40000 * 128) 1 1 with
      lanes := State.reset.lanes.set 3 { Lane.reset with cnt := 0x007F007F } }
    (after (.outCh1Ch3 .left) s).mix.outl = 8192 * 256 ∧ (after (.outCh1Ch3 .right) s).mix.outr = 16384 * 256 := by
  decide

/-- V-MIX-1, V-MIX-3, V-MIX-5: the value of a lane and the final stage: full scale, clamp, floor. -/
theorem test_adjust_and_final :
    ({ Lane.reset with cnt := 0x0040007F, cur := 4096 } : Lane).adjust = 8388608 ∧
    ({ State.reset with soundcnt := 0x807F } : State).final 524288 = 2048 ∧
    ({ State.reset with soundcnt := 0x807F } : State).final 99876864 = 32767 ∧
    ({ State.reset with soundcnt := 0x807F } : State).final (-128) = -1 := by decide

/-! ### Envelopes, tables -/

/-- The volume of an envelope at a time, where the named properties make it rational, and its phase. -/
def volumeAt (e : Envelope) (tau : Nat) : Option Rat × Phase × Bool :=
  let x := envEval e tau
  (x.v.rational?, x.phase, x.done)

/-- V-ENV-1: linear attack and decay, and sustain. -/
theorem test_envelope_linear :
    let e : Envelope := { attack := some (.linear (.rat 100) 20), decay := some (.linear 40),
                          sustain := some { volume := .rat 60, duration := .ticks 16 }, release := some .geometric }
    volumeAt e 10 = (some 50, .attack, false) ∧ volumeAt e 19 = (some 95, .attack, false) ∧
      volumeAt e 20 = (some 100, .decay, false) ∧ volumeAt e 59 = (some 61, .decay, false) ∧
      volumeAt e 75 = (some 60, .sustain, false) := by decide +kernel

/-- V-ENV-2: an exact attack. -/
theorem test_envelope_exact :
    let e : Envelope := { attack := some (.exactPoints [(0, .rat 10), (4, .rat 50), (8, .rat 90)]), decay := none,
                          sustain := none, release := some .basic }
    (envEval e 0).v = .rat 10 ∧ (envEval e 3).v = .rat 10 ∧ (envEval e 4).v = .rat 50 ∧ (envEval e 7).v = .rat 50 ∧
      (shape e).sus = .rat 90 ∧ volumeAt e 8 = (some 90, .release, false) := by decide +kernel

/-- V-ENV-5. -/
theorem test_volq : [0, 9 / 10, 1, 127 / 2, 127, 1279 / 10, 128, 255, 256, 3007 / 10, -3].map (fun q => volq (.rat q)) =
    [0, 0, 1, 63, 127, 127, 64, 127, 64, 75, 0] := by decide +kernel

/-- V-ENV-6, the rows of offset 12, for every EXP, LN and POW2 with POW2(1) = 2. -/
theorem test_pitch_octave (I : RealInterp) (h : I.pow2 1 = 2) :
    I.val (pitchReal 0xFE00 (.rat 12)) = 0xFF00 ∧ I.val (pitchReal 0 (.rat 12)) = 32768 := by
  have hp := I.pitchTimer_pos.ne'
  have hn : BitVec.toNat (0xFE00 : Half) = 65024 ∧ BitVec.toNat (0 : Half) = 0 := by decide
  constructor <;> norm_num [pitchReal, RealInterp.val, Config.pitchTimer, Config.maxReload, Config.realNat, h, hp, hn] <;>
    field_simp <;> norm_num

/-- R197, R198, R292, R293: the tables. -/
theorem test_tables : Config.adpcmStepTable.length = 89 ∧ Config.adpcmStepTable.getLast? = some 32767 ∧
    Config.psgWaveTable.map List.length = List.replicate 8 8 ∧
    (Config.prefPcm ++ Config.prefPsg ++ Config.prefNoise ++ Config.blockedLanes).Nodup ∧
    (Config.prefPcm ++ Config.prefPsg ++ Config.prefNoise ++ Config.blockedLanes).length = 16 := by decide

/-! ### Witnesses: states and operands that meet the hypotheses of the statements -/

theorem test_witness_DecodeEncodeRoundTrip : (Instr.genPsg 13 7).wellFormed = true ∧
    (Instr.genNoise 14).wellFormed = true ∧ (Instr.populate 16 (note 0 1) timbre).wellFormed = true := by decide

theorem test_witness_DecodeGivesWellFormed : decode (.selCnt 7 0xE0000000) = .ok (.genNone 7) ∧
    decode (.selCnt 8 0xE0000000) = .ok (.genPsg 8 0) ∧ decode (.selCnt 14 0xFFFFFFFF) = .ok (.genNoise 14) := by decide

theorem test_witness_BusMapIsExactlyTheTable : decode (.bus32 0x040004FC 2) = .ok (.chLen 15 2) ∧
    decode (.bus32 0x04000518 2) = .ok (.sndcap1dad 2) ∧ decode (.bus16 0x040004FA 2) = .ok (.chPnt 15 2) ∧
    decode (.bus16 0x0400051C 2) = .ok (.sndcap1len 2) ∧ decode (.bus8 0x04000509 2) = .ok (.sndcap1cnt 2) := by decide

theorem test_witness_BusWritesReachTheirRegister :
    State.reset.fatal = none ∧ (∀ i, decode (.bus32 0x04000500 0) ≠ .ok i) ∧
    (∀ i, decode (.bus16 0x04000502 0) ≠ .ok i) ∧ (∀ i, decode (.bus8 0x0400050A 0) ≠ .ok i) := by
  have h32 : decode (.bus32 0x04000500 0) = .error (.badRegister 32 0x04000500) := by decide
  have h16 : decode (.bus16 0x04000502 0) = .error (.badRegister 16 0x04000502) := by decide
  have h8 : decode (.bus8 0x0400050A 0) = .error (.badRegister 8 0x0400050A) := by decide
  refine ⟨rfl, ?_, ?_, ?_⟩ <;> intro i h <;> simp_all

theorem test_witness_StepRunsTheDecodedOperation :
    decode (.command 0x01 []) = .ok .step ∧ decode (.command 0xFF []) = .error (.badCommand 0xFF .unknownOpcode) ∧
    decode (.bus8 0x04000500 0) = .error (.badRegister 8 0x04000500) ∧
    decode (.selCap 0 0x08) = .error .selectsNothing ∧
    ({ State.reset with fatal := some (.badCommand 8) } : State).fatal ≠ none ∧ State.reset.port = [] ∧
    State.reset.fatal = none ∧ (stepped (State.reset.withFetchWord 8 0x00)).port = [] ∧
    (State.reset.withFetchWord 8 0x08).port = .command 0x08 (List.replicate 64 0) :: [] := by decide

theorem test_witness_FatalIgnoresEverythingButReset :
    ({ State.reset with fatal := some (.laneIndex 16) } : State).fatal ≠ none ∧ Instr.step ≠ .reset := by decide

/-- The hypothesis of LaneRegisterWrites, GlobalRegisterWrites, CaptureRegisterWrites and OutputRows. -/
theorem test_witness_live : State.reset.fatal = none ∧ (withLane { Lane.reset with cnt := 0x80000000 }).fatal = none := by
  decide

/-- Both sides of the edge, and both sides of the alternative that needs both bits. -/
theorem test_witness_CaptureRegisterWrites :
    (0x80 : Byte).getLsbD 7 = true ∧ Capture.reset.cnt.getLsbD 7 = false ∧ (0x7F : Byte).getLsbD 7 = false ∧
    ({ Capture.reset with cnt := 0x80 } : Capture).cnt.getLsbD 7 = true := by decide

/-- No edge; an edge into format 3 and into a memory format; an unmapped first and an unmapped second burst. -/
theorem test_witness_ControlWriteStartsOnRisingEdge :
    State.reset.fatal = none ∧ (0x7FFFFFFF : Word).getLsbD 31 = false ∧ (0x80000000 : Word).getLsbD 31 = true ∧
    Lane.reset.cnt.getLsbD 31 = false ∧ (0xE0000000 : Word).extractLsb' 29 2 = 3 ∧
    (0x8100007F : Word).extractLsb' 29 2 ≠ 3 ∧
    (let l := { Lane.reset with cnt := (0x8100007F : Word), length := 64 }
     (fifoFill [] l).err = none ∧ (fifoFill [] (fifoFill [] l).lane).err = none) ∧
    (let l := { Lane.reset with cnt := (0x8100007F : Word), length := 64, src := 0x07FFFFFC }
     (fifoFill [] l).err = some 0x08000000) ∧
    (let l := { Lane.reset with cnt := (0x8100007F : Word), length := 64, src := 0x07FFFFF0 }
     (fifoFill [] l).err = none ∧ (fifoFill [] (fifoFill [] l).lane).err = some 0x08000000) := by decide

theorem test_witness_ControlWordRoundTrip : State.reset.fatal = none ∧ 0 ≤ 128 ∧ 127 ≤ 128 ∧ 128 ≤ 128 := by decide

/-- A one-shot lane with nothing left and with one word left, a loop that wraps, manual mode, an unmapped byte. -/
theorem test_witness_FifoFillIsOneBurst :
    4 ∣ (8 : Nat) ∧ 4 ∣ (4 : Nat) ∧ cntRepeat (0x02000000 : Word) = 2 ∧ 0 + 8 ≤ 8 ∧ ¬(0 + 8 ≤ 4) ∧
    cntRepeat (0x01000000 : Word) = 1 ∧ cntRepeat (0x03000000 : Word) = 3 ∧ cntRepeat (0 : Word) = 0 ∧
    Config.mapped 0x07FFFFFF = true ∧ Config.mapped 0x08000000 = false := by decide

/-- Reads of 1, 2 and 4 bytes that leave 17, and that leave 16. -/
theorem test_witness_FifoReadTakesBytesThenRefills : 1 ∈ [1, 2, 4] ∧ 4 ∈ [1, 2, 4] ∧ (16 : Int) < 21 - 4 ∧
    (20 : Int) - 4 ≤ 16 := by decide

/-- A lane that reads its sample at the top of memory: its next refill meets an unmapped address. -/
def atTop (cnt : Word) (pos : Int) : Lane :=
  { Lane.reset with cnt := cnt, src := 0x07FFFFFC, length := 64, pos := pos, foff := 4, flevel := 16 }

/-- Start-up, a one-shot lane before and at its end, a loop at its end, and both outcomes of the read. -/
theorem test_witness_Pcm8Step :
    (withLane Lane.reset).fatal = none ∧ (-2 + 1 : Int) < 0 ∧ (0 : Int) ≤ -1 + 1 ∧
    ((0 + 8 : Int) ≤ 7 + 1 ∧ cntRepeat (0x8240007F : Word) = 2) ∧ ¬(0 + 8 : Int) ≤ 6 + 1 ∧
    ((cntRepeat (0x8940007F : Word)).getLsbD 0 = true ∧ cntRepeat (0x8940007F : Word) ≠ 2) ∧
    (fifoConsume [] { Lane.reset with cnt := 0x8240007F, length := 8, foff := 8, flevel := 8 } 1).err = none ∧
    (fifoConsume [] (atTop 0x8240007F 0) 1).err = some 0x08000000 := by decide

/-- The same for two-byte samples: the end is reached at half the position. -/
theorem test_witness_Pcm16Step :
    (withLane Lane.reset).fatal = none ∧ (-2 + 1 : Int) < 0 ∧ (0 : Int) ≤ -1 + 1 ∧
    ((0 + 8 : Int) ≤ (3 + 1) * 2 ∧ cntRepeat (0xA240007F : Word) = 2) ∧ ¬(0 + 8 : Int) ≤ (2 + 1) * 2 ∧
    ((cntRepeat (0xA940007F : Word)).getLsbD 0 = true ∧ cntRepeat (0xA940007F : Word) ≠ 2) ∧
    (fifoConsume [] { Lane.reset with cnt := 0xA240007F, length := 8, foff := 8, flevel := 8 } 2).err = none ∧
    (fifoConsume [] (atTop 0xA240007F 0) 2).err = some 0x08000000 := by decide

/-- The positions where the branches meet (-1, 0, 1, 7, 8, 9, and the end at 16), and both outcomes of each read. -/
theorem test_witness_AdpcmStep :
    (withLane Lane.reset).fatal = none ∧ ((-1 : Int) < 8 ∧ (-1 : Int) ≠ 0) ∧ ((7 : Int) < 8 ∧ (7 : Int) ≠ 0) ∧
    (8 : Int) ≤ 8 ∧ ((0 + 8 : Int) ≤ 16 / 2 ∧ cntRepeat (0xC240007F : Word) = 2 ∧ cntRepeat (0xC240007F : Word) ≠ 0) ∧
    (cntRepeat (0xC940007F : Word) ≠ 0 ∧ cntRepeat (0xC940007F : Word) ≠ 2) ∧ ¬(0 + 8 : Int) ≤ 9 / 2 ∧
    (9 : Int) % 2 = 1 ∧ (8 : Int) % 2 = 0 ∧
    (fifoConsume [] { Lane.reset with cnt := 0xC240007F, length := 8, foff := 8, flevel := 8 } 4).err = none ∧
    (fifoConsume [] { Lane.reset with cnt := 0xC240007F, length := 8, foff := 8, flevel := 8 } 1).err = none ∧
    (fifoConsume [] (atTop 0xC240007F 0) 4).err = some 0x08000000 ∧
    (fifoConsume [] (atTop 0xC240007F 0) 1).err = some 0x08000000 := by decide

theorem test_witness_ToneAndNoiseSteps : State.reset.fatal = none ∧ (0x7FFF : Half).toNat % 2 = 1 ∧
    (0x4000 : Half).toNat % 2 = 0 := by decide

theorem test_witness_SilentLanesDoNotAdvance : State.reset.fatal = none ∧ (0x7FFFFFFF : Word).getLsbD 31 = false ∧
    (0xE040007F : Word).extractLsb' 29 2 = 3 ∧ (7 : LaneIx).val ≤ 7 := by decide

theorem test_witness_LaneTimerLoop : (0xFFFF < Config.timerWrap + 0 ∧ 0xFFFF < Config.timerWrap) ∧
    (Config.timerWrap ≤ 0x10000 ∧ 0x10000 < Config.timerWrap + (0 + 1)) ∧
    (State.reset.fatal = none ∧ Gen.pcm8 ≠ .none ∧ (genStep [] .pcm8 Lane.reset).err = none ∧
      (genStep [] .pcm8 (atTop 0x8240007F 0)).err = some 0x08000000) ∧
    (({ Lane.reset with tmr := 0xFE00 } : Lane).tmr = 0xFE00 ∧ 0xFE00 ≤ 0xFE00 ∧ 0xFE00 < 0x10000 ∧ 0xFE00 ≤ 0xFFFF ∧
      0xFFFF < 0x10000) := by decide

theorem test_witness_AdjustedSample : (-0x8000 : Int) ≤ -0x8000 ∧ (-0x8000 : Int) ≤ 0x7FFF ∧ (0x7FFF : Int) ≤ 0x7FFF := by
  decide

/-- The mixer disabled; and enabled with every lane off and both units disabled. -/
theorem test_witness_IdleStepEmitsSilence :
    State.reset.fatal = none ∧ (∀ ev rest, State.reset.events = ev :: rest → ev.tick ≠ State.reset.tick) ∧
    (∀ n, State.reset.voice n = .opened ∨ State.reset.voice n = .withheld ∨ State.reset.voice n = .blocked) ∧
    State.reset.soundcnt.getLsbD 15 = false ∧
    (let s := { State.reset with soundcnt := 0x807F, events := [note 1 1] }
     s.soundcnt.getLsbD 15 = true ∧ (∀ n, (s.lane n).cnt.getLsbD 31 = false) ∧
      ∀ u, (s.cap u).cnt.getLsbD 7 = false) := by
  refine ⟨rfl, ?_, by decide, by decide, by decide⟩
  intro ev rest h
  cases h

/-- A dispatch that raises. -/
theorem test_witness_step_dispatch_raises :
    ({ full with events := [note 0 7] } : State).fatal = none ∧
    ({ full with events := [note 0 7] } : State).dispatch.fatal ≠ none := by
  have h (c : Category) : full.reqch c 7 = (none, { full with fatal := some (.noLaneAvailable c 7) }) := by
    cases c <;> decide +kernel
  have ht : (full.trigger (note 0 7)).2.fatal ≠ none := by
    rw [State.trigger, State.triggerWith, show (note 0 7).track = 7 from rfl, h]
    simp
  refine ⟨rfl, ?_⟩
  show ((full.trigger (note 0 7)).2.andThen fun s => s.dispatchFrom []).fatal ≠ none
  rw [State.andThen, if_pos (Option.isSome_iff_ne_none.mpr ht)]
  exact ht

/-- A used voice that is programmed at tick 0 with a sample past the top of memory. -/
def badSample : State :=
  State.reset.setVoice 0 (.used { usedBy .drum 1 with
    samples := [(0, { src := 0x07FFFFFC, loopWords := 0, lenWords := 4, volume := .rat 0 })] })

/-- An engine pass that raises, and a mix that raises; and a step in which no phase raises. -/
theorem test_witness_StepRunsItsPhasesInOrder :
    badSample.fatal = none ∧ badSample.dispatch.fatal = none ∧ badSample.dispatch.engine.fatal ≠ none ∧
    (let s := playing 0 { atTop 0x8240007F 0 with tmr := 0xFE00, timer := 0xFE00 }
     s.dispatch.fatal = none ∧ s.dispatch.engine.fatal = none ∧ s.dispatch.engine.runMix.fatal ≠ none) ∧
    (State.reset.dispatch.engine.fatal = none ∧ State.reset.dispatch.engine.runMix.fatal = none) := by decide +kernel

/-- Reset with the mixer enabled and a unit about to flush past the top of memory. -/
def badCapture (u : CapIx) : State :=
  { State.reset.setCap u { Capture.reset with
      cnt := 0x80, dst := 0x07FFFFFC, length := 16, tmr := 0xFE00, timer := 0xFE00, fifo := [0, 0, 0, 0, 0, 0] } with
    soundcnt := 0x807F }

/-- A lane that advances and one whose refill raises; and, with the mixer enabled, a mix that raises in the lanes, in unit
0, in unit 1, and nowhere. -/
theorem test_witness_MixRunsItsPhasesInOrder :
    let bad := playing 0 { atTop 0x8240007F 0 with tmr := 0xFE00, timer := 0xFE00 }
    let zero := fun s : State => { s with mix := { s.mix with left := 0, right := 0, outl := 0, outr := 0 } }
    let s := playing 8 { Lane.reset with cnt := 0xE8400040, tmr := 0xFE00, timer := 0xFE00, pos := -1 }
    (bad.fatal = none ∧ (bad.lane 0).cnt.getLsbD 31 = true ∧ genOf 0 (bad.lane 0).cnt ≠ .none ∧
      (laneAdvance bad.mem .pcm8 (bad.lane 0)).err = some 0x08000000 ∧ ((zero bad).runLanes allLanes).fatal ≠ none) ∧
    ((s.lane 8).cnt.getLsbD 31 = true ∧ genOf 8 (s.lane 8).cnt = .psg ∧ (laneAdvance s.mem .psg (s.lane 8)).err = none ∧
      ((zero s).runLanes allLanes).fatal = none ∧ ((zero s).runLanes allLanes).accumulate.captureFeed.fatal = none) ∧
    ((badCapture 0).fatal = none ∧ ((badCapture 0).cap 0).cnt.getLsbD 7 = true ∧
      ((badCapture 0).cap 1).cnt.getLsbD 7 = false) ∧
    (((zero (badCapture 0)).runLanes allLanes).fatal = none ∧
      (((zero (badCapture 0)).runLanes allLanes).accumulate.feedCap 0).fatal ≠ none) ∧
    ((((zero (badCapture 1)).runLanes allLanes).accumulate.feedCap 0).fatal = none ∧
      ((((zero (badCapture 1)).runLanes allLanes).accumulate.feedCap 0).feedCap 1).fatal ≠ none) := by decide +kernel

/-- A row that completes, one whose flush meets an unmapped address, and the fuels at the wrap. -/
theorem test_witness_CaptureRun_rows :
    State.reset.fatal = none ∧ (capRun false false 0 Capture.reset []).err = none ∧
    (capRun false false 0 { Capture.reset with
      dst := 0x07FFFFFC, length := 16, timer := 0xFE00, fifo := [0, 0, 0, 0, 0, 0] } []).err = some 0x08000000 ∧
    (Config.timerWrap ≤ 0x10000 ∧ 0x10000 < Config.timerWrap + (0 + 1)) := by decide

/-- Fewer than four samples waiting, inside the buffer and at its end; four, inside the buffer and at its end; and a flush
that meets an unmapped address. -/
theorem test_witness_CaptureRun_one_sample :
    (([0, 0] : List Byte).length < 4 * 2 ∧ 2 < 8 ∧ 4 ≤ 4) ∧ 4 * 2 ≤ (List.replicate 8 (0 : Byte)).length ∧
    (let f := capFlush { Capture.reset with length := 16, pos := 8, fifo := List.replicate 8 0 } []
     f.err = none ∧ f.cap.pos < f.cap.length) ∧
    (let f := capFlush { Capture.reset with length := 8, pos := 8, fifo := List.replicate 8 0 } []
     f.err = none ∧ f.cap.length ≤ f.cap.pos) ∧
    (capFlush { Capture.reset with dst := 0x07FFFFFC, length := 16, fifo := List.replicate 8 0 } []).err ≠ none := by decide

/-- A flush that wraps, one of more bytes than the buffer holds (the later of two bytes to one place stays), one whose fifth
byte is the first at an unmapped address (V-CAP-5), and one from an offset at the length. -/
theorem test_witness_CaptureFlushAndEnd :
    let c := { Capture.reset with length := 8, woff := 4, fifo := [1, 2, 3, 4, 5, 6, 7, 8] }
    Memory.wf [] ∧ c.registersInRange ∧
    (∀ i < c.fifo.length, Config.mapped (c.dst + BitVec.ofNat 32 ((c.woff + i) % c.length)) = true) ∧
    (∀ i < 8, ∀ j < 8, i < j → (4 + j) % 8 ≠ (4 + i) % 8) ∧ (0 + 4) % 4 = (0 + 0) % 4 ∧
    (let d := { Capture.reset with dst := 0x07FFFFFC, length := 16, fifo := [1, 2, 3, 4, 5, 6, 7, 8] }
     d.registersInRange ∧ Config.mapped (d.dst + BitVec.ofNat 32 4) = false ∧
      ∀ i < 4, Config.mapped (d.dst + BitVec.ofNat 32 ((d.woff + i) % d.length)) = true) ∧
    (let e := { Capture.reset with woff := 4, fifo := [1, 2] }
     e.registersInRange ∧ ¬e.woff < e.length ∧ Config.mapped (e.dst + BitVec.ofNat 32 e.woff) = true ∧
      Config.mapped (e.dst + BitVec.ofNat 32 ((1 - 1) % e.length)) = true) := by decide

theorem test_witness_MemoryFrame :
    State.reset.registersInRange ∧ exec (.memw 0x1000 1) State.reset = .next { State.reset with mem := [(0x1000, 1)] } ∧
    0x1001 ≠ (0x1000 : Word).toNat ∧ (∀ u, (State.reset.cap u).cnt.getLsbD 7 = true → False) ∧
    (∀ o < (State.reset.cap 0).length, 4 ≠ ((State.reset.cap 0).dst + BitVec.ofNat 32 o).toNat) ∧
    4 ≠ ((State.reset.cap 0).dst + BitVec.ofNat 32 (State.reset.cap 0).woff).toNat :=
  ⟨by decide, rfl, by decide, by decide, by decide, by decide⟩

/-- The tiers as ReqchFindsTheFirstLane writes them (`Config.realLe` is the order of the reals, `realLe_iff`). -/
def tier (category : Category) (track t : Nat) (x : Voice) : Bool :=
  match t, x with
  | 1, .opened => true
  | 2, .freeing f => Config.realLe f.cur (.rat 1)
  | 3, .used u => category = .pcm && u.track = track && u.kind = .drum
  | 4, .freeing _ => true
  | 5, .used u => u.track = track
  | _, _ => false

/-- The lanes of a list that a tier holds of. -/
def tierLanes (s : State) (category : Category) (track t : Nat) (pref : List LaneIx) : List LaneIx :=
  pref.filter fun n => tier category track t (s.voice n)

/-- Each tier first at some lane, with no lane in the tiers before it; and no tier at all. -/
theorem test_witness_ReqchFindsTheFirstLane :
    let pcm : List LaneIx := [0, 2, 4, 5, 6, 7]
    State.reset.fatal = none ∧ pcm = [] ++ 0 :: [2, 4, 5, 6, 7] ∧
    tierLanes State.reset .pcm 1 1 pcm = pcm ∧
    ([1, 2].map fun t => tierLanes (pcmFull.setVoice 4 (.freeing (freed 1))) .pcm 9 t pcm) = [[], [4]] ∧
    ([1, 2, 3].map fun t => tierLanes (pcmFull.setVoice 5 (.used (usedBy .drum 4))) .pcm 4 t pcm) = [[], [], [5]] ∧
    ([1, 2, 3, 4].map fun t => tierLanes (pcmFull.setVoice 2 (.freeing (freed 50))) .pcm 9 t pcm) = [[], [], [], [2]] ∧
    ([1, 2, 3, 4, 5].map fun t => tierLanes pcmFull .pcm 3 t pcm) = [[], [], [], [], [4]] ∧
    ([1, 2, 3, 4, 5].map fun t => tierLanes pcmFull .pcm 7 t pcm) = [[], [], [], [], []] := by decide +kernel

theorem test_witness_ReleaseFreesTheTrack : pcmFull.fatal = none ∧ (usedBy .note 1).track = 1 ∧
    pcmFull.voice 0 = .used (usedBy .note 1) ∧ pcmFull.voice 1 = .blocked := by decide +kernel

theorem test_witness_WithheldLeavesOnlyByPopulate :
    exec .step (State.reset.setVoice 0 .withheld) = .next (after .step (State.reset.setVoice 0 .withheld)) ∧
    (State.reset.setVoice 0 .withheld).voice 0 = .withheld := ⟨rfl, by decide⟩

/-- A complete timbre, with the start's bursts mapped and, for a sample at the top of memory, not. -/
theorem test_witness_PopulateFillsTheVoice :
    let s := State.reset.setVoice 0 .withheld
    let l := fun src : Word => { s.lane 0 with cnt := (0x81400000 : Word), tmr := 0xFE00, src := src, length := 16 }
    s.fatal = none ∧ s.blockedExactly ∧ s.voice 0 = .withheld ∧ envDefect timbre.env = none ∧ timbre.queue = [] ∧
    (laneStart s.mem (l 0x1000)).err = none ∧ (laneStart s.mem (l 0x07FFFFFC)).err = some 0x08000000 := by decide +kernel

/-- An envelope of each defect of R331. -/
def badEnvs : List Envelope :=
  [{ env with attack := some (.exactPoints []) }, { env with decay := some (.linear 10), sustain := none },
   { env with release := some (.exponential 48 (.rat 1)), sustain := none },
   { env with release := some (.exponentialUntil 48 (.rat 1)), sustain := some { volume := .rat 0, duration := .inf } }]

/-- Index -1 and 16, an open voice, a blocked one; and a defect in the first envelope. V-ENV-8 lists the defects. -/
theorem test_witness_PopulateFaultsBeforeAnyChange :
    State.reset.fatal = none ∧ (∀ k : LaneIx, (-1 : Int) ≠ (k.val : Int)) ∧ (∀ k : LaneIx, (16 : Int) ≠ (k.val : Int)) ∧
    State.reset.voice 0 ≠ .withheld ∧ State.reset.voice 1 ≠ .withheld ∧
    (State.reset.setVoice 15 .withheld).voice 15 = .withheld ∧
    badEnvs.map envDefect = [some .exactWithoutPoints, some .linearDecayWithoutSustain,
      some .exponentialReleaseUndefined, some .exponentialReleaseUndefined] := by decide +kernel

/-- No lane for any category, and a lane for every category. -/
theorem test_witness_TriggerAllocatesThenPopulates :
    full.fatal = none ∧ (∀ c, full.findLane c 7 = none) ∧ ∀ c, ∃ n, State.reset.findLane c 7 = some n := by
  refine ⟨by decide, ?_, ?_⟩
  · intro c; cases c <;> decide
  · intro c
    cases c
    · exact ⟨0, by decide⟩
    · exact ⟨8, by decide⟩
    · exact ⟨14, by decide⟩

/-- The first and the last tick of each phase of the envelope of V-ENV-1, and R337's example. -/
theorem test_witness_EnvelopePhases :
    let e : Envelope := { attack := some (.linear (.rat 100) 20), decay := some (.linear 40),
                          sustain := some { volume := .rat 60, duration := .ticks 16 }, release := some .geometric }
    let c : RealNum := .div (.ln (.rat (1 / 2))) (.rat 192)
    (0 < (shape e).ta ∧ 19 < (shape e).ta) ∧ ((shape e).ta ≤ 20 ∧ 59 < (shape e).ta + (shape e).td) ∧
    ((shape e).ts = .ticks 16 ∧ (shape e).ta + (shape e).td ≤ 60 ∧ 75 < (shape e).ta + (shape e).td + 16) ∧
    (shape e).ta + (shape e).td + 16 ≤ 76 ∧ (shape env).ts = .inf ∧ (shape env).ta + (shape env).td ≤ 0 ∧
    (let x : Envelope := { env with decay := some (.exponential c 192) }
     x.attack = none ∧ x.decay = some (.exponential c 192) ∧ x.sustain = some ⟨.rat (127 / 2), .inf⟩) := by
  refine ⟨by decide, by decide, by decide, by decide, by decide, by decide, rfl, rfl, rfl⟩

/-- Each variant; a time before the first point, at a point, and after the last; and a positive floor and sustain level. -/
theorem test_witness_EnvelopeCurves :
    let points : List (Nat × RealNum) := [(2, .rat 10), (4, .rat 50)]
    let e : Envelope := { attack := some (.exactPoints points), decay := none, sustain := none, release := none }
    e.attack = some (.exactPoints ([(2, .rat 10)] ++ [(4, .rat 50)])) ∧ e.decay = none ∧ e.sustain = none ∧
    (∀ q ∈ points, 1 < q.1) ∧ points = [] ++ (2, .rat 10) :: [(4, .rat 50)] ∧ 2 ≤ 3 ∧
    (∀ q ∈ [((4 : Nat), RealNum.rat 50)], 3 < q.1) ∧ (∀ q ∈ ([] : List (Nat × RealNum)), 4 < q.1) ∧ env.attack = none ∧
    env.sustain = some ⟨.rat (127 / 2), .inf⟩ ∧
    ({ env with attack := some (.linear (.rat 100) 20), decay := some (.linear 40) } : Envelope).decay =
      some (.linear 40) ∧ 0 < 20 ∧ 0 < 40 ∧ 0 < 48 ∧ 0 < (RealNum.rat 1).val ∧ 0 < (RealNum.rat (127 / 2)).val := by
  refine ⟨rfl, rfl, rfl, by decide, rfl, by decide, by decide, by decide, rfl, rfl, rfl, by decide, by decide, by decide,
    ?_, ?_⟩ <;> norm_num

theorem test_witness_RealFunctionProperties : (0 : ℝ) < 1 ∧ (0 : ℝ) < 1 / 2 ∧ (1 / 2 : ℝ) < 1 := by norm_num

theorem test_witness_VolumeQuantisation : (RealNum.rat 0).val ≤ 0 ∧
    (0 < (RealNum.rat (1279 / 10)).val ∧ (RealNum.rat (1279 / 10)).val < 128) ∧
    (128 ≤ (RealNum.rat 128).val ∧ (RealNum.rat 64).val = (RealNum.rat 128).val / 2) := by norm_num

/-- POW2(0) is not 0; an offset of 0; and the base-2 power, which is 2 at 1. -/
theorem test_witness_PitchFormula : Config.realInterp.pow2 ((RealNum.rat 0).val / 12) ≠ 0 ∧ (RealNum.rat 0).val = 0 ∧
    ∃ I : RealInterp, I.pow2 1 = 2 := by
  obtain ⟨I, -, -, h, -⟩ := real_functions_allowed (fun _ => 0) (1 / 2) (1 / 2) 1 (by norm_num) (by norm_num) one_pos
  refine ⟨?_, by simp, I, by rw [h]; norm_num⟩
  simp [Config.realInterp.pow2_zero]

/-- A floor equal to the sustain level, and one below it. -/
theorem test_witness_EnvelopeMonotone : 0 ≤ (RealNum.rat 0).val ∧ 0 < 20 ∧ 0 ≤ 1 ∧ 0 < 48 ∧ 0 < (RealNum.rat 1).val ∧
    (RealNum.rat 1).val ≤ (RealNum.rat 1).val ∧ (RealNum.rat 1).val ≤ (RealNum.rat (127 / 2)).val := by norm_num

/-- A voice on lane 0 that is freeing since tick 0, one evaluation interval later. -/
def dueState (f : FreeingVoice) : State :=
  { State.reset.setVoice 0 (.freeing f) with tick := Config.eventTiming }

/-- Not due at the release itself; due one interval later, whatever EVENT_TIMING is; forced; at the threshold 1; and
above it (a floor equal to the sustain level keeps the volume). -/
theorem test_witness_FreeingVoiceDecaysThenOpens :
    (State.reset.setVoice 0 (.freeing (freed 50))).voice 0 = .freeing (freed 50) ∧
    ¬(freed 50).relTick < (State.reset.setVoice 0 (.freeing (freed 50))).tick ∧
    (∀ f, f.relTick = 0 → (dueState f).voice 0 = .freeing f ∧ f.relTick < (dueState f).tick ∧
      ((dueState f).tick - f.relTick) % Config.eventTiming = 0) ∧
    (∀ v0 t, (releaseCurve (some (.staticValue (.rat 5))) v0 v0 t).2 = true) ∧
    (∀ v0 t, (releaseCurve none v0 v0 t).1.val ≤ 1) ∧
    (∀ t, (releaseCurve (some (.exponential 1 (.rat 1))) (.rat 50) (.rat 1) t).2 = false ∧
      1 < (releaseCurve (some (.exponential 1 (.rat 1))) (.rat 50) (.rat 1) t).1.val) := by
  refine ⟨by decide +kernel, by decide, ?_, fun _ _ => rfl, ?_, fun t => ⟨rfl, ?_⟩⟩
  · intro f hf
    refine ⟨by simp [dueState, State.voice, State.setVoice], ?_, ?_⟩
    · rw [hf]; show 0 < Config.eventTimingLessOne + 1; omega
    · rw [hf]; exact Nat.mod_self _
  · intro v0 t; simp [releaseCurve, Config.noReleaseValue]
  · have hl : Config.realInterp.ln 1 = 0 := by
      have h := Config.realInterp.exp_ln 1 one_pos
      have h := h.trans Config.realInterp.exp_zero.symm
      exact StrictMono.injective (fun x y hxy => Config.realInterp.exp_strictMono x y hxy) h
    norm_num [releaseCurve, decayed, releaseConstant, hl, Config.realInterp.exp_zero]

/-- Not due, one tick after the start if EVENT_TIMING is more than one; due at the start; an adjustment one tick away, and
the second of two equal ones; a segment not due, and one that is, with its bursts mapped and not; and both values of
`completed`. -/
theorem test_witness_UsedVoiceIsEvaluatedOnSchedule :
    let u := { usedBy .drum 1 with pitchAdj := [(3, 0xFE00), (3, 0xFF00)] }
    let seg : SampleSeg := { src := 0x1000, loopWords := 0, lenWords := 4, volume := .rat 0 }
    let l := fun src : Word => { Lane.reset with
      cnt := packCnt true 0 0 1 64 0 (volq seg.volume), src := src, length := 16 }
    (State.reset.setVoice 0 (.used u)).fatal = none ∧ (State.reset.setVoice 0 (.used u)).voice 0 = .used u ∧
    (1 < Config.eventTiming → (1 - u.start) % Config.eventTiming ≠ 0) ∧ (0 - u.start) % Config.eventTiming = 0 ∧
    (∀ a ∈ u.pitchAdj, 2 < a.1) ∧
    (u.pitchAdj = [(3, 0xFE00)] ++ (3, 0xFF00) :: [] ∧ 3 ≤ 3 ∧ ∀ b ∈ [((3 : Nat), (0xFE00 : Half))], b.1 ≤ 3 → b.1 ≤ 3) ∧
    (∀ x ∈ [((12 : Nat), seg)], x.1 ≠ 11) ∧ [((12 : Nat), seg)] = [] ++ (12, seg) :: [] ∧
    (laneStart [] (l 0x1000)).err = none ∧ (laneStart [] (l 0x07FFFFFC)).err = some 0x08000000 ∧
    (State.reset.evalSamples 0 0).fatal = none ∧ (badSample.evalSamples 0 0).fatal ≠ none ∧
    u.completed = false ∧ ({ u with completed := true } : UsedVoice).completed = true := by
  refine ⟨rfl, by decide +kernel, fun h => ?_, Nat.zero_mod _, by decide, by decide, by decide, by decide,
    by decide +kernel, by decide +kernel, by decide, by decide +kernel, rfl, rfl⟩
  show (1 - 0) % Config.eventTiming ≠ 0
  rw [Nat.mod_eq_of_lt (by omega)]
  decide

/-- Not completed; completed with an empty queue; with a segment one tick away; and with one that is due. -/
theorem test_witness_CompletedVoiceRearmsHoldsOrOpens :
    let s := fun u => State.reset.setVoice 0 (.used u)
    (∀ u, (s u).voice 0 = .used u) ∧ (usedBy .note 1).completed = false ∧
    ({ usedBy .note 1 with completed := true } : UsedVoice).queue = [] ∧
    ({ usedBy .note 1 with completed := true, queue := [(20, env)] } : UsedVoice).queue = (20, env) :: [] ∧
    19 < 20 ∧ 20 ≤ 20 := by
  refine ⟨fun u => ?_, rfl, rfl, rfl, by decide, by decide⟩
  simp [State.voice, State.setVoice]

/-- An ordered list that begins at T; a late first event; an unordered second one; and a dispatch that is not abandoned. -/
theorem test_witness_EventListIsKeptInOrder :
    let s := { State.reset with tick := 10 }
    s.fatal = none ∧ [note 10 1, note 10 2].Pairwise (fun a b => a.tick ≤ b.tick) ∧
    (∀ ev ∈ [note 10 1, note 10 2], s.tick ≤ ev.tick) ∧ (note 9 1).tick < s.tick ∧
    [note 12 1, note 11 1] = [note 12 1] ++ note 11 1 :: [] ∧ (∀ b ∈ [note 12 1], s.tick ≤ b.tick) ∧
    (∃ b ∈ [note 12 1], (note 11 1).tick < b.tick) ∧ (note 10 1).tick = s.tick ∧ (note 11 1).tick ≠ s.tick ∧
    ({ s with events := [note 11 1] } : State).dispatch.fatal = none := by
  decide

theorem test_witness_MemwWritesOneByte : State.reset.fatal = none ∧ Memory.wf State.reset.mem ∧
    Config.mapped 0x07FFFFFF = true ∧ Config.mapped 0x08000000 = false := by decide

/-- Mapped up to the top, and first unmapped at the second byte of two. -/
theorem test_witness_MemoryAccessIsLittleEndian : 2 ∈ [1, 2, 4] ∧ Memory.wf [(5, 7)] ∧
    (∀ i < 2, Config.mapped (0x07FFFFFE + BitVec.ofNat 32 i) = true) ∧
    (1 < 2 ∧ Config.mapped (0x07FFFFFF + BitVec.ofNat 32 1) = false ∧
      ∀ j < 1, Config.mapped (0x07FFFFFF + BitVec.ofNat 32 j) = true) := by decide

theorem test_witness_EngineEvaluatesVoicesInOrder : State.reset.voice 0 = .opened ∧ State.reset.voice 1 = .blocked ∧
    (State.reset.setVoice 2 .withheld).voice 2 = .withheld ∧ (2 : LaneIx) ≠ 0 ∧ (2 : LaneIx) ≠ 1 ∧ (2 : LaneIx) ≠ 3 := by
  decide

/-- A state with a write waiting that meets every invariant, and its step. -/
theorem test_witness_invariants :
    let s := State.reset.withFetchWord 32 0x04000500
    s.registersInRange ∧ s.runStateInRange ∧ s.timersInRange ∧ s.blockedExactly ∧ s.eventsInOrder ∧ s.startsInPast ∧
      s.memoryInForm ∧ step s = .next State.reset := by
  refine ⟨by decide, by decide, by decide, by decide, by decide, ?_, by decide, rfl⟩
  intro n u h
  have hv : ∀ n, State.reset.voice n = .opened ∨ State.reset.voice n = .blocked := by decide
  rcases hv n with hn | hn <;> cases hn.symm.trans h

/-- An offset below the length, a length write just above it, and an operation that writes no length. -/
theorem test_witness_RegistersStayInRange :
    let s := State.reset.setCap 0 { Capture.reset with length := 8, woff := 7 }
    s.registersInRange ∧ (s.cap 0).offsetBelowLength ∧ (∃ t, exec (.sndcap0len 2) s = .next t) ∧
    (s.cap 0).woff < max 4 (4 * (2 : Half).toNat) ∧ ¬(s.cap 0).woff < max 4 (4 * (1 : Half).toNat) ∧
    ((.sndcap0len 2 : Instr) = .sndcap0len 2) ∧ (.step : Instr) ≠ .sndcap0len 2 ∧ (.step : Instr) ≠ .wr16 0x04000514 2 :=
  ⟨by decide, by decide, ⟨_, rfl⟩, by decide, by decide, rfl, by decide, by decide⟩

end Sys2Proof.Tests
end

section
/-!
PROOFS for spec/00_scope.md: the real arithmetic (R8, R9, R12).
-/

namespace Sys2Proof.Proofs

open Sys2Proof Sys2Proof.Config

/-- PITCH_ROUND truncates toward zero: its negative branch, a negated floor of the negation, is the ceiling (R8, D26). -/
theorem pitchRound_eq (x : RealNum) : pitchRound x = if 0 ≤ x.val then ⌊x.val⌋ else ⌈x.val⌉ := by
  have hneg : (RealNum.sub (.rat 0) x).val = -x.val := by simp
  have hle : realLe (.rat 0) x = true ↔ 0 ≤ x.val := by simp [realLe_iff]
  simp only [pitchRound, hle, realFloor_eq, hneg, Int.floor_neg, neg_neg]

/-- Settles O43, from the lemmas on what the two questions answer (`realLe_iff`, `realFloor_eq`, `pitchRound_eq`), the
properties every interpretation carries, and the two lemmas on what the interpretation may be. -/
theorem realFunctionProperties : Obligations.RealFunctionProperties := by
  refine ⟨realLe_iff, realFloor_eq, pitchRound_eq, ⟨realInterp.exp_zero, realInterp.exp_strictMono, realInterp.exp_ln,
    realInterp.pow2_zero⟩, ⟨realInterp.geomRatio_mem.1, realInterp.geomRatio_mem.2, realInterp.geomSbRatio_mem.1,
    realInterp.geomSbRatio_mem.2, realInterp.pitchTimer_pos⟩, every_interp_has_an_oracle, ?_⟩
  intro named g g' p hg hg1 hg' hg1' hp
  obtain ⟨I, hexp, hln, hpow2, hrest⟩ := real_functions_allowed named g g' p ⟨hg, hg1⟩ ⟨hg', hg1'⟩ hp
  exact ⟨I, hexp, hln, congrFun hpow2, hrest⟩

end Sys2Proof.Proofs
end

section
/-!
SUPPORT for spec/10_state.md. The invariants of the voice table, of the pending events and of memory: which moves of the
block can break each, and that none does.
-/

namespace Sys2Proof.Machine

/-! ### What each invariant reads -/

theorem State.blockedExactly_of_eq {s t : State} (h : s.blockedExactly) (hv : t.voices = s.voices) :
    t.blockedExactly := fun n => by simpa only [State.voice, hv] using h n

theorem State.startsInPast_of_eq {s t : State} (h : s.startsInPast) (hv : t.voices = s.voices) (ht : t.tick = s.tick) :
    t.startsInPast := fun n u hu => ht ▸ h n u (by simpa only [State.voice, hv] using hu)

theorem State.eventsInOrder_of_eq {s t : State} (h : s.eventsInOrder) (he : t.events = s.events)
    (ht : t.tick = s.tick) : t.eventsInOrder := by
  rw [State.eventsInOrder, he, ht]
  exact h

theorem State.memoryInForm_of_eq {s t : State} (h : s.memoryInForm) (hm : t.mem = s.mem) : t.memoryInForm := by
  rw [State.memoryInForm, hm]
  exact h

/-! ### The voice table -/

/-- RELEASE reaches each voice by itself (R298). -/
@[simp] theorem State.voice_releaseTrack (s : State) (track tick : Nat) (n : LaneIx) :
    (s.releaseTrack track tick).voice n = releaseVoice track tick (s.voice n) := by
  simp [State.releaseTrack, State.voice]

/-- RELEASE makes a Used voice Freeing or leaves a voice as it is (R298). -/
theorem releaseVoice_cases (track tick : Nat) (x : Voice) :
    (∃ u f, x = .used u ∧ releaseVoice track tick x = .freeing f) ∨ releaseVoice track tick x = x := by
  unfold releaseVoice
  split
  · split
    exacts [.inl ⟨_, _, rfl, rfl⟩, .inr rfl]
  · exact .inr rfl

/-- No tier takes a Blocked voice (R293). -/
theorem tierHolds_not_blocked {category : Category} {track : Nat} {t : Tier} {x : Voice}
    (h : tierHolds category track t x = true) : x ≠ .blocked := by
  rintro rfl
  cases t <;> simp [tierHolds] at h

/-- The voice table keeps its Blocked lanes when one voice that is not Blocked is replaced by another. -/
theorem State.blockedExactly_setVoice {s : State} {n : LaneIx} {x : Voice} (h : s.blockedExactly)
    (hn : s.voice n ≠ .blocked) (hx : x ≠ .blocked) : (s.setVoice n x).blockedExactly := by
  intro k
  rw [State.voice_setVoice]
  split
  · rename_i e
    subst e
    simpa [hx] using mt (h n).2 hn
  · exact h k

/-- No voice starts in the future when a voice is replaced by one that does not. -/
theorem State.startsInPast_setVoice {s : State} {n : LaneIx} {x : Voice} (h : s.startsInPast)
    (hx : ∀ u, x = .used u → u.start ≤ s.tick) : (s.setVoice n x).startsInPast := by
  intro k u hu
  rw [State.voice_setVoice] at hu
  split at hu
  exacts [hx u hu, h k u hu]

theorem Closed.blockedExactly : Closed State.blockedExactly := by
  constructor
  case reserve => exact fun _ _ _ _ _ _ _ ht h => State.blockedExactly_setVoice h (tierHolds_not_blocked ht) (by simp)
  case fill => exact fun _ _ _ _ _ hv h => State.blockedExactly_setVoice h (by simp [hv]) (by simp)
  case used => exact fun _ _ _ _ _ hv _ h => State.blockedExactly_setVoice h (by simp [hv]) (by simp)
  case freeing => exact fun _ _ _ _ _ hv h => State.blockedExactly_setVoice h (by simp [hv]) (by simp)
  case openUsed => exact fun _ _ _ _ hv h => State.blockedExactly_setVoice h (by simp [hv]) (by simp)
  case openFreeing => exact fun _ _ _ _ hv h => State.blockedExactly_setVoice h (by simp [hv]) (by simp)
  case release =>
    intro s track tick _ h n
    rw [State.voice_releaseTrack, ← h n]
    rcases releaseVoice_cases track tick (s.voice n) with ⟨u, f, hu, hf⟩ | e
    · rw [hf, hu]
      simp
    · rw [e]
  case reset => exact fun _ _ => show State.reset.blockedExactly by decide
  all_goals -- the other moves leave the voice table alone
    intros
    rename_i h
    exact State.blockedExactly_of_eq h (by simp [State.laneStep, State.runCap, State.finishStep])

theorem Closed.startsInPast : Closed State.startsInPast := by
  constructor
  case reserve => exact fun _ _ _ _ _ _ _ _ h => State.startsInPast_setVoice h (by simp)
  case fill => exact fun _ _ ev rt _ _ h => State.startsInPast_setVoice h (by simp [newVoice])
  case used => exact fun _ n u _ _ hv e h => State.startsInPast_setVoice h (by simpa [e] using h n u hv)
  case freeing => exact fun _ _ _ _ _ _ h => State.startsInPast_setVoice h (by simp)
  case openUsed => exact fun _ _ _ _ _ h => State.startsInPast_setVoice h (by simp)
  case openFreeing => exact fun _ _ _ _ _ h => State.startsInPast_setVoice h (by simp)
  case release =>
    intro s track tick _ h n u hu
    rw [State.voice_releaseTrack] at hu
    rcases releaseVoice_cases track tick (s.voice n) with ⟨_, f, -, hf⟩ | e
    · simp [hf] at hu
    · exact h n u (e ▸ hu)
  case finish => exact fun s _ _ h n u hu => (h n u hu).trans (Nat.le_succ _)
  case reset =>
    intro s _ n u hu
    rw [State.voice_resetBlock, State.voice_reset] at hu
    split at hu <;> cases hu
  all_goals -- the other moves leave the voice table and the tick alone
    intros
    rename_i h
    refine State.startsInPast_of_eq h ?_ ?_ <;> simp [State.laneStep, State.runCap]

/-- A pending event that is not due is due later, and so are all after it (R24, R382). -/
theorem State.eventsInOrder_finish {s : State} (h : s.eventsInOrder)
    (hd : ∀ ev rest, s.events = ev :: rest → ev.tick ≠ s.tick) : s.finishStep.eventsInOrder := by
  obtain ⟨hs, ht⟩ := h
  refine ⟨hs, fun ev hev => ?_⟩
  show s.tick + 1 ≤ ev.tick
  cases he : s.events with
  | nil => simp [State.finishStep, he] at hev
  | cons head rest =>
    have hev : ev ∈ head :: rest := he ▸ hev
    have hh : s.tick ≤ head.tick := ht head (by simp [he])
    have hne := hd head rest he
    rw [he] at hs
    rcases List.mem_cons.1 hev with rfl | hr
    · omega
    · have := (List.pairwise_cons.1 hs).1 ev hr
      omega

theorem Closed.eventsInOrder : Closed State.eventsInOrder := by
  constructor
  case pop =>
    rintro s ev rest _ he ⟨hs, ht⟩
    rw [he] at hs
    exact ⟨hs.of_cons, fun e h => ht e (by simp [he, h])⟩
  case load => exact fun s events _ h _ => (firstLate_none events s.tick).1 h
  case finish => exact fun s _ hd h => State.eventsInOrder_finish h hd
  case reset => exact fun _ _ => ⟨List.Pairwise.nil, by simp [State.reset]⟩
  all_goals -- the other moves leave the events and the tick alone
    intros
    rename_i h
    refine State.eventsInOrder_of_eq h ?_ ?_ <;> simp [State.laneStep, State.runCap, State.releaseTrack]

/-! ### Memory -/

/-- A write to a mapped address keeps the form of memory (R82, R84). -/
theorem State.memoryInForm_write {s : State} {a : Word} (h : s.memoryInForm) (ha : Config.mapped a = true) (b : Byte) :
    State.memoryInForm { s with mem := Memory.write s.mem a.toNat b } := by
  obtain ⟨hw, hm⟩ := h
  refine ⟨Memory.wf_write hw _ _, fun c hc => ?_⟩
  rcases Memory.mem_write hc with hc | rfl
  · exact hm c hc
  · exact ⟨by simpa using ha, a.isLt⟩

theorem Closed.memoryInForm : Closed State.memoryInForm := by
  constructor
  case cap =>
    intro s u fmt8 oneshot _ h
    have hm := capRun_holds (P := fun _ m => State.memoryInForm { s with mem := m }) fmt8 oneshot (s.captureSample u)
      (fun _ _ b h ha => State.memoryInForm_write h ha b) (fun _ _ h => h) (fun _ _ _ _ h => h) (fun _ _ _ h => h)
      (fun _ _ h => h) (fun _ _ h => h) (s.cap u) s.mem h
    exact State.memoryInForm_of_eq hm (by simp [State.runCap])
  case write => exact fun s a b _ ha h => State.memoryInForm_write h ha b
  all_goals -- the other moves leave memory alone
    intros
    rename_i h
    exact State.memoryInForm_of_eq h (by simp [State.laneStep, State.releaseTrack, State.finishStep])

end Sys2Proof.Machine
end

section
/-!
SUPPORT for spec/10_state.md. An invariant of the lanes, and one of the capture units, is shown on the moves of one lane
or one unit alone.
-/

namespace Sys2Proof.Machine

/-! ### Invariants of the lanes -/

/-- `Q` holds of every lane; its first operand says whether no fatal error is set. -/
abbrev State.eachLane (Q : Prop → Lane → Prop) (s : State) : Prop := ∀ n, Q (s.fatal = none) (s.lane n)

/-- The single moves of a lane keep `Q`; a move that is abandoned need only leave what holds beside a fatal error. -/
structure LaneClosed (Q : Prop → Lane → Prop) : Prop where
  fatal : ∀ live l, Q True l → Q live l
  cnt : ∀ l v, (keyon v = false ∨ keyon l.cnt = true) → Q True l → Q True { l with cnt := v }
  start : ∀ m l v, Q True l → Q ((laneStart m { l with cnt := v }).err = none) (laneStart m { l with cnt := v }).lane
  src : ∀ l v, Q True l → Q True { l with src := maskAddr v }
  tmr : ∀ l v, Q True l → Q True { l with tmr := v }
  loopPos : ∀ l v, Q True l → Q True { l with loopPos := loopBytes v }
  length : ∀ l v, Q True l → Q True { l with length := lengthBytes v }
  gen : ∀ m g l, Q True l → Q True (genStep m g l).lane
  psg : ∀ l d, Q True l → Q True (stepPsg d l)
  run : ∀ m g l, keyon l.cnt = true → Q True l → Q ((laneAdvance m g l).err = none) (laneAdvance m g l).lane
  reset : Q True Lane.reset

namespace LaneClosed

variable {Q : Prop → Lane → Prop} (c : LaneClosed Q) {s t : State}

/-- Without a fatal error, `Q` holds of every lane as it does without one. -/
theorem live (hl : s.fatal = none) (h : s.eachLane Q) (n : LaneIx) : Q True (s.lane n) := by
  simpa only [hl] using h n

include c

/-- What leaves the lanes alone keeps an invariant of them, whether or not it raises. -/
theorem of_eq (hl : s.fatal = none) (h : s.eachLane Q) (e : ∀ n, t.lane n = s.lane n) : t.eachLane Q :=
  fun n => c.fatal _ _ (e n ▸ live hl h n)

theorem setLane (hl : s.fatal = none) (h : s.eachLane Q) {n : LaneIx} {l : Lane} (hq : Q True l) :
    (s.setLane n l).eachLane Q := by
  intro k
  refine c.fatal _ _ ?_
  rw [State.lane_setLane]
  split
  exacts [hq, live hl h k]

theorem commitLane (hl : s.fatal = none) (h : s.eachLane Q) {n : LaneIx} {r : LaneOut} (hq : Q (r.err = none) r.lane) :
    (s.commitLane n r).eachLane Q := by
  intro k
  simp only [State.commitLane_live, hl, true_and, State.lane_commitLane]
  split
  exacts [hq, c.fatal _ _ (live hl h k)]

theorem writeCnt (hl : s.fatal = none) (h : s.eachLane Q) (n : LaneIx) (v : Word) : (s.writeCnt n v).eachLane Q := by
  by_cases hv : keyon v = false ∨ keyon (s.lane n).cnt = true
  · rw [State.writeCnt_noEdge _ _ _ hv]
    exact c.setLane hl h (c.cnt _ _ hv (live hl h n))
  · simp only [not_or, Bool.not_eq_false, Bool.not_eq_true] at hv
    rw [State.writeCnt_edge _ _ _ hv.1 hv.2]
    exact c.commitLane hl h (c.start _ _ _ (live hl h n))

theorem writeTmr (hl : s.fatal = none) (h : s.eachLane Q) (n : LaneIx) (v : Half) : (s.writeTmr n v).eachLane Q := by
  intro k
  refine c.fatal _ _ ?_
  rw [State.lane_writeTmr]
  split
  exacts [c.tmr _ _ (live hl h n), live hl h k]

/-- An invariant of the lanes is one of the block. -/
theorem closed : Closed (State.eachLane Q) := by
  constructor
  case cnt => exact fun _ n v hl h => c.writeCnt hl h n v
  case tmr => exact fun _ n v hl h => c.writeTmr hl h n v
  case sad => exact fun _ n v hl h => c.setLane hl h (c.src _ v (live hl h n))
  case pnt => exact fun _ n v hl h => c.setLane hl h (c.loopPos _ v (live hl h n))
  case len => exact fun _ n v hl h => c.setLane hl h (c.length _ v (live hl h n))
  case gen => exact fun _ n g hl h => c.commitLane hl h (c.fatal _ _ (c.gen _ g _ (live hl h n)))
  case psg => exact fun _ n d hl h => c.commitLane hl h (c.fatal _ _ (c.psg _ d (live hl h n)))
  case run =>
    intro s n hl hr h
    simp only [laneRuns, Bool.and_eq_true] at hr
    exact c.commitLane hl h (c.run _ _ _ hr.1.1 (live hl h n))
  case cap => exact fun _ u _ _ hl h => c.of_eq hl h fun n => State.lane_commitCap ..
  case raise => exact fun _ e hl h => c.of_eq hl h fun n => State.lane_raise ..
  case reset => exact fun _ _ n => c.fatal _ _ (by simpa using c.reset)
  all_goals intros; assumption

end LaneClosed

/-! ### Invariants of the capture units -/

/-- `Q` holds of every capture unit; its first operand says whether no fatal error is set. -/
abbrev State.eachCap (Q : Prop → Capture → Prop) (s : State) : Prop := ∀ u, Q (s.fatal = none) (s.cap u)

/-- The single moves of a capture unit keep `Q`; a move that is abandoned need only leave what holds beside a fatal
error. -/
structure CapClosed (Q : Prop → Capture → Prop) : Prop where
  fatal : ∀ live c, Q True c → Q live c
  cnt : ∀ c v, (capEnable v = false ∨ capEnable c.cnt = true) → Q True c → Q True { c with cnt := maskCapCnt v }
  start : ∀ c v, Q True c → Q True { c with cnt := maskCapCnt v }.started
  dst : ∀ c v, Q True c → Q True { c with dst := maskAddr v }
  tmr : ∀ c v, Q True c → Q True { c with tmr := v }
  length : ∀ c v, Q True c → Q True { c with length := capLengthBytes v }
  run : ∀ fmt8 oneshot sample c m, Q True c →
    Q ((capRun fmt8 oneshot sample c m).err = none) (capRun fmt8 oneshot sample c m).cap
  reset : Q True Capture.reset

namespace CapClosed

variable {Q : Prop → Capture → Prop} (c : CapClosed Q) {s t : State}

/-- Without a fatal error, `Q` holds of every unit as it does without one. -/
theorem live (hl : s.fatal = none) (h : s.eachCap Q) (u : CapIx) : Q True (s.cap u) := by
  simpa only [hl] using h u

include c

/-- What leaves the units alone keeps an invariant of them, whether or not it raises. -/
theorem of_eq (hl : s.fatal = none) (h : s.eachCap Q) (e : ∀ u, t.cap u = s.cap u) : t.eachCap Q :=
  fun u => c.fatal _ _ (e u ▸ live hl h u)

theorem setCap (hl : s.fatal = none) (h : s.eachCap Q) {u : CapIx} {x : Capture} (hq : Q True x) :
    (s.setCap u x).eachCap Q := by
  intro w
  refine c.fatal _ _ ?_
  rw [State.cap_setCap]
  split
  exacts [hq, live hl h w]

theorem writeCapCnt (hl : s.fatal = none) (h : s.eachCap Q) (u : CapIx) (v : Byte) : (s.writeCapCnt u v).eachCap Q := by
  refine c.setCap hl h ?_
  split
  · exact c.start _ _ (live hl h u)
  · rename_i hv
    exact c.cnt _ _ (by simpa [imp_iff_not_or] using hv) (live hl h u)

theorem writeTmr (hl : s.fatal = none) (h : s.eachCap Q) (n : LaneIx) (v : Half) : (s.writeTmr n v).eachCap Q := by
  intro u
  refine c.fatal _ _ ?_
  rw [State.cap_writeTmr]
  split
  exacts [c.tmr _ _ (live hl h u), live hl h u]

theorem runCap (hl : s.fatal = none) (h : s.eachCap Q) (u : CapIx) (fmt8 oneshot : Bool) :
    (s.runCap u fmt8 oneshot).eachCap Q := by
  intro w
  simp only [State.runCap, State.commitCap_live, hl, true_and, State.cap_commitCap]
  split
  exacts [c.run _ _ _ _ _ (live hl h u), c.fatal _ _ (live hl h w)]

/-- An invariant of the capture units is one of the block. -/
theorem closed : Closed (State.eachCap Q) := by
  constructor
  case capCnt => exact fun _ u v hl h => c.writeCapCnt hl h u v
  case capDad => exact fun _ u v hl h => c.setCap hl h (c.dst _ v (live hl h u))
  case capLen => exact fun _ u v hl h => c.setCap hl h (c.length _ v (live hl h u))
  case tmr => exact fun _ n v hl h => c.writeTmr hl h n v
  case cap => exact fun _ u f o hl h => c.runCap hl h u f o
  case cnt => exact fun _ n v hl h => c.of_eq hl h fun u => State.cap_writeCnt ..
  case gen => exact fun _ n g hl h => c.of_eq hl h fun u => State.cap_commitLane ..
  case psg => exact fun _ n d hl h => c.of_eq hl h fun u => State.cap_commitLane ..
  case run => exact fun _ n hl _ h => c.of_eq hl h fun u => State.cap_commitLane ..
  case raise => exact fun _ e hl h => c.of_eq hl h fun u => State.cap_raise ..
  case reset => exact fun _ _ u => c.fatal _ _ (by simpa using c.reset)
  all_goals intros; assumption

end CapClosed

end Sys2Proof.Machine
end

section
/-!
SUPPORT for spec/10_state.md. The ranges of the registers, of the run state and of the timers are invariants of the lanes
and of the capture units.
-/

namespace Sys2Proof.Machine

/-! ### What a register write leaves (R22, R30 to R33, R40, R41) -/

@[simp] theorem maskAddr_maskAddr (v : Word) : maskAddr (maskAddr v) = maskAddr v := by
  simp [maskAddr, BitVec.and_assoc]

@[simp] theorem maskSoundcnt_maskSoundcnt (v : Half) : maskSoundcnt (maskSoundcnt v) = maskSoundcnt v := by
  simp [maskSoundcnt, BitVec.and_assoc]

@[simp] theorem maskCapCnt_maskCapCnt (v : Byte) : maskCapCnt (maskCapCnt v) = maskCapCnt v := by
  simp [maskCapCnt, BitVec.and_assoc]

/-- Clearing the enable leaves no bit outside the mask. -/
theorem maskCapCnt_clearCapEnable {v : Byte} (h : maskCapCnt v = v) : maskCapCnt (clearCapEnable v) = clearCapEnable v := by
  rw [← h]
  simp [maskCapCnt, clearCapEnable, BitVec.and_assoc]

/-- The mask of a capture control keeps the enable. -/
@[simp] theorem capEnable_maskCapCnt (v : Byte) : capEnable (maskCapCnt v) = capEnable v := by
  simp [capEnable, maskCapCnt]

theorem loopBytes_range (v : Half) : 4 ∣ loopBytes v ∧ loopBytes v ≤ 0x3FFFC := by
  have := v.isLt
  unfold loopBytes
  omega

theorem lengthBytes_range (v : Word) : 4 ∣ lengthBytes v ∧ lengthBytes v ≤ 0x7FFFFC := by
  have : (v &&& 0x001FFFFF).toNat ≤ 0x001FFFFF := by
    rw [BitVec.toNat_and]
    exact Nat.and_le_right
  unfold lengthBytes
  omega

theorem capLengthBytes_eq (v : Half) : capLengthBytes v = max 4 (4 * v.toNat) := by
  unfold capLengthBytes
  split <;> omega

theorem capLengthBytes_range (v : Half) : 4 ∣ capLengthBytes v ∧ 4 ≤ capLengthBytes v ∧ capLengthBytes v ≤ 0x3FFFC := by
  have := v.isLt
  unfold capLengthBytes
  split <;> omega

/-! ### Registers -/

/-- The registers of a lane are in range when they are those of a lane whose registers are. -/
theorem Lane.registersInRange_of_eq {l l' : Lane} (h : l.registersInRange)
    (e : l'.src = l.src ∧ l'.loopPos = l.loopPos ∧ l'.length = l.length) : l'.registersInRange := by
  obtain ⟨hs, hp, hl⟩ := e
  rw [Lane.registersInRange, hs, hp, hl]
  exact h

theorem LaneClosed.registersInRange : LaneClosed fun _ => Lane.registersInRange where
  fatal := fun _ _ h => h
  cnt := fun _ _ _ h => h
  start := fun m l v h => by
    obtain ⟨-, hs, -, hp, hl, -⟩ := laneStart_keeps m { l with cnt := v }
    exact Lane.registersInRange_of_eq h ⟨hs, hp, hl⟩
  src := fun _ v ⟨_, h⟩ => ⟨maskAddr_maskAddr v, h⟩
  tmr := fun _ _ h => h
  loopPos := fun _ v ⟨hs, _, _, hl⟩ => ⟨hs, (loopBytes_range v).1, (loopBytes_range v).2, hl⟩
  length := fun _ v ⟨hs, hp, hp', _⟩ => ⟨hs, hp, hp', lengthBytes_range v⟩
  gen := fun m g l h => by
    obtain ⟨hs, -, hp, hl, -⟩ := genStep_keeps m g l
    exact Lane.registersInRange_of_eq h ⟨hs, hp, hl⟩
  psg := fun _ _ h => h
  run := fun m g l _ h => by
    obtain ⟨hs, -, hp, hl, -⟩ := laneAdvance_keeps m g l
    exact Lane.registersInRange_of_eq h ⟨hs, hp, hl⟩
  reset := by decide

theorem capRun_registersInRange (fmt8 oneshot : Bool) (sample : Int) (c : Capture) (m : List Host.Cell)
    (h : c.registersInRange) : (capRun fmt8 oneshot sample c m).cap.registersInRange := by
  refine capRun_holds (P := fun c _ => c.registersInRange) fmt8 oneshot sample ?_ (fun _ _ h => h)
    (fun _ _ _ _ h => h) (fun _ _ _ h => h) ?_ ?_ c m h
  · rintro c m b ⟨hc, hd, h4, hl, hu, hw⟩ -
    refine ⟨hc, hd, h4, hl, hu, ?_⟩
    dsimp only
    split <;> omega
  · rintro c m ⟨hc, hd, h4, hl, hu, hw⟩
    exact ⟨maskCapCnt_clearCapEnable hc, hd, h4, hl, hu, Nat.zero_lt_of_lt hw⟩
  · rintro c m ⟨hc, hd, h4, hl, hu, hw⟩
    exact ⟨hc, hd, h4, hl, hu, Nat.zero_lt_of_lt hw⟩

theorem CapClosed.registersInRange : CapClosed fun _ => Capture.registersInRange where
  fatal := fun _ _ h => h
  cnt := fun _ v _ ⟨_, h⟩ => ⟨maskCapCnt_maskCapCnt v, h⟩
  start := fun _ v ⟨_, hd, h4, hl, hu, hw⟩ => ⟨maskCapCnt_maskCapCnt v, hd, h4, hl, hu, Nat.zero_lt_of_lt hw⟩
  dst := fun _ v ⟨hc, _, h⟩ => ⟨hc, maskAddr_maskAddr v, h⟩
  tmr := fun _ _ h => h
  length := fun _ v ⟨hc, hd, _, _, _, hw⟩ =>
    have ⟨h4, hl, hu⟩ := capLengthBytes_range v
    ⟨hc, hd, h4, hl, hu, hw⟩
  run := capRun_registersInRange
  reset := by decide

theorem Closed.soundcntMasked : Closed fun s => maskSoundcnt s.soundcnt = s.soundcnt := by
  constructor
  case soundcnt => exact fun _ v _ _ => maskSoundcnt_maskSoundcnt v
  case reset => exact fun _ _ => show maskSoundcnt 0 = 0 by decide
  all_goals -- the other moves leave SOUNDCNT alone
    intros
    rename_i h
    simpa [State.laneStep, State.runCap, State.releaseTrack, State.finishStep] using h

/-! ### Run state -/

theorem LaneClosed.runStateInRange : LaneClosed fun _ => Lane.runStateInRange where
  fatal := fun _ _ h => h
  cnt := fun _ _ _ h => h
  start := fun m _ _ ⟨_, ha, hb, _, hp, hl, _⟩ => laneStart_runState m ha hb hp hl
  src := fun _ _ h => h
  tmr := fun _ _ h => h
  loopPos := fun _ v ⟨hc, ha, hb, hf, _, hl⟩ => ⟨hc, ha, hb, hf, (loopBytes_range v).1, hl⟩
  length := fun _ v ⟨hc, ha, hb, hf, hp, _, hn⟩ => ⟨hc, ha, hb, hf, hp, (lengthBytes_range v).1, hn⟩
  gen := fun m g _ h => genStep_runState m g h
  psg := fun _ d h => stepPsg_runState d h
  run := fun m g _ _ h => laneAdvance_runState m g h
  reset := by decide

/-- FINAL clamps: neither the bias nor the 10-bit output is on (R246; log 13). -/
theorem State.signed16_final (s : State) (o : Int) : signed16 (s.final o) := by
  simp only [State.final, Config.applyBias, Config.degrade10bit, Bool.false_eq_true, if_false, clamp, signed16]
  omega

theorem Closed.outInRange : Closed fun s => signed16 s.out.1 ∧ signed16 s.out.2 := by
  constructor
  case finish => exact fun s _ _ _ => ⟨s.signed16_final _, s.signed16_final _⟩
  case reset => exact fun _ _ => ⟨signed16_zero, signed16_zero⟩
  all_goals -- the other moves leave the output pair alone
    intros
    rename_i h
    simpa [State.laneStep, State.runCap, State.releaseTrack] using h

/-! ### Timers -/

/-- The bound of a lane's timer (R34, R191), `live` that no fatal error is set. -/
abbrev Lane.timerInRange (live : Prop) (l : Lane) : Prop :=
  l.timer < Config.timerWrap + Config.tickCycles ∧ (live → keyon l.cnt = true → l.timer < Config.timerWrap)

/-- The bound of a capture unit's timer (R42), `live` that no fatal error is set. -/
abbrev Capture.timerInRange (live : Prop) (c : Capture) : Prop :=
  live → capEnable c.cnt = true → c.timer < Config.timerWrap

/-- A timer below the wrap is in range. -/
theorem Lane.timerInRange_of_lt {l : Lane} (live : Prop) (h : l.timer < Config.timerWrap) : l.timerInRange live :=
  ⟨Nat.lt_add_right _ h, fun _ _ => h⟩

theorem LaneClosed.timerInRange : LaneClosed Lane.timerInRange where
  fatal := fun _ _ ⟨hb, h⟩ => ⟨hb, fun _ => h trivial⟩
  cnt := fun l v hv ⟨hb, h⟩ => ⟨hb, fun live hk => h live (hv.resolve_left (by simpa using hk))⟩
  start := fun m l v _ => by
    obtain ⟨-, -, -, -, -, ht⟩ := laneStart_keeps m { l with cnt := v }
    exact Lane.timerInRange_of_lt _ (ht ▸ l.tmr.isLt)
  src := fun _ _ h => h
  tmr := fun _ _ h => h
  loopPos := fun _ _ h => h
  length := fun _ _ h => h
  gen := fun m g l ⟨hb, h⟩ => by
    obtain ⟨-, -, -, -, ht, hc⟩ := genStep_keeps m g l
    rw [Lane.timerInRange, ht]
    refine ⟨hb, fun live hk => h live ?_⟩
    rcases hc with hc | hc
    · rwa [hc] at hk
    · rw [hc, clearKeyon_keyon] at hk
      exact absurd hk (by decide)
  psg := fun _ _ h => h
  run := fun m g l hk ⟨_, h⟩ => laneAdvance_timer m g l (h trivial hk)
  reset := by decide

/-- CAP_RUN of an enabled unit brings its timer below the wrap, unless it stops or is abandoned; of a disabled one, the
unit stays disabled (R271 to R274). -/
theorem capRun_timerInRange (fmt8 oneshot : Bool) (sample : Int) (c : Capture) (m : List Host.Cell)
    (h : c.timerInRange True) :
    (capRun fmt8 oneshot sample c m).cap.timerInRange ((capRun fmt8 oneshot sample c m).err = none) := by
  intro he hc
  obtain ⟨-, -, -, hcnt⟩ := capRun_keeps fmt8 oneshot sample c m
  rcases hcnt with hcnt | hcnt
  · exact (capRun_timer fmt8 oneshot sample c m (h trivial (hcnt ▸ hc))).2 he hc
  · rw [hcnt, clearCapEnable_capEnable] at hc
    exact absurd hc (by decide)

theorem CapClosed.timerInRange : CapClosed Capture.timerInRange where
  fatal := fun _ _ h _ => h trivial
  cnt := fun c v hv h live hc => h live (hv.resolve_left (by simpa using hc))
  start := fun c _ _ _ _ => c.tmr.isLt
  dst := fun _ _ h => h
  tmr := fun _ _ h => h
  length := fun _ _ h => h
  run := capRun_timerInRange
  reset := by decide

/-! ### The offset of a capture unit -/

theorem capRun_offsetBelowLength (fmt8 oneshot : Bool) (sample : Int) (c : Capture) (m : List Host.Cell)
    (h : c.offsetBelowLength) : (capRun fmt8 oneshot sample c m).cap.offsetBelowLength := by
  refine capRun_holds (P := fun c _ => c.offsetBelowLength) fmt8 oneshot sample ?_ (fun _ _ h => h)
    (fun _ _ _ _ h => h) (fun _ _ _ h => h) (fun _ _ h => Nat.zero_lt_of_lt h) (fun _ _ h => Nat.zero_lt_of_lt h) c m h
  intro c m b h _
  unfold Capture.offsetBelowLength at h ⊢
  dsimp only
  split <;> omega

/-- The offset of unit `u` is below its length. -/
abbrev State.offsetBelow (u : CapIx) (s : State) : Prop := (s.cap u).offsetBelowLength

theorem State.offset_of_eq {s t : State} {u : CapIx} (h : s.offsetBelow u) (e : t.cap u = s.cap u) : t.offsetBelow u := by
  rw [State.offsetBelow, e]
  exact h

/-- The voice engine moves no offset and no length. -/
theorem State.offset_of_voiceKeeps {s t : State} {u : CapIx} (k : s.voiceKeeps t) (h : s.offsetBelow u) :
    t.offsetBelow u := by
  obtain ⟨-, -, -, -, -, -, -, -, -, hc⟩ := k
  obtain ⟨x, e⟩ := hc u
  rw [State.offsetBelow, e]
  exact h

/-- POPULATE is of the voice engine (R322). -/
theorem State.voiceKeeps.populate {s t : State} (h : s.voiceKeeps t) (n : Int) (ev : Event) (rt : ResolvedTimbre) :
    s.voiceKeeps (t.populate n ev rt) := by
  unfold State.populate
  split
  · exact h.raise _
  · split
    · split
      exacts [h.raise _, (h.setVoice _ _).programLane ..]
    all_goals exact h.raise _

@[simp] theorem State.cap_returning (s : State) (n : Option LaneIx) (u : CapIx) : (s.returning n).cap u = s.cap u := by
  cases n <;> rfl

@[simp] theorem State.cap_reqch (s : State) (category : Category) (track : Nat) (u : CapIx) :
    (s.reqch category track).2.cap u = s.cap u := by
  unfold State.reqch
  split <;> simp

@[simp] theorem State.cap_hostWrite (s : State) (a : Word) (b : Byte) (u : CapIx) :
    (s.hostWrite a b).cap u = s.cap u := by
  unfold State.hostWrite
  split <;> simp [State.cap]

@[simp] theorem State.cap_loadEvents (s : State) (events : List Event) (u : CapIx) :
    (s.loadEvents events).cap u = s.cap u := by
  unfold State.loadEvents
  split <;> simp [State.cap]

/-- LANE_RUN leaves the capture units alone (R191). -/
@[simp] theorem State.cap_runLane (s : State) (n : LaneIx) (u : CapIx) : (s.runLane n).cap u = s.cap u := by
  unfold State.runLane
  dsimp only
  split
  · exact Closed.andThen (P := fun t => t.cap u = s.cap u) (by simp) fun _ h => (State.cap_setLaneValue ..).trans h
  · simp

@[simp] theorem State.cap_runLanes (ns : List LaneIx) (s : State) (u : CapIx) : (s.runLanes ns).cap u = s.cap u := by
  induction ns generalizing s with
  | nil => rfl
  | cons n ns ih => exact Closed.andThen (P := fun t => t.cap u = s.cap u) (by simp) fun _ h => (ih _).trans h

@[simp] theorem State.cap_outputSelect (s : State) (side : Side) (u : CapIx) :
    (s.outputSelect side).cap u = s.cap u := by
  unfold State.outputSelect
  split <;> simp [State.outMixer, State.outCh1, State.outCh3, State.outCh1Ch3]

/-- Only the address of its register reaches the length of a unit (R121). -/
theorem reg16_capLen {a : Word} {u : CapIx} (h : reg16 a = some (.capLen u)) : a = Config.addrCapLen u := by
  unfold reg16 at h
  split_ifs at h <;> simp only [Option.some.injEq, Reg16.capLen.injEq, reduceCtorEq] at h <;> (subst h; assumption)

section

variable {s : State} {u : CapIx} (h : s.offsetBelow u)
include h

/-- Only a write of the unit itself can move its offset or its length. -/
theorem State.offset_setCap {w : CapIx} {x : Capture} (hx : w = u → x.offsetBelowLength) :
    (s.setCap w x).offsetBelow u := by
  rw [State.offsetBelow, State.cap_setCap]
  split
  exacts [hx ‹_›, h]

theorem State.offset_runCap (w : CapIx) (fmt8 oneshot : Bool) : (s.runCap w fmt8 oneshot).offsetBelow u := by
  rw [State.offsetBelow, State.runCap, State.cap_commitCap]
  split
  · rename_i e
    exact capRun_offsetBelowLength _ _ _ _ _ (e ▸ h)
  · exact h

theorem State.offset_feedCap (w : CapIx) : (s.feedCap w).offsetBelow u := by
  unfold State.feedCap
  dsimp only
  split
  exacts [State.offset_runCap h _ _ _, h]

theorem State.offset_runMix : s.runMix.offsetBelow u := by
  unfold State.runMix
  dsimp only
  split
  · refine Closed.andThen (P := State.offsetBelow u) (State.offset_of_eq h (State.cap_runLanes _ _ _)) fun _ h => ?_
    refine Closed.andThen (P := State.offsetBelow u) ?_ fun _ h => State.offset_of_eq h (by simp)
    exact Closed.andThen (P := State.offsetBelow u) (State.offset_feedCap (s := State.accumulate _) h 0) fun _ h =>
      State.offset_feedCap h 1
  · exact h

theorem State.offset_outputTick : s.outputTick.offsetBelow u := by
  unfold State.outputTick
  have dispatch := State.offset_of_voiceKeeps s.dispatch_keeps h
  have engine := fun h => State.offset_of_voiceKeeps (u := u) (State.voiceKeeps.refl s.dispatch).engine h
  refine Closed.andThen (P := State.offsetBelow u) dispatch fun _ h => ?_
  refine Closed.andThen (P := State.offsetBelow u) (engine h) fun _ h => ?_
  exact Closed.andThen (P := State.offsetBelow u) (State.offset_runMix h) fun _ h => h

theorem State.offset_writeTmr (n : LaneIx) (v : Half) : (s.writeTmr n v).offsetBelow u :=
  State.offset_of_voiceKeeps ((State.voiceKeeps.refl s).writeTmr n v) h

theorem State.offset_writeCapCnt (w : CapIx) (v : Byte) : (s.writeCapCnt w v).offsetBelow u := by
  refine State.offset_setCap h fun e => ?_
  subst e
  split
  exacts [Nat.zero_lt_of_lt h, h]

theorem State.offset_writeCapDad (w : CapIx) (v : Word) : (s.writeCapDad w v).offsetBelow u :=
  State.offset_setCap h fun e => by subst e; exact h

/-- A length write keeps the offset below the length unless it writes a length at or below the offset (R162, log 23). -/
theorem State.offset_writeCapLen (w : CapIx) (v : Half) (hv : w = u → (s.cap u).woff < capLengthBytes v) :
    (s.writeCapLen w v).offsetBelow u :=
  State.offset_setCap h fun e => by subst e; exact hv rfl

theorem State.offset_busWrite8 (a : Word) (v : Byte) : (s.busWrite8 a v).offsetBelow u := by
  unfold State.busWrite8
  split
  exacts [State.offset_writeCapCnt h _ _, State.offset_of_eq h (State.cap_raise ..)]

theorem State.offset_busWrite16 (a : Word) (v : Half)
    (hv : a = Config.addrCapLen u → (s.cap u).woff < capLengthBytes v) : (s.busWrite16 a v).offsetBelow u := by
  unfold State.busWrite16
  split
  · exact State.offset_writeTmr h _ _
  · exact h
  · exact h
  · exact h
  · rename_i w hw
    exact State.offset_writeCapLen h w v fun e => hv (e ▸ reg16_capLen hw)
  · exact State.offset_of_eq h (State.cap_raise ..)

theorem State.offset_busWrite32 (a v : Word) : (s.busWrite32 a v).offsetBelow u := by
  unfold State.busWrite32
  split
  exacts [State.offset_of_eq h (State.cap_writeCnt ..), h, h, State.offset_writeCapDad h _ _,
    State.offset_of_eq h (State.cap_raise ..)]

end

/-- The operations that write `v` to the length of unit `u`: SNDCAPuLEN, and WR16 at its address (R119, R126). -/
abbrev writesCapLen (u : CapIx) (v : Half) (i : Instr) : Prop :=
  if u = 0 then i = .sndcap0len v ∨ i = .wr16 0x04000514 v else i = .sndcap1len v ∨ i = .wr16 0x0400051C v

theorem wr16_writesCapLen (u : CapIx) (v : Half) : writesCapLen u v (.wr16 (Config.addrCapLen u) v) := by
  unfold writesCapLen Config.addrCapLen
  split <;> exact .inr rfl

/-- Every operation keeps an offset below the length, save a length write at or below it (R42, R162, log 23). -/
theorem exec_offsetBelowLength (i : Instr) {s t : State} {u : CapIx} (h : s.offsetBelow u)
    (hlen : ∀ v, writesCapLen u v i → (s.cap u).woff < capLengthBytes v) (he : exec i s = .next t) :
    t.offsetBelow u := by
  have go : ∀ f : State → State, (f s).offsetBelow u →
      (Host.Outcome.next (s.andThen f) : Result) = .next t → t.offsetBelow u := by
    intro f hf he
    simp only [Host.Outcome.next.injEq] at he
    rw [← he]
    exact Closed.andThen (P := State.offsetBelow u) h fun _ _ => hf
  cases i with
  | reset =>
    simp only [Machine.exec, execReset, Host.Outcome.next.injEq] at he
    rw [← he, State.offsetBelow, State.cap_resetBlock, State.cap_reset]
    decide
  | step => exact go _ (State.offset_outputTick h) he
  | memw a b => exact go _ (by simpa using h) he
  | loadEvents evs => exact go _ (by simpa using h) he
  | trigger ev =>
    exact go _ (by simpa using State.offset_of_voiceKeeps ((State.voiceKeeps.refl s).trigger ev) h) he
  | reqch category track => exact go _ (by simpa using h) he
  | populate n ev rt => exact go _ (State.offset_of_voiceKeeps ((State.voiceKeeps.refl s).populate n ev rt) h) he
  | wr8 a v => exact go _ (State.offset_busWrite8 h a v) he
  | wr16 a v =>
    exact go _ (State.offset_busWrite16 h a v fun e => hlen v (e ▸ wr16_writesCapLen u v)) he
  | wr32 a v => exact go _ (State.offset_busWrite32 h a v) he
  | chTmr n v => exact go _ (State.offset_writeTmr h n v) he
  | sndcap0cnt v | sndcap1cnt v => exact go _ (State.offset_writeCapCnt h _ v) he
  | sndcap0dad v | sndcap1dad v => exact go _ (State.offset_writeCapDad h _ v) he
  | sndcap0len v => exact go _ (State.offset_writeCapLen h 0 v fun e => hlen v (by simp [writesCapLen, ← e])) he
  | sndcap1len v => exact go _ (State.offset_writeCapLen h 1 v fun e => hlen v (by simp [writesCapLen, ← e])) he
  | capPcm16 w oneshot => exact go (fun s => s.runCap w false oneshot) (State.offset_runCap h w false oneshot) he
  | capPcm8 w oneshot => exact go (fun s => s.runCap w true oneshot) (State.offset_runCap h w true oneshot) he
  | chCnt n v => exact go _ (by simpa using h) he
  | genPcm8 n | genPcm16 n | genAdpcm n | genPsg n d | genNoise n => exact go _ (by simpa [State.laneStep] using h) he
  | outMixer side => exact go _ (by simpa [State.outMixer] using h) he
  | outCh1 side => exact go _ (by simpa [State.outCh1] using h) he
  | outCh3 side => exact go _ (by simpa [State.outCh3] using h) he
  | outCh1Ch3 side => exact go _ (by simpa [State.outCh1Ch3] using h) he
  | release | chSad | chPnt | chLen | soundcnt | soundbias | genNone | genOff => exact go _ h he

end Sys2Proof.Machine
end

section
/-!
PROOFS for spec/10_state.md: what every step keeps (R22 to R48).
-/

namespace Sys2Proof.Proofs

open Sys2Proof Sys2Proof.Machine

/-- Settles O54, from what each move does to SOUNDCNT, to one lane and to one capture unit; an offset below its length is
followed through every operation, since two length writes could move it past an earlier length (log 23). -/
theorem registersStayInRange : Obligations.RegistersStayInRange := by
  refine ⟨fun s t hs h => ?_, fun i s t u _ ho h hlen => ?_⟩
  · obtain ⟨hm, hl, hc⟩ := hs
    exact ⟨Closed.soundcntMasked.step s t hm h, LaneClosed.registersInRange.closed.step s t hl h,
      CapClosed.registersInRange.closed.step s t hc h⟩
  · exact exec_offsetBelowLength i ho (fun v hv => capLengthBytes_eq v ▸ hlen v hv) h

/-- Settles O55, from what each move does to one lane, and from FINAL's clamp. -/
theorem runStateStaysInRange : Obligations.RunStateStaysInRange := by
  rintro s t ⟨hl, ho⟩ h
  exact ⟨LaneClosed.runStateInRange.closed.step s t hl h, Closed.outInRange.step s t ho h⟩

/-- Settles O56, from what each move does to one lane and to one capture unit. -/
theorem timersStayBelowTheWrap : Obligations.TimersStayBelowTheWrap := by
  rintro s t ⟨hl, hc⟩ h
  exact ⟨LaneClosed.timerInRange.closed.step s t hl h, CapClosed.timerInRange.closed.step s t hc h⟩

/-- Settles O57: no move replaces a Blocked voice or makes one. -/
theorem blockedLanesStayBlocked : Obligations.BlockedLanesStayBlocked := Closed.blockedExactly.step

/-- Settles O58: the tick advances only when no event is due, and a voice that starts, starts now. -/
theorem eventsStayInOrder : Obligations.EventsStayInOrder := fun s t he hs h =>
  ⟨Closed.eventsInOrder.step s t he h, Closed.startsInPast.step s t hs h⟩

/-- Settles O59: memory is changed by writes to mapped addresses only, and each keeps the form. -/
theorem memoryStaysInForm : Obligations.MemoryStaysInForm := Closed.memoryInForm.step

end Sys2Proof.Proofs
end

section
/-!
SUPPORT for spec/20_memory.md. What an access of several bytes reads and writes.
-/

namespace Sys2Proof.Machine

/-- The `n` bytes `f 0`, `f 1`, … put at `a`, `a + 1`, …, the addresses wrapping at 2^32. -/
def Memory.writeBytes (m : List Host.Cell) (a : Word) (f : Nat → Byte) : Nat → List Host.Cell
  | 0 => m
  | n + 1 => Memory.write (Memory.writeBytes m a f n) (a + BitVec.ofNat 32 n).toNat (f n)

/-- A write of mapped bytes puts the bytes of the value, least significant first (R84). -/
theorem memWrite_mapped {m : List Host.Cell} {a : Word} {n v : Nat}
    (h : ∀ i < n, Config.mapped (a + BitVec.ofNat 32 i) = true) :
    memWrite m a n v = .ok (Memory.writeBytes m a (fun i => BitVec.ofNat 8 (v / 2 ^ (8 * i))) n) := by
  have unmapped : firstUnmapped a n = none := by
    simpa [firstUnmapped, accessAddrs] using h
  have bytes : ∀ k, (List.range k).foldl (fun m i => Memory.write m (a + BitVec.ofNat 32 i).toNat
      (BitVec.ofNat 8 (v / 2 ^ (8 * i)))) m = Memory.writeBytes m a (fun i => BitVec.ofNat 8 (v / 2 ^ (8 * i))) k := by
    intro k
    induction k with
    | zero => rfl
    | succ k ih => rw [List.range_succ, List.foldl_append, ih]; rfl
  simp only [memWrite, unmapped, bytes]

/-- The first unmapped address of an access is its first byte address that is not mapped. -/
theorem firstUnmapped_eq_some {a : Word} {n i : Nat} (hi : i < n)
    (hu : Config.mapped (a + BitVec.ofNat 32 i) = false)
    (hm : ∀ j < i, Config.mapped (a + BitVec.ofNat 32 j) = true) :
    firstUnmapped a n = some (a + BitVec.ofNat 32 i) := by
  have : (List.range n).find? (fun j => !Config.mapped (a + BitVec.ofNat 32 j)) = some i := by
    rw [List.find?_range_eq_some]
    exact ⟨by simp [hu], List.mem_range.2 hi, fun j hj => by simp [hm j hj]⟩
  rw [firstUnmapped, accessAddrs, List.find?_map]
  exact congrArg (Option.map _) this

theorem Memory.wf_writeBytes {m : List Host.Cell} (h : Memory.wf m) (a : Word) (f : Nat → Byte) (n : Nat) :
    Memory.wf (Memory.writeBytes m a f n) := by
  induction n with
  | zero => exact h
  | succ n ih => exact Memory.wf_write ih _ _

theorem Memory.read_writeBytes_other (m : List Host.Cell) (a : Word) (f : Nat → Byte) {n k : Nat}
    (h : ∀ i < n, (a + BitVec.ofNat 32 i).toNat ≠ k) : Memory.read (Memory.writeBytes m a f n) k = Memory.read m k := by
  induction n with
  | zero => rfl
  | succ n ih =>
    rw [Memory.writeBytes, Memory.read_write_other _ _ (h n n.lt_succ_self).symm]
    exact ih fun i hi => h i (Nat.lt_succ_of_lt hi)

/-- No access of at most 2^32 bytes comes back to its own first bytes. -/
theorem toNat_add_ofNat_ne (a : Word) {i j : Nat} (hij : i < j) (hj : j < 2 ^ 32) :
    (a + BitVec.ofNat 32 i).toNat ≠ (a + BitVec.ofNat 32 j).toNat := by
  simp only [BitVec.toNat_add, BitVec.toNat_ofNat]
  omega

theorem Memory.read_writeBytes_self {m : List Host.Cell} (h : Memory.wf m) (a : Word) (f : Nat → Byte) {n i : Nat}
    (hn : n ≤ 2 ^ 32) (hi : i < n) : Memory.read (Memory.writeBytes m a f n) (a + BitVec.ofNat 32 i).toNat = f i := by
  induction n with
  | zero => omega
  | succ n ih =>
    rw [Memory.writeBytes]
    rcases Nat.lt_succ_iff_lt_or_eq.1 hi with hlt | rfl
    · rw [Memory.read_write_other _ _ (toNat_add_ofNat_ne a hlt (by omega))]
      exact ih (by omega) hlt
    · exact Memory.read_write_self (Memory.wf_writeBytes h a f _) _ _

/-- The low `n` bytes of a value, put together again, are the value modulo 2^(8n). -/
theorem leValue_bytes (v n : Nat) :
    leValue ((List.range n).map fun i => BitVec.ofNat 8 (v / 2 ^ (8 * i))) = v % 2 ^ (8 * n) := by
  induction n generalizing v with
  | zero => simp [leValue, Nat.mod_one]
  | succ n ih =>
    have shift : ∀ i, v / 2 ^ (8 * (i + 1)) = v / 256 / 2 ^ (8 * i) := fun i => by
      rw [Nat.div_div_eq_div_mul, Nat.mul_succ, Nat.pow_add, Nat.mul_comm]
    have tail : leValue ((List.range n).map fun i => BitVec.ofNat 8 (v / 2 ^ (8 * (i + 1)))) =
        v / 256 % 2 ^ (8 * n) := by simpa only [shift] using ih (v / 256)
    rw [List.range_succ_eq_map, List.map_cons, List.map_map, leValue]
    change _ + 256 * leValue ((List.range n).map fun i => BitVec.ofNat 8 (v / 2 ^ (8 * (i + 1)))) = _
    rw [tail, Nat.mul_succ, Nat.pow_add, Nat.mul_comm (2 ^ (8 * n)), Nat.mod_mul]
    simp

/-- A read gives back what a write of the same width stored (R83, R84). -/
theorem memRead_writeBytes {m : List Host.Cell} (hw : Memory.wf m) {a : Word} {n v : Nat} (hn : n ≤ 2 ^ 32)
    (h : ∀ i < n, Config.mapped (a + BitVec.ofNat 32 i) = true) :
    memRead (Memory.writeBytes m a (fun i => BitVec.ofNat 8 (v / 2 ^ (8 * i))) n) a n = .ok (v % 2 ^ (8 * n)) := by
  rw [memRead_mapped h, ← leValue_bytes v n, accessAddrs, List.map_map]
  congr 2
  exact List.map_congr_left fun i hi => Memory.read_writeBytes_self hw a _ hn (List.mem_range.1 hi)

end Sys2Proof.Machine
end

section
/-!
SUPPORT for spec/20_memory.md. Which operations leave memory alone, and which bytes a capture can reach (R80, R273).
-/

namespace Sys2Proof.Machine

/-! ### Operations that leave memory alone -/

@[simp] theorem State.busWrite8_mem (s : State) (a : Word) (v : Byte) : (s.busWrite8 a v).mem = s.mem := by
  unfold State.busWrite8
  split <;> simp

@[simp] theorem State.busWrite16_mem (s : State) (a : Word) (v : Half) : (s.busWrite16 a v).mem = s.mem := by
  unfold State.busWrite16
  split <;> simp

@[simp] theorem State.busWrite32_mem (s : State) (a v : Word) : (s.busWrite32 a v).mem = s.mem := by
  unfold State.busWrite32
  split <;> simp

@[simp] theorem State.returning_mem (s : State) (n : Option LaneIx) : (s.returning n).mem = s.mem := by
  cases n <;> rfl

@[simp] theorem State.reqch_mem (s : State) (category : Category) (track : Nat) :
    (s.reqch category track).2.mem = s.mem := by
  unfold State.reqch
  split <;> simp

@[simp] theorem State.loadEvents_mem (s : State) (events : List Event) : (s.loadEvents events).mem = s.mem := by
  unfold State.loadEvents
  split <;> simp

/-- The voice engine leaves memory alone. -/
theorem State.voiceKeeps.mem_eq {s t : State} (h : s.voiceKeeps t) : t.mem = s.mem := by
  obtain ⟨-, -, -, -, -, hm, -⟩ := h
  exact hm

/-- LANE_RUN leaves memory alone (R191). -/
@[simp] theorem State.runLane_mem (s : State) (n : LaneIx) : (s.runLane n).mem = s.mem := by
  unfold State.runLane
  dsimp only
  split
  · exact Closed.andThen (P := fun t => t.mem = s.mem) (by simp) fun _ h => (State.setLaneValue_mem ..).trans h
  · simp

@[simp] theorem State.runLanes_mem (ns : List LaneIx) (s : State) : (s.runLanes ns).mem = s.mem := by
  induction ns generalizing s with
  | nil => rfl
  | cons n ns ih => exact Closed.andThen (P := fun t => t.mem = s.mem) (by simp) fun _ h => (ih _).trans h

@[simp] theorem State.outputSelect_mem (s : State) (side : Side) : (s.outputSelect side).mem = s.mem := by
  unfold State.outputSelect
  split <;> simp [State.outMixer, State.outCh1, State.outCh3, State.outCh1Ch3]

/-- The operations that can write memory: MEMW, STEP and the capture rows (R80, R85). -/
def writesMemory : Instr → Bool
  | .memw .. | .step | .capPcm8 .. | .capPcm16 .. => true
  | _ => false

/-- What holds before an operation and after its body holds after it, whether or not a fatal error is set (R401). -/
theorem next_andThen_holds {P : State → Prop} {s t : State} {f : State → State} (h : P s) (hf : P (f s))
    (he : (Host.Outcome.next (s.andThen f) : Result) = .next t) : P t := by
  cases he
  exact Closed.andThen h fun _ _ => hf

/-- No operation but MEMW, STEP and the capture rows changes memory. -/
theorem exec_mem {i : Instr} {s t : State} (hi : writesMemory i = false) (he : exec i s = .next t) :
    t.mem = s.mem := by
  have go : ∀ f : State → State, (f s).mem = s.mem → (Host.Outcome.next (s.andThen f) : Result) = .next t →
      t.mem = s.mem := fun f hf => next_andThen_holds (P := fun t => t.mem = s.mem) rfl hf
  cases i with
  | memw | step | capPcm8 | capPcm16 => cases hi
  | reset => cases he; rfl
  | loadEvents evs => exact go _ (State.loadEvents_mem ..) he
  | trigger ev =>
    exact go _ ((State.returning_mem ..).trans ((State.voiceKeeps.refl s).trigger ev).mem_eq) he
  | reqch category track => exact go _ ((State.returning_mem ..).trans (State.reqch_mem ..)) he
  | populate n ev rt => exact go _ ((State.voiceKeeps.refl s).populate n ev rt).mem_eq he
  | wr8 a v => exact go _ (State.busWrite8_mem ..) he
  | wr16 a v => exact go _ (State.busWrite16_mem ..) he
  | wr32 a v => exact go _ (State.busWrite32_mem ..) he
  | chCnt n v => exact go _ (State.writeCnt_mem ..) he
  | chTmr n v => exact go _ (State.writeTmr_mem ..) he
  | genPcm8 n | genPcm16 n | genAdpcm n | genPsg n d | genNoise n => exact go _ (State.commitLane_mem ..) he
  | outMixer side | outCh1 side | outCh3 side | outCh1Ch3 side => exact go _ (State.setOutput_mem ..) he
  | release | chSad | chPnt | chLen | soundcnt | soundbias | sndcap0cnt | sndcap1cnt | sndcap0dad | sndcap1dad
  | sndcap0len | sndcap1len | genNone | genOff => exact go _ rfl he

/-- MEMW leaves every byte but its own (R385). -/
theorem State.read_hostWrite_other (s : State) (addr : Word) (b : Byte) {a : Nat} (ha : a ≠ addr.toNat) :
    Memory.read (s.hostWrite addr b).mem a = Memory.read s.mem a := by
  unfold State.hostWrite
  rw [memWrite_one]
  by_cases hm : Config.mapped addr = true
  · simpa [hm] using Memory.read_write_other s.mem b ha
  · simp [hm]

/-! ### The window of a capture unit -/

/-- Address `a` is in the unit's window: at an offset below the length, or at the present offset (R273, log 23). -/
def Capture.reaches (c : Capture) (a : Nat) : Prop :=
  ∃ o, (o < c.length ∨ o = c.woff) ∧ a = (c.dst + BitVec.ofNat 32 o).toNat

/-- The unit never writes at `a`: the offset stays below a length that is not 0, and `a` is outside the window. -/
def Capture.avoids (a : Nat) (c : Capture) : Prop := 0 < c.length ∧ ¬c.reaches a

/-- A unit whose offset moved to one below the length reaches nothing new. -/
theorem Capture.avoids.move {a : Nat} {c c' : Capture} (h : c.avoids a) (hd : c'.dst = c.dst)
    (hl : c'.length = c.length) (ho : c'.woff < c.length) : c'.avoids a := by
  obtain ⟨hpos, hne⟩ := h
  refine ⟨hl ▸ hpos, ?_⟩
  rintro ⟨o, hlt | rfl, e⟩
  exacts [hne ⟨o, .inl (hl ▸ hlt), hd ▸ e⟩, hne ⟨_, .inl ho, hd ▸ e⟩]

/-- CAP_RUN leaves a byte that the unit cannot reach, and cannot reach it afterwards. -/
theorem capRun_avoids {a : Nat} {b : Byte} (fmt8 oneshot : Bool) (sample : Int) {c : Capture} {m : List Host.Cell}
    (hc : c.avoids a) (hm : Memory.read m a = b) :
    (capRun fmt8 oneshot sample c m).holds fun c m => c.avoids a ∧ Memory.read m a = b := by
  refine capRun_holds fmt8 oneshot sample ?_ (fun _ _ h => h) (fun _ _ _ _ h => h) (fun _ _ _ h => h) ?_ ?_ c m ⟨hc, hm⟩
  · rintro c m v ⟨hc, hm⟩ -
    have outside : a ≠ (c.dst + BitVec.ofNat 32 c.woff).toNat := fun e => hc.2 ⟨_, .inr rfl, e⟩
    have hpos := hc.1
    refine ⟨hc.move rfl rfl ?_, (Memory.read_write_other m v outside).trans hm⟩
    dsimp only
    split <;> omega
  all_goals -- the end of the buffer, in the two modes
    rintro c m ⟨hc, hm⟩
    exact ⟨hc.move rfl rfl hc.1, hm⟩

/-! ### The frame of the tick -/

/-- The byte at `a` is `b`, and no enabled unit can reach it. -/
def State.sheltered (a : Nat) (b : Byte) (s : State) : Prop :=
  Memory.read s.mem a = b ∧ ∀ u, capEnable (s.cap u).cnt = true → (s.cap u).avoids a

section

variable {a : Nat} {b : Byte} {s t : State} (h : s.sheltered a b)
include h

theorem State.sheltered.of_eq (hm : t.mem = s.mem) (hc : ∀ u, t.cap u = s.cap u) : t.sheltered a b := by
  obtain ⟨hb, hu⟩ := h
  exact ⟨hm ▸ hb, fun u => hc u ▸ hu u⟩

/-- The voice engine writes no byte and moves no window (R120). -/
theorem State.sheltered.of_voiceKeeps (k : s.voiceKeeps t) : t.sheltered a b := by
  obtain ⟨hb, hu⟩ := h
  refine ⟨k.mem_eq ▸ hb, fun u => ?_⟩
  obtain ⟨-, -, -, -, -, -, -, -, -, hc⟩ := k
  obtain ⟨x, e⟩ := hc u
  rw [e]
  exact hu u

theorem State.sheltered.feedCap (u : CapIx) : (s.feedCap u).sheltered a b := by
  unfold State.feedCap
  dsimp only
  split
  · rename_i on
    obtain ⟨hb, hu⟩ := h
    obtain ⟨hc, hm⟩ := capRun_avoids (capFmt8 (s.cap u).cnt) (capOneshot (s.cap u).cnt) (s.captureSample u) (hu u on) hb
    refine ⟨(congrArg (Memory.read · a) (State.commitCap_mem ..)).trans hm, fun w hw => ?_⟩
    rw [State.runCap, State.cap_commitCap] at hw ⊢
    split at hw <;> rename_i e
    · rwa [if_pos e]
    · rw [if_neg e]
      exact hu w hw
  · exact h

theorem State.sheltered.runMix : s.runMix.sheltered a b := by
  unfold State.runMix
  dsimp only
  split
  · refine Closed.andThen (P := State.sheltered a b) (h.of_eq (State.runLanes_mem ..) (State.cap_runLanes _ _))
      fun _ h => ?_
    refine Closed.andThen (P := State.sheltered a b) ?_ fun _ h => h.of_eq (by simp) (by simp)
    exact Closed.andThen (P := State.sheltered a b) (State.sheltered.feedCap (s := State.accumulate _) h 0) fun _ h =>
      h.feedCap 1
  · exact h

/-- STEP leaves a byte that no enabled unit can reach: of its phases only CAPTURE_FEED writes memory (R245, R380). -/
theorem State.sheltered.outputTick : s.outputTick.sheltered a b := by
  unfold State.outputTick
  have dispatch : s.dispatch.sheltered a b :=
    State.sheltered.of_voiceKeeps (s := { s with events := s.dispatch.events }) h s.dispatch_keeps
  refine Closed.andThen dispatch fun _ h => ?_
  refine Closed.andThen (h.of_voiceKeeps (State.voiceKeeps.refl s.dispatch).engine) fun _ h => ?_
  exact Closed.andThen h.runMix fun _ h => h

end

/-- A capture row leaves a byte that its unit cannot reach. -/
theorem State.read_runCap {a : Nat} {s : State} {u : CapIx} (h : (s.cap u).avoids a) (fmt8 oneshot : Bool) :
    Memory.read (s.runCap u fmt8 oneshot).mem a = Memory.read s.mem a := by
  rw [State.runCap, State.commitCap_mem]
  exact (capRun_avoids fmt8 oneshot (s.captureSample u) h rfl).2

end Sys2Proof.Machine
end

section
/-!
PROOFS for spec/20_memory.md: the accesses (R83, R84) and what each operation leaves of memory (R80, R85).
-/

namespace Sys2Proof.Proofs

open Sys2Proof Sys2Proof.Machine

/-- Settles O53: an access is its bytes in order, and its addresses differ since it is shorter than 2^32. -/
theorem memoryAccessIsLittleEndian : Obligations.MemoryAccessIsLittleEndian := by
  intro m a n v hn hw
  have hn : n ≤ 2 ^ 32 := by
    simp only [List.mem_cons, List.not_mem_nil, or_false] at hn
    omega
  refine ⟨fun hm => ⟨?_, _, memWrite_mapped hm, Memory.wf_writeBytes hw _ _ _, memRead_writeBytes hw hn hm,
    fun i hi => ?_, fun k hk => Memory.read_writeBytes_other m a _ hk⟩, fun i hi hu hm => ?_⟩
  · rw [memRead_mapped hm, accessAddrs, List.map_map, ← leValue_range]
    rfl
  · rw [Memory.read_writeBytes_self hw a _ hn hi, BitVec.toNat_ofNat]
  · have := firstUnmapped_eq_some hi hu hm
    simp only [memRead, memWrite, this, and_self]

/-- Settles O32: only MEMW, STEP and the capture rows change memory, and a capture unit stays within its window. -/
theorem memoryFrame : Obligations.MemoryFrame := by
  intro i s t hs he a ha
  have avoids : ∀ u, ¬(s.cap u).reaches a → (s.cap u).avoids a := fun u hu => by
    obtain ⟨-, -, hc⟩ := hs
    obtain ⟨-, -, -, hlen, -⟩ := hc u
    exact ⟨Nat.zero_lt_of_lt hlen, hu⟩
  have go : ∀ f : State → State, Memory.read (f s).mem a = Memory.read s.mem a →
      (Host.Outcome.next (s.andThen f) : Result) = .next t → Memory.read t.mem a = Memory.read s.mem a :=
    fun f hf => next_andThen_holds (P := fun t => Memory.read t.mem a = Memory.read s.mem a) rfl hf
  cases i with
  | memw addr b => exact go _ (s.read_hostWrite_other addr b ha) he
  | step =>
    have h : s.sheltered a (Memory.read s.mem a) := ⟨rfl, fun u hu => avoids u (ha u hu)⟩
    exact go _ h.outputTick.1 he
  | capPcm8 u oneshot => exact go (fun s => s.runCap u true oneshot) (State.read_runCap (avoids u ha) ..) he
  | capPcm16 u oneshot => exact go (fun s => s.runCap u false oneshot) (State.read_runCap (avoids u ha) ..) he
  | _ => exact congrArg (Memory.read · a) (exec_mem rfl he)

end Sys2Proof.Proofs
end

section
/-!
SUPPORT for spec/30_encoding.md. The operation that writes a register of the bus map, and what the readers answer.
-/

namespace Sys2Proof

open Machine

/-! ### The write of a register (R121, R122) -/

/-- The operation that writes `value` to this register (R112, R118). -/
def Reg32.writing (value : Word) : Reg32 → Instr
  | .cnt n => .chCnt n value
  | .sad n => .chSad n value
  | .len n => .chLen n value
  | .capDad u => if u = 0 then .sndcap0dad value else .sndcap1dad value

/-- The operation that writes `value` to this register (R112, R115, R116, R119). -/
def Reg16.writing (value : Half) : Reg16 → Instr
  | .tmr n => .chTmr n value
  | .pnt n => .chPnt n value
  | .soundcnt => .soundcnt value
  | .soundbias => .soundbias value
  | .capLen u => if u = 0 then .sndcap0len value else .sndcap1len value

/-- The operation that writes `value` to this register (R117). -/
def Reg8.writing (value : Byte) : Reg8 → Instr
  | .capCnt u => if u = 0 then .sndcap0cnt value else .sndcap1cnt value

section

variable {a : Word} {i : Instr}

/-- A 32-bit write decodes exactly when its address names a register, and then to the write of that register. -/
theorem decode_bus32_eq_ok {v : Word} : decode (.bus32 a v) = .ok i ↔ ∃ r, reg32 a = some r ∧ r.writing v = i := by
  rw [decode, decodeBus32]
  cases reg32 a with
  | none => simp
  | some r => cases r <;> simp [Reg32.writing, ← apply_ite (Except.ok (ε := Reject))]

theorem reg32_eq_none {v : Word} (h : ∀ i, decode (.bus32 a v) ≠ .ok i) : reg32 a = none :=
  Option.eq_none_iff_forall_ne_some.2 fun _ hr => h _ (decode_bus32_eq_ok.2 ⟨_, hr, rfl⟩)

theorem decode_bus16_eq_ok {v : Half} : decode (.bus16 a v) = .ok i ↔ ∃ r, reg16 a = some r ∧ r.writing v = i := by
  rw [decode, decodeBus16]
  cases reg16 a with
  | none => simp
  | some r => cases r <;> simp [Reg16.writing, ← apply_ite (Except.ok (ε := Reject))]

theorem reg16_eq_none {v : Half} (h : ∀ i, decode (.bus16 a v) ≠ .ok i) : reg16 a = none :=
  Option.eq_none_iff_forall_ne_some.2 fun _ hr => h _ (decode_bus16_eq_ok.2 ⟨_, hr, rfl⟩)

theorem decode_bus8_eq_ok {v : Byte} : decode (.bus8 a v) = .ok i ↔ ∃ r, reg8 a = some r ∧ r.writing v = i := by
  rw [decode, decodeBus8]
  cases reg8 a with
  | none => simp
  | some r => cases r; simp [Reg8.writing, ← apply_ite (Except.ok (ε := Reject))]

theorem reg8_eq_none {v : Byte} (h : ∀ i, decode (.bus8 a v) ≠ .ok i) : reg8 a = none :=
  Option.eq_none_iff_forall_ne_some.2 fun _ hr => h _ (decode_bus8_eq_ok.2 ⟨_, hr, rfl⟩)

end

/-- The write of a register, as the bus command performs it (R110). -/
theorem Machine.exec_writing32 {a : Word} {r : Reg32} (h : reg32 a = some r) (v : Word) (s : State) :
    exec (r.writing v) s = .next (s.andThen fun s => s.busWrite32 a v) := by
  simp only [State.busWrite32, h]
  cases r with
  | capDad u => fin_cases u <;> rfl
  | _ => rfl

theorem Machine.exec_writing16 {a : Word} {r : Reg16} (h : reg16 a = some r) (v : Half) (s : State) :
    exec (r.writing v) s = .next (s.andThen fun s => s.busWrite16 a v) := by
  simp only [State.busWrite16, h]
  cases r with
  | capLen u => fin_cases u <;> rfl
  | _ => rfl

theorem Machine.exec_writing8 {a : Word} {r : Reg8} (h : reg8 a = some r) (v : Byte) (s : State) :
    exec (r.writing v) s = .next (s.andThen fun s => s.busWrite8 a v) := by
  simp only [State.busWrite8, h]
  cases r with
  | capCnt u => fin_cases u <;> rfl

/-- At an address without a 32-bit register a live block records BadRegisterAccess (R122, R405). -/
theorem Machine.exec_wr32_unmapped {s : State} (hs : s.fatal = none) {a : Word} (h : reg32 a = none) (v : Word) :
    exec (.wr32 a v) s = .next { s with fatal := some (.badRegisterAccess 32 a) } := by
  rw [← State.raise_of_live hs]
  simp only [exec, execWr32, State.andThen_of_live hs, State.busWrite32, h]

theorem Machine.exec_wr16_unmapped {s : State} (hs : s.fatal = none) {a : Word} (h : reg16 a = none) (v : Half) :
    exec (.wr16 a v) s = .next { s with fatal := some (.badRegisterAccess 16 a) } := by
  rw [← State.raise_of_live hs]
  simp only [exec, execWr16, State.andThen_of_live hs, State.busWrite16, h]

theorem Machine.exec_wr8_unmapped {s : State} (hs : s.fatal = none) {a : Word} (h : reg8 a = none) (v : Byte) :
    exec (.wr8 a v) s = .next { s with fatal := some (.badRegisterAccess 8 a) } := by
  rw [← State.raise_of_live hs]
  simp only [exec, execWr8, State.andThen_of_live hs, State.busWrite8, h]

/-! ### The addresses of the bus map (R111, R121) -/

/-- The lane is counted in the address of every register of the lane (R111). -/
theorem Machine.laneAddr_eq (n : LaneIx) (o : Nat) :
    laneAddr n o = Config.chBase + BitVec.ofNat 32 o + BitVec.ofNat 32 (0x10 * n.val) := by
  rw [laneAddr, Config.chStride, Nat.add_comm, BitVec.ofNat_add, BitVec.add_assoc]

/-- Every address at which the map has a 32-bit register. -/
theorem Machine.reg32_addr {a : Word} {r : Reg32} (h : reg32 a = some r) :
    (∃ n : LaneIx, ∃ o ∈ [0x0, 0x4, 0xC], a = 0x04000400 + BitVec.ofNat 32 (0x10 * n.val + o)) ∨
      a ∈ [0x04000510, 0x04000518] := by
  unfold reg32 at h
  split_ifs at h with h0 h4 hC hd0 hd1
  · exact .inl ⟨_, 0x0, by decide, isLaneReg_addr a _ h0⟩
  · exact .inl ⟨_, 0x4, by decide, isLaneReg_addr a _ h4⟩
  · exact .inl ⟨_, 0xC, by decide, isLaneReg_addr a _ hC⟩
  · exact .inr (by simp [hd0, Config.addrCapDad])
  · exact .inr (by simp [hd1, Config.addrCapDad])

theorem Machine.reg16_addr {a : Word} {r : Reg16} (h : reg16 a = some r) :
    (∃ n : LaneIx, ∃ o ∈ [0x8, 0xA], a = 0x04000400 + BitVec.ofNat 32 (0x10 * n.val + o)) ∨
      a ∈ [0x04000500, 0x04000504, 0x04000514, 0x0400051C] := by
  unfold reg16 at h
  split_ifs at h with h8 hA hs hb hl0 hl1
  · exact .inl ⟨_, 0x8, by decide, isLaneReg_addr a _ h8⟩
  · exact .inl ⟨_, 0xA, by decide, isLaneReg_addr a _ hA⟩
  · exact .inr (by simp [hs, Config.addrSoundcnt])
  · exact .inr (by simp [hb, Config.addrSoundbias])
  · exact .inr (by simp [hl0, Config.addrCapLen])
  · exact .inr (by simp [hl1, Config.addrCapLen])

theorem Machine.reg8_addr {a : Word} {r : Reg8} (h : reg8 a = some r) : a ∈ [0x04000508, 0x04000509] := by
  unfold reg8 at h
  split_ifs at h with h0 h1
  · simp [h0, Config.addrCapCnt]
  · simp [h1, Config.addrCapCnt]

namespace Wire

/-! ### What a reader answers -/

/-- Whatever the reader answers satisfies `P`. -/
def Gives {α : Type} (P : α → Prop) (p : Reader α) : Prop := ∀ bs a rest, p bs = .ok (a, rest) → P a

section

variable {α β : Type} {P : β → Prop}

theorem Gives.done {b : β} (h : P b) : Gives P (done b) := by
  intro bs b' rest e
  cases e
  exact h

theorem Gives.andThen {p : Reader α} {f : α → Reader β} (h : ∀ a, Gives P (f a)) : Gives P (andThen p f) := by
  intro bs b rest e
  unfold Wire.andThen at e
  split at e
  · cases e
  · exact h _ _ _ _ e

theorem Gives.mapped {p : Reader α} {f : α → β} (h : ∀ a, P (f a)) : Gives P (mapped f p) :=
  .andThen fun a => .done (h a)

end

/-- The record of every command is an operation of the block (R126). -/
theorem command_gives_wellFormed (opcode : Byte) : Gives (fun i => i.wellFormed = true) (command opcode) := by
  unfold command
  split
  · exact .done rfl
  · exact .done rfl
  · exact .andThen fun _ => .mapped fun _ => rfl
  · exact .mapped fun _ => rfl
  · exact .mapped fun _ => rfl
  · exact .andThen fun _ => .mapped fun _ => rfl
  · exact .andThen fun _ => .andThen fun _ => .mapped fun _ => rfl
  · exact .andThen fun _ => .mapped fun _ => rfl
  · exact .andThen fun _ => .mapped fun _ => rfl
  · exact .andThen fun _ => .mapped fun _ => rfl
  · exact .andThen fun _ => .mapped fun _ => rfl
  · exact fun _ _ _ e => nomatch e

end Wire

/-! ### Well-formed operations -/

theorem Reg32.writing_wellFormed (v : Word) (r : Reg32) : (r.writing v).wellFormed = true := by
  cases r with
  | capDad u => fin_cases u <;> rfl
  | _ => rfl

theorem Reg16.writing_wellFormed (v : Half) (r : Reg16) : (r.writing v).wellFormed = true := by
  cases r with
  | capLen u => fin_cases u <;> rfl
  | _ => rfl

theorem Reg8.writing_wellFormed (v : Byte) (r : Reg8) : (r.writing v).wellFormed = true := by
  cases r with
  | capCnt u => fin_cases u <;> rfl

/-- The three generators of the fourth pattern are told apart by their lanes (R125, R190). -/
theorem decodeSelCnt_wellFormed (n : LaneIx) (cnt : Word) : (decodeSelCnt n cnt).wellFormed = true := by
  unfold decodeSelCnt
  split
  · rfl
  split
  · rfl
  · rfl
  · rfl
  split_ifs with h14 h8
  · exact decide_eq_true h14
  · exact Bool.and_eq_true_iff.2 ⟨decide_eq_true h8, decide_eq_true (by omega)⟩
  · exact decide_eq_true (by omega)

theorem decodeSelCap_wellFormed {u : CapIx} {cnt : Byte} {i : Instr} (h : decodeSelCap u cnt = .ok i) :
    i.wellFormed = true := by
  unfold decodeSelCap at h
  split_ifs at h <;> cases h <;> rfl

theorem decodeSelOut_wellFormed {side : Side} {soundcnt : Half} {i : Instr} (h : decodeSelOut side soundcnt = .ok i) :
    i.wellFormed = true := by
  unfold decodeSelOut at h
  split at h
  · split at h <;> cases h <;> rfl
  · cases h

end Sys2Proof
end

section
/-!
PROOFS for spec/30_encoding.md: the decoder and the encoder (R110, R121 to R128).
-/

namespace Sys2Proof.Proofs

open Sys2Proof Sys2Proof.Machine Sys2Proof.Wire

/-- Settles O1, from what each reader does with what its writer wrote (`Reads`), and what the bus map names. -/
theorem decodeEncodeRoundTrip : Obligations.DecodeEncodeRoundTrip := by
  intro i h
  cases i with
  -- commands (R126 to R128)
  | reset => exact decode_command (.done _)
  | step => exact decode_command (.done _)
  | memw a b => exact decode_command ((reads_bits 4 a (by norm_num)).andThen (reads_byte b).mapped)
  | loadEvents evs => exact decode_command (reads_list reads_event evs).mapped
  | trigger ev => exact decode_command (reads_event ev).mapped
  | reqch c t => exact decode_command ((reads_category c).andThen (reads_nat t).mapped)
  | populate n ev rt =>
    exact decode_command ((reads_int n).andThen ((reads_event ev).andThen (reads_timbre rt).mapped))
  | release tr t => exact decode_command ((reads_nat tr).andThen (reads_nat t).mapped)
  | wr8 a v => exact decode_command ((reads_bits 4 a (by norm_num)).andThen (reads_bits 1 v (by norm_num)).mapped)
  | wr16 a v => exact decode_command ((reads_bits 4 a (by norm_num)).andThen (reads_bits 2 v (by norm_num)).mapped)
  | wr32 a v => exact decode_command ((reads_bits 4 a (by norm_num)).andThen (reads_bits 4 v (by norm_num)).mapped)
  -- register writes (R121)
  | chCnt n v => exact decode_bus32_eq_ok.2 ⟨_, (reg32_laneAddr n).1, rfl⟩
  | chSad n v => exact decode_bus32_eq_ok.2 ⟨_, (reg32_laneAddr n).2.1, rfl⟩
  | chLen n v => exact decode_bus32_eq_ok.2 ⟨_, (reg32_laneAddr n).2.2, rfl⟩
  | chTmr n v => exact decode_bus16_eq_ok.2 ⟨_, (reg16_laneAddr n).1, rfl⟩
  | chPnt n v => exact decode_bus16_eq_ok.2 ⟨_, (reg16_laneAddr n).2, rfl⟩
  | soundcnt | soundbias | sndcap0len | sndcap1len => exact decode_bus16_eq_ok.2 ⟨_, rfl, rfl⟩
  | sndcap0cnt | sndcap1cnt => exact decode_bus8_eq_ok.2 ⟨_, rfl, rfl⟩
  | sndcap0dad | sndcap1dad => exact decode_bus32_eq_ok.2 ⟨_, rfl, rfl⟩
  -- stored words (R125)
  | genPsg n duty => revert n duty; decide
  | genNoise n | genNone n => revert n; decide
  | capPcm16 u oneshot | capPcm8 u oneshot => cases oneshot <;> rfl
  | outMixer side | outCh1 side | outCh3 side | outCh1Ch3 side => cases side <;> rfl
  | genPcm8 | genPcm16 | genAdpcm | genOff => rfl

/-- Settles O2, kind of port item by kind of port item. -/
theorem decodeGivesWellFormed : Obligations.DecodeGivesWellFormed := by
  intro item i h
  cases item with
  | command opcode operands =>
    rw [decode, decodeCommand] at h
    split at h
    · cases h
    · cases h
      exact command_gives_wellFormed _ _ _ _ ‹_›
  | bus8 a v =>
    obtain ⟨r, -, rfl⟩ := decode_bus8_eq_ok.1 h
    exact r.writing_wellFormed v
  | bus16 a v =>
    obtain ⟨r, -, rfl⟩ := decode_bus16_eq_ok.1 h
    exact r.writing_wellFormed v
  | bus32 a v =>
    obtain ⟨r, -, rfl⟩ := decode_bus32_eq_ok.1 h
    exact r.writing_wellFormed v
  | selCnt n cnt =>
    cases h
    exact decodeSelCnt_wellFormed n cnt
  | selCap u cnt => exact decodeSelCap_wellFormed h
  | selOut side soundcnt => exact decodeSelOut_wellFormed h

/-- Settles O5: the table decodes because `encode` presents each write there (O1); the map names no other address. -/
theorem busMapIsExactlyTheTable : Obligations.BusMapIsExactlyTheTable := by
  refine ⟨fun n v h => ?_, fun v h b => ?_, fun a v i h => ?_, fun a v i h => ?_, fun a v i h => ?_⟩
  · have cnt := decodeEncodeRoundTrip (.chCnt n v) rfl
    have sad := decodeEncodeRoundTrip (.chSad n v) rfl
    have tmr := decodeEncodeRoundTrip (.chTmr n h) rfl
    have pnt := decodeEncodeRoundTrip (.chPnt n h) rfl
    have len := decodeEncodeRoundTrip (.chLen n v) rfl
    simp only [encode, laneAddr_eq] at cnt sad tmr pnt len
    exact ⟨cnt, sad, tmr, pnt, len⟩
  · exact ⟨decodeEncodeRoundTrip (.soundcnt h) rfl, decodeEncodeRoundTrip (.soundbias h) rfl,
      decodeEncodeRoundTrip (.sndcap0cnt b) rfl, decodeEncodeRoundTrip (.sndcap1cnt b) rfl,
      decodeEncodeRoundTrip (.sndcap0dad v) rfl, decodeEncodeRoundTrip (.sndcap0len h) rfl,
      decodeEncodeRoundTrip (.sndcap1dad v) rfl, decodeEncodeRoundTrip (.sndcap1len h) rfl⟩
  · obtain ⟨r, hr, -⟩ := decode_bus32_eq_ok.1 h
    exact reg32_addr hr
  · obtain ⟨r, hr, -⟩ := decode_bus16_eq_ok.1 h
    exact reg16_addr hr
  · obtain ⟨r, hr, -⟩ := decode_bus8_eq_ok.1 h
    exact reg8_addr hr

/-- Settles O6: the bus write and the decoder ask one bus map for the register. -/
theorem busWritesReachTheirRegister : Obligations.BusWritesReachTheirRegister := by
  refine ⟨fun s a v i h => ?_, fun s a v i h => ?_, fun s a v i h => ?_,
    fun s a v hs h => exec_wr32_unmapped hs (reg32_eq_none h) v,
    fun s a v hs h => exec_wr16_unmapped hs (reg16_eq_none h) v,
    fun s a v hs h => exec_wr8_unmapped hs (reg8_eq_none h) v⟩
  · obtain ⟨r, hr, rfl⟩ := decode_bus32_eq_ok.1 h
    exact ⟨_, rfl, exec_writing32 hr v s⟩
  · obtain ⟨r, hr, rfl⟩ := decode_bus16_eq_ok.1 h
    exact ⟨_, rfl, exec_writing16 hr v s⟩
  · obtain ⟨r, hr, rfl⟩ := decode_bus8_eq_ok.1 h
    exact ⟨_, rfl, exec_writing8 hr v s⟩

/-- Settles O4, by evaluating the decoder on the fourteen words. -/
theorem specWordsDecode : Obligations.SpecWordsDecode := by
  unfold Obligations.SpecWordsDecode
  decide

end Sys2Proof.Proofs
end

section
/-!
SUPPORT for spec/40_register_writes.md. What each register write does to a block without fatal error, as bus write and as
command; what the fields of a packed control word decode to.
-/

namespace Sys2Proof.Machine

/-! ### Bus write and command (R110, R126) -/

/-- An operation issued while no fatal error is set is performed (R401). -/
theorem next_andThen_of_live {s : State} (hs : s.fatal = none) (f : State → State) :
    (.next (s.andThen f) : Result) = .next (f s) :=
  congrArg _ (State.andThen_of_live hs f)

/-- WR32 at the address of a register is the write of that register. -/
theorem exec_wr32_eq {a : Word} {r : Reg32} (h : reg32 a = some r) (v : Word) (s : State) :
    exec (.wr32 a v) s = exec (r.writing v) s := (exec_writing32 h v s).symm

theorem exec_wr16_eq {a : Word} {r : Reg16} (h : reg16 a = some r) (v : Half) (s : State) :
    exec (.wr16 a v) s = exec (r.writing v) s := (exec_writing16 h v s).symm

theorem exec_wr8_eq {a : Word} {r : Reg8} (h : reg8 a = some r) (v : Byte) (s : State) :
    exec (.wr8 a v) s = exec (r.writing v) s := (exec_writing8 h v s).symm

/-- The global registers of the bus map (R115 to R119). -/
theorem reg16_global :
    reg16 0x04000500 = some .soundcnt ∧ reg16 0x04000504 = some .soundbias ∧
      reg16 0x04000514 = some (.capLen 0) ∧ reg16 0x0400051C = some (.capLen 1) := by decide

theorem reg8_global : reg8 0x04000508 = some (.capCnt 0) ∧ reg8 0x04000509 = some (.capCnt 1) := by decide

theorem reg32_global : reg32 0x04000510 = some (.capDad 0) ∧ reg32 0x04000518 = some (.capDad 1) := by decide

/-! ### Lane registers (R152 to R154) -/

theorem loopBytes_eq (v : Half) : loopBytes v = 4 * v.toNat := Nat.mul_comm ..

theorem lengthBytes_eq (v : Word) : lengthBytes v = 4 * (v.toNat % 2 ^ 21) := by
  have h : (v &&& 0x001FFFFF).toNat = v.toNat % 2 ^ 21 := Nat.and_two_pow_sub_one_eq_mod v.toNat 21
  rw [lengthBytes, h, Nat.mul_comm]

/-- A timer write touches lanes and capture units alone (R120, R152). -/
theorem State.writeTmr_frame (s : State) (n : LaneIx) (v : Half) :
    s.writeTmr n v = { s with lanes := (s.writeTmr n v).lanes, caps := (s.writeTmr n v).caps } := by
  unfold State.writeTmr
  dsimp only
  split_ifs <;> rfl

/-! ### SOUNDCNT and SOUNDBIAS (R22, R156, R157) -/

/-- A field on which the mask has every bit set reads as before the mask. -/
theorem extractLsb'_mask {w k lo : Nat} {mask : BitVec w} (h : mask.extractLsb' lo k = BitVec.allOnes k) (v : BitVec w) :
    (v &&& mask).extractLsb' lo k = v.extractLsb' lo k := by
  rw [BitVec.extractLsb'_and, h, BitVec.and_allOnes]

theorem masterVol_maskSoundcnt (v : Half) :
    masterVol (maskSoundcnt v) = if v.toNat % 128 = 127 then 128 else v.toNat % 128 := by
  rw [masterVol, maskSoundcnt, extractLsb'_mask (by decide), dec7, BitVec.extractLsb'_toNat]
  simp

theorem masterEnable_maskSoundcnt (v : Half) : masterEnable (maskSoundcnt v) = v.getLsbD 15 := by
  simp [masterEnable, maskSoundcnt]

theorem byp1_maskSoundcnt (v : Half) : byp1 (maskSoundcnt v) = v.getLsbD 12 := by
  simp [byp1, maskSoundcnt]

theorem byp3_maskSoundcnt (v : Half) : byp3 (maskSoundcnt v) = v.getLsbD 13 := by
  simp [byp3, maskSoundcnt]

theorem outSelect_maskSoundcnt (v : Half) (side : Side) : outSelect (maskSoundcnt v) side = outSelect v side := by
  cases side <;> exact extractLsb'_mask (by decide) v

theorem toNat_biasOf (v : Half) : (biasOf v).toNat = v.toNat % 1024 := by
  simp [biasOf, BitVec.extractLsb'_toNat]

/-! ### Capture registers (R160, R270) -/

/-- The control byte of a capture unit, with CAP_START on a rising edge of the enable. -/
theorem State.writeCapCnt_eq (s : State) (u : CapIx) (v : Byte) :
    s.writeCapCnt u v = s.setCap u
      (if v.getLsbD 7 = true ∧ (s.cap u).cnt.getLsbD 7 = false then
        { s.cap u with cnt := v &&& 0x8F, timer := (s.cap u).tmr.toNat, pos := 0, woff := 0, fifo := [] }
      else { s.cap u with cnt := v &&& 0x8F }) := by
  simp only [State.writeCapCnt, capEnable, Bool.and_eq_true, Bool.not_eq_true', maskCapCnt, Capture.started]

theorem State.writeCapLen_eq (s : State) (u : CapIx) (v : Half) :
    s.writeCapLen u v = s.setCap u { s.cap u with length := max 4 (4 * v.toNat) } := by
  rw [State.writeCapLen, capLengthBytes_eq]

/-! ### The start sequence (R155) -/

/-- What START(n) sets before the bursts. -/
def Lane.cleared (l : Lane) : Lane :=
  { l with
    timer := l.tmr.toNat, pos := if cntFormat l.cnt = 3 then -1 else -3, noise := 0x7FFF, cur := 0,
    frd := 0, fwr := 0, foff := 0, flevel := 0 }

/-- A tone or noise lane starts without a burst. -/
theorem laneStart_tone (m : List Host.Cell) {l : Lane} (h : cntFormat l.cnt = 3) : laneStart m l = .ok l.cleared := by
  simp only [laneStart, h, if_true, Lane.cleared, Config.startPosPsg, Config.noiseInit]

theorem LaneOut.andThen_ok (r : LaneOut) : r.andThen .ok = r := by
  obtain ⟨l, err⟩ := r
  cases err <;> rfl

/-- The pre-buffering is two bursts, the second unless the first is abandoned. -/
theorem prebuffer_two (m : List Host.Cell) (l : Lane) :
    prebuffer m Config.prebufferBursts l = (fifoFill m l).andThen (fifoFill m) :=
  congrArg _ (funext fun l' => (fifoFill m l').andThen_ok)

theorem laneStart_memory (m : List Host.Cell) {l : Lane} (h : cntFormat l.cnt ≠ 3) :
    laneStart m l = (fifoFill m l.cleared).andThen (fifoFill m) := by
  simp only [laneStart, h, if_false, prebuffer_two, Lane.cleared, Config.startPosPcm, Config.noiseInit]

/-- A lane of a memory format whose first burst succeeds answers what the second one does. -/
theorem laneStart_second {m : List Host.Cell} {l : Lane} (h : cntFormat l.cnt ≠ 3)
    (h1 : (fifoFill m l.cleared).err = none) : laneStart m l = fifoFill m (fifoFill m l.cleared).lane := by
  simp only [laneStart_memory m h, LaneOut.andThen, h1]

/-- A lane of a memory format whose first burst is abandoned answers what that one did. -/
theorem laneStart_first {m : List Host.Cell} {l : Lane} (h : cntFormat l.cnt ≠ 3) {a : Word}
    (h1 : (fifoFill m l.cleared).err = some a) : laneStart m l = fifoFill m l.cleared := by
  simp only [laneStart_memory m h, LaneOut.andThen, h1]

/-! ### The control word (R26, R113, R114, R163) -/

/-- Whatever a control write starts, the word is stored (R150). -/
theorem State.cnt_writeCnt (s : State) (n : LaneIx) (v : Word) : ((s.writeCnt n v).lane n).cnt = v := by
  unfold State.writeCnt
  dsimp only
  split
  · simp [laneStart_keeps]
  · simp

/-- A field of a control word at its place (R114). -/
def fieldAt {k : Nat} (x : BitVec k) (lo : Nat) : Word := x.setWidth 32 <<< lo

/-- A field is read back from its place. -/
theorem extractLsb'_fieldAt_same {k : Nat} (x : BitVec k) {lo : Nat} (h : lo + k ≤ 32) :
    (fieldAt x lo).extractLsb' lo k = x := by
  ext i hi
  simp [fieldAt, show lo + i < 32 by omega, BitVec.getLsbD_eq_getElem hi]

/-- A field is 0 wherever another one reads. -/
theorem extractLsb'_fieldAt_other {k : Nat} (x : BitVec k) {lo place j : Nat} (h : lo + j ≤ place ∨ place + k ≤ lo) :
    (fieldAt x place).extractLsb' lo j = 0 := by
  ext i hi
  rcases h with below | above
  · simp [fieldAt, show lo + i < place by omega]
  · simp [fieldAt, BitVec.getLsbD_of_ge x (lo + i - place) (by omega)]

/-- `pack_cnt` puts each field at its place, the volume at 0 (R114). -/
theorem packCnt_eq (k : Bool) (f : BitVec 2) (d : BitVec 3) (r : BitVec 2) (pan : Nat) (sh : BitVec 2)
    (volq : BitVec 7) :
    packCnt k f d r pan sh volq =
      fieldAt (.ofBool k) 31 ||| fieldAt f 29 ||| fieldAt d 26 ||| fieldAt r 24 ||| fieldAt (enc7 pan) 16 |||
        fieldAt sh 8 ||| fieldAt volq 0 := by
  simp only [fieldAt, BitVec.shiftLeft_zero]
  rfl

/-- What the fields of a packed control word decode to (R113, R114). -/
theorem packCnt_fields (k : Bool) (f : BitVec 2) (d : BitVec 3) (r : BitVec 2) (pan : Nat) (sh : BitVec 2)
    (volq : BitVec 7) :
    let cnt := packCnt k f d r pan sh volq
    cntVolume cnt = dec7 volq ∧ cntPan cnt = dec7 (enc7 pan) ∧ cntVolShift cnt = Config.volShiftTable sh ∧
      cntFormat cnt = f ∧ cntDuty cnt = d ∧ cntRepeat cnt = r := by
  simp [cntVolume, cntPan, cntVolShift, cntFormat, cntDuty, cntRepeat, Config.dutyLsb, Config.repeatLsb,
    packCnt_eq, BitVec.extractLsb'_or, extractLsb'_fieldAt_same, extractLsb'_fieldAt_other]

/-- Key-on is the bit packed as such (R29, R114). -/
theorem keyon_packCnt_eq (k : Bool) (f : BitVec 2) (d : BitVec 3) (r : BitVec 2) (pan : Nat) (sh : BitVec 2)
    (volq : BitVec 7) : keyon (packCnt k f d r pan sh volq) = k := by
  simp [keyon, packCnt, Config.dutyLsb, Config.repeatLsb]

/-- The 127 to 128 boundary rule (R114). -/
theorem dec7_eq (q : BitVec 7) : dec7 q = if q = 127 then 128 else q.toNat := by
  simp only [dec7, BitVec.toNat_eq (y := 127), BitVec.reduceToNat]

theorem dec7_enc7 (x : Nat) : dec7 (enc7 x) = if 127 ≤ x then 128 else x := by
  have h : (enc7 x).toNat = min x 127 := Nat.mod_eq_of_lt (by omega)
  rw [dec7, h]
  split_ifs <;> omega

theorem volShiftTable_eq (sel : BitVec 2) : Config.volShiftTable sel = [4, 3, 2, 0].getD sel.toNat 0 := by
  revert sel
  decide

end Sys2Proof.Machine
end

section
/-!
PROOFS for spec/40_register_writes.md: register writes and the start sequence (R150 to R163, R270).
-/

namespace Sys2Proof.Proofs

open Sys2Proof Sys2Proof.Machine

/-- Settles O10, register by register: WR performs the write at the register's address, and a live block performs it. -/
theorem laneRegisterWrites : Obligations.LaneRegisterWrites := by
  intro s n w h hs
  obtain ⟨-, hsad, hlen⟩ := reg32_laneAddr n
  obtain ⟨htmr, hpnt⟩ := reg16_laneAddr n
  rw [exec_wr32_eq hsad, exec_wr16_eq hpnt, exec_wr32_eq hlen, ← loopBytes_eq, ← lengthBytes_eq]
  have sad : exec (.chSad n w) s = .next (s.writeSad n w) := next_andThen_of_live hs _
  have tmr : exec (.chTmr n h) s = .next (s.writeTmr n h) := next_andThen_of_live hs _
  have pnt : exec (.chPnt n h) s = .next (s.writePnt n h) := next_andThen_of_live hs _
  have len : exec (.chLen n w) s = .next (s.writeLen n w) := next_andThen_of_live hs _
  refine ⟨⟨sad, sad⟩, ⟨_, tmr, (exec_wr16_eq htmr h s).trans tmr, fun k => ?_, ?_, ?_, s.writeTmr_frame n h⟩,
    ⟨pnt, pnt⟩, ⟨len, len⟩⟩
  · simp [eq_comm]
  · simp [State.cap_writeTmr]
  · simp [State.cap_writeTmr]

/-- Settles O11, from what each field of SOUNDCNT reads under the mask. -/
theorem globalRegisterWrites : Obligations.GlobalRegisterWrites := by
  intro s v hs
  obtain ⟨hcnt, hbias, -⟩ := reg16_global
  have cnt : exec (.soundcnt v) s = .next (s.writeSoundcnt v) := next_andThen_of_live hs _
  have bias : exec (.soundbias v) s = .next (s.writeSoundbias v) := next_andThen_of_live hs _
  exact ⟨⟨_, cnt, (exec_wr16_eq hcnt v s).trans cnt, rfl, masterVol_maskSoundcnt v, masterEnable_maskSoundcnt v,
      byp1_maskSoundcnt v, byp3_maskSoundcnt v, outSelect_maskSoundcnt v .left, outSelect_maskSoundcnt v .right⟩,
    _, bias, (exec_wr16_eq hbias v s).trans bias, rfl, toNat_biasOf v⟩

/-- Settles O12, register by register as O10; a control write is `State.writeCapCnt_eq`, a length `State.writeCapLen_eq`. -/
theorem captureRegisterWrites : Obligations.CaptureRegisterWrites := by
  intro s v w h hs
  obtain ⟨-, -, hlen0, hlen1⟩ := reg16_global
  obtain ⟨hcnt0, hcnt1⟩ := reg8_global
  obtain ⟨hdad0, hdad1⟩ := reg32_global
  dsimp only
  rw [exec_wr8_eq hcnt0, exec_wr8_eq hcnt1, exec_wr32_eq hdad0, exec_wr32_eq hdad1, exec_wr16_eq hlen0,
    exec_wr16_eq hlen1, ← s.writeCapCnt_eq, ← s.writeCapCnt_eq, ← s.writeCapLen_eq, ← s.writeCapLen_eq]
  have cnt0 : exec (.sndcap0cnt v) s = .next (s.writeCapCnt 0 v) := next_andThen_of_live hs _
  have cnt1 : exec (.sndcap1cnt v) s = .next (s.writeCapCnt 1 v) := next_andThen_of_live hs _
  have dad0 : exec (.sndcap0dad w) s = .next (s.writeCapDad 0 w) := next_andThen_of_live hs _
  have dad1 : exec (.sndcap1dad w) s = .next (s.writeCapDad 1 w) := next_andThen_of_live hs _
  have len0 : exec (.sndcap0len h) s = .next (s.writeCapLen 0 h) := next_andThen_of_live hs _
  have len1 : exec (.sndcap1len h) s = .next (s.writeCapLen 1 h) := next_andThen_of_live hs _
  exact ⟨cnt0, cnt0, cnt1, cnt1, dad0, dad0, dad1, dad1, ⟨len0, len0⟩, len1, len1⟩

/-- Settles O13: without an edge the word is stored; with one the state commits what START(n) answers, which for a memory
format is two bursts in sequence. -/
theorem controlWriteStartsOnRisingEdge : Obligations.ControlWriteStartsOnRisingEdge := by
  intro s n v hs
  have cnt : exec (.chCnt n v) s = .next (s.writeCnt n v) := next_andThen_of_live hs _
  rw [cnt]
  refine ⟨fun h => congrArg _ (s.writeCnt_noEdge n v h), fun hv ho => ?_⟩
  rw [s.writeCnt_edge n v hv ho]
  refine ⟨fun tone => ?_, fun memory e1 e2 => ?_, fun memory a e1 => ?_, fun memory e1 a e2 => ?_⟩
  · rw [laneStart_tone s.mem (l := { s.lane n with cnt := v }) tone]
    rfl
  · rw [laneStart_second (l := { s.lane n with cnt := v }) memory e1]
    exact congrArg _ (s.commitLane_ok n e2)
  · rw [laneStart_first (l := { s.lane n with cnt := v }) memory e1]
    exact congrArg _ (State.commitLane_error hs n e1)
  · rw [laneStart_second (l := { s.lane n with cnt := v }) memory e1]
    exact congrArg _ (State.commitLane_error hs n e2)

/-- Settles O14: the word written is stored, whatever it starts, and each field is read from where `pack_cnt` put it. -/
theorem controlWordRoundTrip : Obligations.ControlWordRoundTrip := by
  intro s n k f d r pan sh volq hs _
  refine ⟨_, next_andThen_of_live hs (·.writeCnt n (packCnt k f d r pan sh volq)), ?_⟩
  obtain ⟨hvol, hpan, hshift, hformat, hduty, hrepeat⟩ := packCnt_fields k f d r pan sh volq
  rw [State.cnt_writeCnt, hvol, hpan, hshift, dec7_eq, dec7_enc7, volShiftTable_eq]
  exact ⟨rfl, rfl, rfl, hformat, hduty, hrepeat, keyon_packCnt_eq ..⟩

end Sys2Proof.Proofs
end

section
/-!
SUPPORT for spec/41_generators.md. The generator that a control word selects, bursts of the FIFO, the generator rows, the
nibble arithmetic of ADPCM, the lane timer and the adjusted sample, each stated as the rules word it.
-/

namespace Sys2Proof.Machine

/-! ### The selector (R125, R190) -/

/-- `gen(n)` by the format field and the lane (R190). -/
theorem genOf_eq (n : LaneIx) (cnt : Word) :
    genOf n cnt =
      if cnt.extractLsb' 29 2 = 0 then .pcm8
      else if cnt.extractLsb' 29 2 = 1 then .pcm16
      else if cnt.extractLsb' 29 2 = 2 then .adpcm
      else if n.val ≤ 7 then .none
      else if n.val ≤ 13 then .psg
      else .noise := by
  unfold genOf cntFormat
  generalize cnt.extractLsb' 29 2 = format
  revert n format
  decide

/-- The row of a generator on lane `n`; a tone row has the duty of the control word. -/
def genRow (n : LaneIx) (cnt : Word) : Gen → Instr
  | .pcm8 => .genPcm8 n
  | .pcm16 => .genPcm16 n
  | .adpcm => .genAdpcm n
  | .psg => .genPsg n (cnt.extractLsb' 26 3)
  | .noise => .genNoise n
  | .none => .genNone n

/-- Key-on, as the selector pattern examines it (R125). -/
theorem and_keyonMask_eq_zero (cnt : Word) : cnt &&& 0x80000000 = 0 ↔ cnt.getLsbD 31 = false := by
  have mask : (0x80000000 : Word) = BitVec.twoPow 32 31 := by decide
  rw [mask, BitVec.and_twoPow]
  cases cnt.getLsbD 31 <;> decide

/-- A stored control word selects the row of its generator, or GEN_OFF when key-on is clear. -/
theorem decodeSelCnt_eq (n : LaneIx) (cnt : Word) :
    decodeSelCnt n cnt = if cnt.getLsbD 31 = false then .genOff n else genRow n cnt (genOf n cnt) := by
  have format : (cnt.extractLsb' 29 2).toNat < 4 := (cnt.extractLsb' 29 2).isLt
  simp only [decodeSelCnt, and_keyonMask_eq_zero, genOf, cntFormat]
  by_cases off : cnt.getLsbD 31 = false
  · rw [if_pos off, if_pos off]
  · rw [if_neg off, if_neg off]
    generalize (cnt.extractLsb' 29 2).toNat = f at format
    interval_cases f
    · rfl
    · rfl
    · rfl
    · show (if 14 ≤ n.val then Instr.genNoise n else if 8 ≤ n.val then _ else _) =
        genRow n cnt (if 14 ≤ n.val then .noise else if 8 ≤ n.val then .psg else .none)
      split_ifs <;> rfl

/-- A generator's row performs one step of it on the lane (R195 to R199). -/
theorem exec_genRow {s : State} (hs : s.fatal = none) (n : LaneIx) {g : Gen} (hg : g ≠ .none) :
    exec (genRow n (s.lane n).cnt g) s = .next (s.commitLane n (genStep s.mem g (s.lane n))) := by
  cases g with
  | none => exact absurd rfl hg
  | _ => exact next_andThen_of_live hs _

/-! ### One burst (R192) -/

/-- Where FIFO_FILL begins its burst: a looping lane at the end goes back to the loop position. -/
def Lane.burstStart (l : Lane) : Nat :=
  if cntRepeat l.cnt ≠ 0 ∧ l.total ≤ l.foff ∧ (cntRepeat l.cnt).getLsbD 0 = true then l.loopPos else l.foff

/-- How many bytes the burst has. -/
def Lane.burstLength (l : Lane) : Nat :=
  if cntRepeat l.cnt = 0 then 16 else min 16 (l.total - l.burstStart)

/-- A one-shot lane with nothing left fetches nothing. -/
theorem fifoFill_drained (m : List Host.Cell) {l : Lane} (hrep : cntRepeat l.cnt = 2) (hend : l.total ≤ l.foff) :
    fifoFill m l = .ok l := by
  simp [fifoFill, hrep, hend]

/-- Every other lane fetches one burst. -/
theorem fifoFill_burst (m : List Host.Cell) {l : Lane} (h : ¬(cntRepeat l.cnt = 2 ∧ l.total ≤ l.foff)) :
    fifoFill m l = fetchBurst m { l with foff := l.burstStart } l.burstLength := by
  have fields : ∀ rep : BitVec 2, (rep.toNat = 0 ↔ rep = 0) ∧ (rep ≠ 0 → rep ≠ 2 → rep.getLsbD 0 = true) := by decide
  obtain ⟨hzero, hodd⟩ := fields (cntRepeat l.cnt)
  simp only [fifoFill, hzero, Lane.burstStart, Lane.burstLength, Config.burstBytes, ge_iff_le]
  by_cases hrep : cntRepeat l.cnt = 0
  · simp only [hrep, ne_eq, not_true, false_and, if_true, if_false]
  · by_cases hend : l.total ≤ l.foff
    · have hbit := hodd hrep fun h2 => h ⟨h2, hend⟩
      simp only [hrep, hend, hbit, ne_eq, not_false_iff, and_self, if_true, if_false]
    · simp only [hrep, hend, false_and, and_false, if_false]

/-- A burst of an aligned lane is whole words, at most four. -/
theorem Lane.burstLength_words {l : Lane} (hp : 4 ∣ l.loopPos) (hl : 4 ∣ l.length) (hf : 4 ∣ l.foff) :
    4 ∣ l.burstLength ∧ l.burstLength ≤ 16 := by
  have haligned : 4 ∣ l.burstStart := by
    unfold Lane.burstStart
    split
    exacts [hp, hf]
  unfold Lane.burstLength Lane.total
  split <;> omega

/-- `ring` is that of `l` after `bytes` bytes from its offset: byte `j` stands `j` places past the write index, and the
other places are as before. -/
def Lane.receives (m : List Host.Cell) (l : Lane) (bytes : Nat) (ring : Vector Byte Config.fifoBytes) : Prop :=
  (∀ j (_ : j < bytes), ring[(4 * l.fwr.val + j) % 32]'(Nat.mod_lt _ (by decide)) =
    Memory.read m (l.src + BitVec.ofNat 32 (l.foff + j)).toNat) ∧
  ∀ i (h : i < 32), (∀ j < bytes, (4 * l.fwr.val + j) % 32 ≠ i) → ring[i]'h = l.fifo[i]'h

/-- A run of mapped words goes into the ring, one after another. -/
theorem fetchWords_receives {m : List Host.Cell} {l : Lane} {words : Nat} (hw : words ≤ 8)
    (hm : ∀ j < 4 * words, Config.mapped (l.src + BitVec.ofNat 32 (l.foff + j)) = true) :
    ∃ ring fwr, fetchWords m words l = ⟨{ l with fifo := ring, foff := l.foff + 4 * words, fwr := fwr }, none⟩ ∧
      fwr.val = (l.fwr.val + words) % 8 ∧ l.receives m (4 * words) ring := by
  have hfwr : l.fwr.val < 8 := l.fwr.isLt
  obtain ⟨ring, fwr, he, hnext, hring⟩ := fetchWords_ok m words l hw hm
  refine ⟨ring, fwr, he, hnext, fun j hj => ?_, fun i hi hout => ?_⟩
  · have hback : ((4 * l.fwr.val + j) % 32 + 32 - 4 * l.fwr.val) % 32 = j := by omega
    rw [hring, hback, if_pos hj]
  · rw [hring, if_neg]
    intro hlt
    exact hout _ hlt (by omega)

/-- Fetching is word by word: the second part goes on where the first ended, unless that was abandoned. -/
theorem fetchWords_add (m : List Host.Cell) (j k : Nat) (l : Lane) :
    fetchWords m (j + k) l = (fetchWords m j l).andThen (fetchWords m k) := by
  induction j generalizing l with
  | zero => rw [Nat.zero_add]; rfl
  | succ j ih =>
    rw [Nat.succ_add, fetchWords, fetchWords]
    split
    · rfl
    · exact ih _

/-- A run that meets its first unmapped address at byte `k` keeps the words before it, and is abandoned there (R404). -/
theorem fetchWords_abandoned {m : List Host.Cell} {l : Lane} {words k : Nat} (hw : words ≤ 8) (hk : k < 4 * words)
    (hu : Config.mapped (l.src + BitVec.ofNat 32 (l.foff + k)) = false)
    (hm : ∀ j < k, Config.mapped (l.src + BitVec.ofNat 32 (l.foff + j)) = true) :
    ∃ ring fwr, fetchWords m words l =
        ⟨{ l with fifo := ring, foff := l.foff + 4 * (k / 4), fwr := fwr }, some (l.src + BitVec.ofNat 32 (l.foff + k))⟩ ∧
      fwr.val = (l.fwr.val + k / 4) % 8 ∧ l.receives m (4 * (k / 4)) ring := by
  obtain ⟨ring, fwr, hstored, hring⟩ := fetchWords_receives (m := m) (l := l) (words := k / 4) (by omega)
    fun j hj => hm j (by omega)
  refine ⟨ring, fwr, ?_, hring⟩
  have hk4 : 4 * (k / 4) + k % 4 = k := Nat.div_add_mod k 4
  have place : ∀ i, l.src + BitVec.ofNat 32 (l.foff + 4 * (k / 4)) + BitVec.ofNat 32 i =
      l.src + BitVec.ofNat 32 (l.foff + (4 * (k / 4) + i)) := fun i => by
    rw [BitVec.add_assoc, ← BitVec.ofNat_add, Nat.add_assoc]
  have hword := firstUnmapped_eq_some (a := l.src + BitVec.ofNat 32 (l.foff + 4 * (k / 4))) (n := 4) (i := k % 4)
    (by omega) (by rwa [place, hk4]) fun j hj => by rw [place]; exact hm _ (by omega)
  rw [place, hk4] at hword
  obtain ⟨rest, hrest⟩ : ∃ rest, words = k / 4 + (rest + 1) := ⟨words - k / 4 - 1, by omega⟩
  rw [hrest, fetchWords_add, hstored]
  simp only [LaneOut.andThen, fetchWords, memRead, hword]

section

variable {m : List Host.Cell} {l : Lane} {burst : Nat} (h4 : 4 ∣ burst) (hb : burst ≤ 32)
include h4 hb

/-- A burst of mapped bytes raises the level by its length. -/
theorem fetchBurst_receives (hm : ∀ j < burst, Config.mapped (l.src + BitVec.ofNat 32 (l.foff + j)) = true) :
    ∃ ring fwr, fetchBurst m l burst =
        ⟨{ l with fifo := ring, foff := l.foff + burst, fwr := fwr, flevel := l.flevel + burst }, none⟩ ∧
      fwr.val = (l.fwr.val + burst / 4) % 8 ∧ l.receives m burst ring := by
  obtain ⟨words, rfl⟩ := h4
  obtain ⟨ring, fwr, he, hnext, hring⟩ := fetchWords_receives (by omega) hm
  refine ⟨ring, fwr, ?_, by omega, hring⟩
  rw [fetchBurst, show (4 * words + 3) / 4 = words by omega, he]
  rfl

/-- An abandoned burst stores the words before the unmapped address and does not raise the level. -/
theorem fetchBurst_abandoned {k : Nat} (hk : k < burst)
    (hu : Config.mapped (l.src + BitVec.ofNat 32 (l.foff + k)) = false)
    (hm : ∀ j < k, Config.mapped (l.src + BitVec.ofNat 32 (l.foff + j)) = true) :
    ∃ ring fwr, fetchBurst m l burst =
        ⟨{ l with fifo := ring, foff := l.foff + 4 * (k / 4), fwr := fwr }, some (l.src + BitVec.ofNat 32 (l.foff + k))⟩ ∧
      fwr.val = (l.fwr.val + k / 4) % 8 ∧ l.receives m (4 * (k / 4)) ring := by
  obtain ⟨ring, fwr, he, hring⟩ := fetchWords_abandoned (m := m) (l := l) (words := (burst + 3) / 4) (by omega)
    (by omega) hu hm
  refine ⟨ring, fwr, ?_, hring⟩
  rw [fetchBurst, he]
  rfl

end

/-! ### FIFO_READ (R193) -/

/-- The value taken is the little-endian sum of the ring bytes from the read index. -/
theorem ringValue_eq_sum (l : Lane) (k : Nat) :
    ringValue l k = ((List.range k).map fun i =>
      (l.fifo[(l.frd.val + i) % 32]'(Nat.mod_lt _ (by decide))).toNat * 2 ^ (8 * i)).sum :=
  leValue_range k fun i => l.fifo[ringIndex l.frd i]

/-- FIFO_READ refills exactly when 16 or fewer bytes are left. -/
theorem fifoConsume_eq (m : List Host.Cell) (l : Lane) (k : Nat) :
    fifoConsume m l k =
      if l.flevel - k ≤ 16 then fifoFill m { l with frd := ringIndex l.frd k, flevel := l.flevel - k }
      else .ok { l with frd := ringIndex l.frd k, flevel := l.flevel - k } := rfl

/-- Only what is done with the lane after the read counts. -/
theorem fifoRead_congr {m : List Host.Cell} {l : Lane} {k : Nat} {use use' : Nat → Lane → Lane}
    (h : ∀ v, use v (fifoConsume m l k).lane = use' v (fifoConsume m l k).lane) :
    fifoRead m l k use = fifoRead m l k use' := by
  simp only [fifoRead, LaneOut.andThen, h]

/-- A read leaves the predictor alone. -/
theorem fifoConsume_aval (m : List Host.Cell) (l : Lane) (k : Nat) : (fifoConsume m l k).lane.aval = l.aval := by
  obtain ⟨ring, foff, frd, fwr, flevel, he, -⟩ := fifoConsume_shape m l k
  rw [he]

/-- A step that reads commits what it makes of the value, or the lane after the abandoned refill with BusError. -/
theorem next_commitLane_fifoRead {s : State} (hs : s.fatal = none) (n : LaneIx) {m : List Host.Cell} {l l' : Lane}
    {k : Nat} {use : Nat → Lane → Lane} (h : use (ringValue l k) (fifoConsume m l k).lane = l') :
    ((fifoConsume m l k).err = none →
      (.next (s.commitLane n (fifoRead m l k use)) : Result) = .next (s.setLane n l')) ∧
    (∀ a, (fifoConsume m l k).err = some a → (.next (s.commitLane n (fifoRead m l k use)) : Result) =
      .next { s.setLane n (fifoConsume m l k).lane with fatal := some (.busError a) }) := by
  obtain ⟨read, abandoned⟩ := State.commitLane_fifoRead hs n m l k use
  exact ⟨fun he => congrArg _ (h ▸ read he), fun a he => congrArg _ (abandoned a he)⟩

/-! ### The ADPCM step (R197) -/

/-- The byte an ADPCM step reads is the one at the read index. -/
theorem ofNat_ringValue_one (l : Lane) :
    BitVec.ofNat 8 (ringValue l 1) = l.fifo[(l.frd.val + 0) % 32]'(Nat.mod_lt _ (by decide)) := by
  simp [ringValue, leValue, ringIndex, List.range_one]

/-- The four header bytes make the predictor and the index, and the loop snapshot of both. -/
theorem adpcmHeader_ringValue (l l' : Lane) :
    ∃ i : Fin 89, i.val = min ((l.fifo[(l.frd.val + 2) % 32]'(Nat.mod_lt _ (by decide))).toNat % 128) 88 ∧
      adpcmHeader (ringValue l 4) l' =
        { l' with
          aval := (l.fifo[(l.frd.val + 1) % 32]'(Nat.mod_lt _ (by decide)) ++
            l.fifo[(l.frd.val + 0) % 32]'(Nat.mod_lt _ (by decide))).toInt
          aidx := i
          avalLoop := (l.fifo[(l.frd.val + 1) % 32]'(Nat.mod_lt _ (by decide)) ++
            l.fifo[(l.frd.val + 0) % 32]'(Nat.mod_lt _ (by decide))).toInt
          aidxLoop := i } :=
  adpcmHeader_bytes _ _ _ (l.fifo[ringIndex l.frd 3]) l'

/-- The predictor after a nibble, in the numbers of R197: the difference, added or subtracted, with a one-sided clamp. -/
def Lane.nextPredictor (l : Lane) : Int :=
  let d := l.abyte.toNat % 16
  let st := Config.adpcmStep l.aidx
  let diff : Int := (st / 8 + d % 2 * (st / 4) + d / 2 % 2 * (st / 2) + d / 4 % 2 * st : Nat)
  if 8 ≤ d then max (l.aval - diff) (-0x7FFF) else min (l.aval + diff) 0x7FFF

/-- The difference a nibble makes, by the numeric bits of it. -/
theorem adpcmDiff_eq (st : Nat) (d : BitVec 4) :
    adpcmDiff st d = st / 8 + d.toNat % 2 * (st / 4) + d.toNat / 2 % 2 * (st / 2) + d.toNat / 4 % 2 * st := by
  have bits : ∀ d : BitVec 4, d.toNat % 2 = (d.getLsbD 0).toNat ∧ d.toNat / 2 % 2 = (d.getLsbD 1).toNat ∧
      d.toNat / 4 % 2 = (d.getLsbD 2).toNat := by decide
  have factor : ∀ (b : Bool) (x : Nat), b.toNat * x = if b then x else 0 := by
    rintro (_ | _) x <;> simp
  obtain ⟨h0, h1, h2⟩ := bits d
  rw [h0, h1, h2, factor, factor, factor]
  rfl

/-- The change of the step index, by the low three bits of a nibble. -/
theorem adpcmIndexDelta_eq (d : BitVec 4) :
    Config.adpcmIndexDelta (d.extractLsb' 0 3) =
      if d.toNat % 8 < 4 then -1 else 2 * ((d.toNat % 8 : Nat) - 3 : Int) := by
  revert d
  decide

/-- The step index after a nibble is the clamped sum. -/
theorem adpcmNextIndex_val (i : Fin (Config.adpcmIndexMax + 1)) (d : BitVec 4) :
    ((adpcmNextIndex i d).val : Int) =
      max 0 (min (i.val + if d.toNat % 8 < 4 then -1 else 2 * ((d.toNat % 8 : Nat) - 3 : Int)) 88) := by
  rw [← adpcmIndexDelta_eq]
  simp only [adpcmNextIndex, Config.adpcmIndexMax]
  omega

/-- The sign of a nibble is its high bit. -/
theorem getLsbD_three_iff (d : BitVec 4) : d.getLsbD 3 = true ↔ 8 ≤ d.toNat := by
  revert d
  decide

/-- The low nibble of a byte. -/
theorem toNat_lowNibble (b : Byte) : (b.extractLsb' 0 4).toNat = b.toNat % 16 := by
  simp [BitVec.extractLsb'_toNat]

/-- What a nibble does to the lane: the new predictor and index, their snapshot at the loop position, the sample. -/
theorem adpcmDecode_eq (l : Lane) :
    let i := adpcmNextIndex l.aidx (l.abyte.extractLsb' 0 4)
    adpcmDecode l =
      if l.pos = 2 * l.loopPos then
        { l with
          aval := l.nextPredictor, aidx := i, avalLoop := l.nextPredictor, aidxLoop := i, cur := l.nextPredictor }
      else { l with aval := l.nextPredictor, aidx := i, cur := l.nextPredictor } := by
  have hloop : ((l.loopPos * 2 : Nat) : Int) = 2 * l.loopPos := by omega
  have predictor : (if (l.abyte.extractLsb' 0 4).getLsbD 3 then
        max (l.aval - adpcmDiff (Config.adpcmStep l.aidx) (l.abyte.extractLsb' 0 4)) (-Config.adpcmClamp)
      else min (l.aval + adpcmDiff (Config.adpcmStep l.aidx) (l.abyte.extractLsb' 0 4)) Config.adpcmClamp) =
      l.nextPredictor := by
    simp only [getLsbD_three_iff, adpcmDiff_eq, toNat_lowNibble, Config.adpcmClamp, Lane.nextPredictor]
  simp only [adpcmDecode, predictor, hloop]
  split_ifs <;> rfl

/-- The lane that reads again at the loop position, with the snapshot restored. -/
def Lane.rewound (l : Lane) : Lane := { l with pos := 2 * l.loopPos, aval := l.avalLoop, aidx := l.aidxLoop }

/-- The loop branch reads one byte, and the restored predictor is the sample. -/
theorem adpcmLoop_eq (m : List Host.Cell) (l : Lane) :
    adpcmLoop m l = fifoRead m l.rewound 1 fun b l' => { l' with abyte := BitVec.ofNat 8 b, cur := l.avalLoop } := by
  have hloop : ((l.loopPos * 2 : Nat) : Int) = 2 * l.loopPos := by omega
  rw [adpcmLoop, hloop]
  refine fifoRead_congr fun b => ?_
  exact congrArg (fun x => { (fifoConsume m l.rewound 1).lane with abyte := BitVec.ofNat 8 b, cur := x })
    (fifoConsume_aval m l.rewound 1)

/-! ### Tone, noise and silence (R191, R198, R199, R201) -/

theorem getLsbD_zero_iff {w : Nat} (x : BitVec w) : x.getLsbD 0 = true ↔ x.toNat % 2 = 1 := by
  rw [BitVec.getLsbD, Nat.testBit_zero, decide_eq_true_iff]

/-- A lane that is keyed off or has no generator does not run. -/
theorem State.runLane_silent {s : State} {n : LaneIx}
    (h : keyon (s.lane n).cnt = false ∨ genOf n (s.lane n).cnt = .none) : s.runLane n = s.setLaneValue n 0 := by
  have still : laneRuns n (s.lane n) = false := by
    rcases h with h | h <;> simp [laneRuns, h]
  simp [State.runLane, still]

/-! ### The lane timer (R191) -/

/-- A generator step leaves the timer as it was reloaded. -/
theorem genStep_timer (m : List Host.Cell) (g : Gen) (l : Lane) : (genStep m g l).lane.timer = l.timer := by
  obtain ⟨-, -, -, -, ht, -⟩ := genStep_keeps m g l
  exact ht

/-- The lane as a turn of the timer loop hands it to the generator. -/
def Lane.reloaded (l : Lane) : Lane := { l with timer := l.tmr.toNat + (l.timer - Config.timerWrap) }

/-- A turn lowers the timer, so what fuel is left is enough for the rest. -/
theorem genStep_reloaded_timer (m : List Host.Cell) (g : Gen) {l : Lane} {f : Nat} (hw : Config.timerWrap ≤ l.timer)
    (hf : l.timer < Config.timerWrap + (f + 1)) : (genStep m g l.reloaded).lane.timer < Config.timerWrap + f := by
  have htmr := l.tmr.isLt
  rw [genStep_timer]
  simp only [Lane.reloaded, Config.timerWrap] at *
  omega

/-- A turn goes on unless the step raised or cleared key-on. -/
theorem laneLoop_succ (m : List Host.Cell) (g : Gen) (f : Nat) {l : Lane} (hw : Config.timerWrap ≤ l.timer) :
    laneLoop m g (f + 1) l =
      if (genStep m g l.reloaded).err = none ∧ keyon (genStep m g l.reloaded).lane.cnt = true then
        laneLoop m g f (genStep m g l.reloaded).lane
      else genStep m g l.reloaded := by
  rw [laneLoop_turn m g f l hw]
  show LaneOut.andThen (genStep m g l.reloaded) _ = _
  rcases genStep m g l.reloaded with ⟨l', _ | a⟩ <;> simp [LaneOut.andThen, LaneOut.ok]

/-- Any two fuels that are enough answer the same. -/
theorem laneLoop_enough (m : List Host.Cell) (g : Gen) {l : Lane} {f f' : Nat} (hf : l.timer < Config.timerWrap + f)
    (hf' : l.timer < Config.timerWrap + f') : laneLoop m g f l = laneLoop m g f' l := by
  induction f generalizing l f' with
  | zero => rw [laneLoop_below m g _ l hf, laneLoop_below m g _ l hf]
  | succ f ih =>
    rcases Nat.lt_or_ge l.timer Config.timerWrap with hlt | hw
    · rw [laneLoop_below m g _ l hlt, laneLoop_below m g _ l hlt]
    · cases f' with
      | zero => omega
      | succ f' =>
        rw [laneLoop_succ m g f hw, laneLoop_succ m g f' hw,
          ih (genStep_reloaded_timer m g hw hf) (genStep_reloaded_timer m g hw hf')]

/-- With the reload 0xFE00 a tick is one generator step, and the timer comes back to where it was. -/
theorem laneAdvance_onePerTick (m : List Host.Cell) (g : Gen) {l : Lane} (ht : l.tmr = 0xFE00)
    (hlo : 0xFE00 ≤ l.timer) (hhi : l.timer < 0x10000) : laneAdvance m g l = genStep m g l := by
  have hw : Config.timerWrap ≤ l.timer + 512 := by rw [Config.timerWrap]; omega
  have back : Lane.reloaded { l with timer := l.timer + 512 } = l := by
    have reload : l.tmr.toNat = 0xFE00 := by rw [ht]; rfl
    have timer : l.tmr.toNat + (l.timer + 512 - Config.timerWrap) = l.timer := by
      rw [reload, Config.timerWrap]
      omega
    simp only [Lane.reloaded, timer]
  have hbelow : (genStep m g l).lane.timer < Config.timerWrap := by rwa [genStep_timer]
  show laneLoop m g (l.timer + 511 + 1) { l with timer := l.timer + 512 } = _
  rw [laneLoop_succ m g _ hw, back, laneLoop_below m g _ _ hbelow]
  split_ifs with h
  · exact congrArg (LaneOut.mk _) h.1.symm
  · rfl

/-! ### The adjusted sample (R200) -/

/-- The shift as the factor it multiplies by. -/
theorem two_pow_volShiftTable (sel : BitVec 2) :
    (2 : Int) ^ Config.volShiftTable sel = if sel = 0 then 16 else if sel = 1 then 8 else if sel = 2 then 4 else 1 := by
  revert sel
  decide

/-- The decoded volume, from the low seven bits. -/
theorem cntVolume_eq (cnt : Word) : cntVolume cnt = if cnt.toNat % 128 = 127 then 128 else cnt.toNat % 128 := by
  simp [cntVolume, dec7, BitVec.extractLsb'_toNat]

/-- A signed 16-bit sample, shifted by at most 4 and times at most 128, is at most 2^26 in magnitude. -/
theorem adjusted_le {cur sh vol : Int} (hlo : -0x8000 ≤ cur) (hhi : cur ≤ 0x7FFF) (hsh : 0 ≤ sh ∧ sh ≤ 16)
    (hvol : 0 ≤ vol ∧ vol ≤ 128) : -(2 ^ 26) ≤ cur * sh * vol ∧ cur * sh * vol ≤ 2 ^ 26 := by
  have hcur : |cur| ≤ 2 ^ 15 := abs_le.2 ⟨by omega, by omega⟩
  have hsh : |sh| ≤ 2 ^ 4 := abs_le.2 ⟨by omega, by omega⟩
  have hvol : |vol| ≤ 2 ^ 7 := abs_le.2 ⟨by omega, by omega⟩
  refine abs_le.1 ?_
  calc |cur * sh * vol| = |cur| * |sh| * |vol| := by rw [abs_mul, abs_mul]
    _ ≤ 2 ^ 15 * 2 ^ 4 * 2 ^ 7 := by gcongr
    _ = 2 ^ 26 := by norm_num

end Sys2Proof.Machine
end

section
/-!
PROOFS for spec/41_generators.md: the selector, the FIFO, the generators and the lane timer (R190 to R201).
-/

namespace Sys2Proof.Proofs

open Sys2Proof Sys2Proof.Machine

/-- Settles O3, from `genOf_eq` and `decodeSelCnt_eq`. -/
theorem selectorNamesTheGenerator : Obligations.SelectorNamesTheGenerator :=
  fun n cnt => ⟨genOf_eq n cnt, congrArg Except.ok (decodeSelCnt_eq n cnt)⟩

/-- Settles O15: a lane that is not drained fetches whole words of a burst (`fifoFill_burst`), and what the ring receives
is `fetchBurst_receives`, or `fetchBurst_abandoned` at an unmapped address. -/
theorem fifoFillIsOneBurst : Obligations.FifoFillIsOneBurst := by
  intro m l hp hl hf
  obtain ⟨h4, h16⟩ := Lane.burstLength_words hp hl hf
  have h32 : l.burstLength ≤ 32 := by omega
  refine ⟨fun hrep hend => fifoFill_drained m hrep hend, fun h hm => ?_, fun h k hk hu hm => ?_⟩
  · rw [fifoFill_burst m h]
    exact fetchBurst_receives (l := { l with foff := l.burstStart }) h4 h32 hm
  · rw [fifoFill_burst m h]
    exact fetchBurst_abandoned (l := { l with foff := l.burstStart }) h4 h32 hk hu hm

/-- Settles O16, from `ringValue_eq_sum` and `fifoConsume_eq`. -/
theorem fifoReadTakesBytesThenRefills : Obligations.FifoReadTakesBytesThenRefills := by
  intro m l k _
  refine ⟨ringValue_eq_sum l k, ringIndex l.frd k, rfl, fun h => ?_, fun h => ?_⟩
  · rw [fifoConsume_eq, if_neg (by omega)]
    rfl
  · rw [fifoConsume_eq, if_pos h]

/-- Settles O17, branch by branch of `stepPcm8_cases`; a branch that reads commits as `next_commitLane_fifoRead` says. -/
theorem pcm8Step : Obligations.Pcm8Step := by
  intro s n hs
  have row : exec (.genPcm8 n) s = .next (s.commitLane n (stepPcm8 s.mem (s.lane n))) := next_andThen_of_live hs _
  obtain ⟨early, done, play⟩ := stepPcm8_cases s.mem (s.lane n)
  dsimp only
  rw [row]
  refine ⟨fun hp => ?_, fun hp hend hrep => ?_, fun hp hgo => ?_⟩
  · rw [early hp]
    rfl
  · rw [done hp hend hrep]
    rfl
  · rw [play hp hgo]
    exact next_commitLane_fifoRead hs n (by rw [sext8_ringValue])

/-- Settles O18, as O17, from `stepPcm16_cases`. -/
theorem pcm16Step : Obligations.Pcm16Step := by
  intro s n hs
  have row : exec (.genPcm16 n) s = .next (s.commitLane n (stepPcm16 s.mem (s.lane n))) := next_andThen_of_live hs _
  obtain ⟨early, done, play⟩ := stepPcm16_cases s.mem (s.lane n)
  dsimp only
  rw [row]
  refine ⟨fun hp => ?_, fun hp hend hrep => ?_, fun hp hgo => ?_⟩
  · rw [early hp]
    rfl
  · rw [done hp hend hrep]
    rfl
  · rw [play hp hgo]
    exact next_commitLane_fifoRead hs n (by rw [sext16_ringValue])

/-- Settles O19, branch by branch of `stepAdpcm_cases`, each read committed as `next_commitLane_fifoRead` says; the
nibble arithmetic is `adpcmDecode_eq` and `adpcmNextIndex_val`. -/
theorem adpcmStep : Obligations.AdpcmStep := by
  refine ⟨fun s n hs => ?_, fun l => ?_⟩
  · have row : exec (.genAdpcm n) s = .next (s.commitLane n (stepAdpcm s.mem (s.lane n))) := next_andThen_of_live hs _
    obtain ⟨early, header, done, loop, nibble⟩ := stepAdpcm_cases s.mem (s.lane n)
    dsimp only
    rw [row]
    refine ⟨fun hp h0 => ?_, fun h0 => ?_, fun hp ⟨hend, _⟩ hrep => ?_, fun hp ⟨hend, h0⟩ hrep => ?_,
      fun hp hgo hodd => ?_, fun hp hgo heven => ?_⟩
    · rw [early hp h0]
      rfl
    · rw [header h0]
      obtain ⟨i, hi, use⟩ := adpcmHeader_ringValue { s.lane n with pos := 0 }
        (fifoConsume s.mem { s.lane n with pos := 0 } 4).lane
      obtain ⟨read, abandoned⟩ := next_commitLane_fifoRead hs n use
      exact ⟨fun he => ⟨i, hi, read he⟩, abandoned⟩
    · rw [done hp hend hrep]
      rfl
    · rw [loop hp hend h0 hrep, adpcmLoop_eq]
      exact next_commitLane_fifoRead (l := (s.lane n).rewound) hs n (by rw [ofNat_ringValue_one]; rfl)
    · rw [nibble hp hgo, adpcmNibble, if_neg (by dsimp only; omega)]
      rfl
    · rw [nibble hp hgo, adpcmNibble, if_pos heven]
      exact next_commitLane_fifoRead hs n (by rw [ofNat_ringValue_one])
  · refine ⟨adpcmNextIndex l.aidx (l.abyte.extractLsb' 0 4), ?_, adpcmDecode_eq l⟩
    rw [adpcmNextIndex_val, toNat_lowNibble]

/-- Settles O22: a row commits its generator's step (`exec_genRow`), and the loop goes turn by turn (`laneLoop_succ`), with a
timer that falls at each turn. -/
theorem laneTimerLoop : Obligations.LaneTimerLoop := by
  refine ⟨fun s n g hs hg => ?_, fun m g => ⟨fun l f f' hf hf' => laneLoop_enough m g hf hf',
    fun l f h => laneLoop_below m g f l h, fun l f hw hf => ⟨genStep_reloaded_timer m g hw hf, laneLoop_succ m g f hw⟩,
    fun l => ⟨l.timer + 512, ?_, rfl⟩, fun l ht hlo hhi => laneAdvance_onePerTick m g ht hlo hhi⟩⟩
  · have row := exec_genRow hs n hg
    exact ⟨fun he => row.trans (congrArg _ (s.commitLane_ok n he)),
      fun a he => row.trans (congrArg _ (State.commitLane_error hs n he))⟩
  · show l.timer + 512 < Config.timerWrap + (l.timer + 512)
    rw [Config.timerWrap]
    omega

/-- Settles O23, from what the shift select and the volume field decode to. -/
theorem adjustedSample : Obligations.AdjustedSample := by
  intro l sh vol
  have value : l.adjust = l.cur * sh * vol := by
    rw [Lane.adjust, cntVolShift, two_pow_volShiftTable, cntVolume_eq]
    push_cast
    rfl
  refine ⟨value, fun hlo hhi => value ▸ adjusted_le hlo hhi ?_ ?_⟩
  · dsimp only [sh]
    split_ifs <;> decide
  · dsimp only [vol]
    split_ifs <;> omega

/-- Settles O20, from the rows' steps; the two branches of the noise step are those of bit 0. -/
theorem toneAndNoiseSteps : Obligations.ToneAndNoiseSteps := by
  intro s n d hs
  have noise : exec (.genNoise n) s = .next (s.setLane n (stepNoise (s.lane n))) := next_andThen_of_live hs _
  refine ⟨next_andThen_of_live hs _, fun h => ?_, fun h => ?_⟩
  · rw [noise, stepNoise, if_pos ((getLsbD_zero_iff _).2 h)]
    rfl
  · rw [noise, stepNoise, if_neg (by rw [getLsbD_zero_iff]; omega)]
    rfl

/-- Settles O21: format 3 on lanes 0 to 7 has no generator (`genOf_eq`), and a silent lane is `State.runLane_silent`. -/
theorem silentLanesDoNotAdvance : Obligations.SilentLanesDoNotAdvance := by
  intro s n hs
  refine ⟨next_andThen_of_live hs _, next_andThen_of_live hs _, fun h => State.runLane_silent (.inl h),
    fun hformat hn => State.runLane_silent (.inr ?_)⟩
  simp [genOf_eq, hformat, hn]

end Sys2Proof.Proofs
end

section
/-!
SUPPORT for spec/42_mixer.md. What panning, the accumulators, the output select and the final stage compute, and how one
lane, one capture unit and a whole mix go on or stop.
-/

namespace Sys2Proof.Machine

/-! ### Panning and the sums (R243) -/

/-- The panned value of a lane on the left, its shift written as the division it is. -/
theorem State.panned_left (s : State) (n : LaneIx) :
    s.panned .left n = s.laneValue n * (128 - (cntPan (s.lane n).cnt : Int)) / 1024 := rfl

theorem State.panned_right (s : State) (n : LaneIx) :
    s.panned .right n = s.laneValue n * (cntPan (s.lane n).cnt : Int) / 1024 := rfl

theorem State.bypassed_iff (s : State) (n : LaneIx) :
    s.bypassed n = true ↔ (n = 1 ∧ s.soundcnt.getLsbD 12 = true) ∨ (n = 3 ∧ s.soundcnt.getLsbD 13 = true) := by
  simp [State.bypassed, byp1, byp3]

/-- Leaving lanes out of the sum is adding 0 for them. -/
theorem State.accumulated_eq_sum (s : State) (side : Side) :
    s.accumulated side = ∑ n : LaneIx, if s.bypassed n = true then 0 else s.panned side n := by
  rw [Fin.sum_univ_def, List.sum_map_ite]
  simp [State.accumulated, allLanes]

/-! ### The output select (R244) -/

/-- OUTPUT_SELECT sets the side's output to the value its field names. -/
theorem State.outputSelect_eq (s : State) (side : Side) :
    s.outputSelect side = s.setOutput side ([s.accumulator side, s.panned side 1, s.panned side 3,
      s.panned side 1 + s.panned side 3].getD (outSelect s.soundcnt side).toNat 0) := by
  have field : (outSelect s.soundcnt side).toNat < 4 := (outSelect s.soundcnt side).isLt
  unfold State.outputSelect
  generalize (outSelect s.soundcnt side).toNat = k at field
  interval_cases k <;> rfl

/-! ### The final stage (R246) -/

/-- The decoded master volume, from the low seven bits. -/
theorem masterVol_eq (soundcnt : Half) :
    masterVol soundcnt = if soundcnt.toNat % 128 = 127 then 128 else soundcnt.toNat % 128 := by
  simp [masterVol, dec7, BitVec.extractLsb'_toNat]

/-- Two floor shifts one after the other are one by the sum (R11). -/
theorem asr_asr (x : Int) (j k : Nat) : asr (asr x j) k = asr x (j + k) := by
  rw [asr, asr, asr, Int.ediv_ediv_of_nonneg (by positivity), pow_add]

/-- FINAL with bias and degradation off (log 13). -/
theorem State.final_eq (s : State) (o : Int) :
    s.final o = clamp (asr (o * masterVol s.soundcnt) 15) (-0x8000) 0x7FFF :=
  congrArg (clamp · (-0x8000) 0x7FFF) (asr_asr (o * masterVol s.soundcnt) 7 8)

/-! ### Going on or stopping (R240, R400) -/

theorem State.andThen_eq_ite (s : State) (f : State → State) : s.andThen f = if s.fatal = none then f s else s := by
  unfold State.andThen
  cases s.fatal <;> rfl

/-- A lane that is keyed on and has a generator runs; MIN_PLAY_BYTES holds none back, being 0 (log 13). -/
theorem laneRuns_of_keyon {n : LaneIx} {l : Lane} (hon : keyon l.cnt = true) (hgen : genOf n l.cnt ≠ .none) :
    laneRuns n l = true := by
  simp [laneRuns, hon, hgen, Config.minPlayBytes]

section

variable {s : State} {n : LaneIx} (hs : s.fatal = none) (hrun : laneRuns n (s.lane n) = true)
include hs hrun

/-- A lane that runs commits its advance and then has its adjusted sample as value (R191, R241). -/
theorem State.runLane_ok (he : (laneAdvance s.mem (genOf n (s.lane n).cnt) (s.lane n)).err = none) :
    let r := laneAdvance s.mem (genOf n (s.lane n).cnt) (s.lane n)
    s.runLane n = (s.setLane n r.lane).setLaneValue n r.lane.adjust := by
  simp only [State.runLane, hrun, if_true]
  rw [State.commitLane_ok _ _ he, State.andThen_of_live (by simpa using hs)]

/-- A lane whose advance is abandoned raises BusError and gets no value (R403). -/
theorem State.runLane_error {a : Word}
    (he : (laneAdvance s.mem (genOf n (s.lane n).cnt) (s.lane n)).err = some a) :
    s.runLane n = { s.setLane n (laneAdvance s.mem (genOf n (s.lane n).cnt) (s.lane n)).lane with
      fatal := some (.busError a) } := by
  simp only [State.runLane, hrun, if_true]
  rw [State.commitLane_error hs n he, State.andThen_of_set rfl]

end

/-- A disabled capture unit does nothing (R275). -/
theorem State.feedCap_disabled {s : State} {u : CapIx} (h : capEnable (s.cap u).cnt = false) : s.feedCap u = s := by
  simp [State.feedCap, h]

/-- An enabled capture unit runs as the row its control byte selects (R245). -/
theorem State.exec_feedCap {s : State} (hs : s.fatal = none) {u : CapIx} (h : capEnable (s.cap u).cnt = true) :
    exec (if capFmt8 (s.cap u).cnt = true then .capPcm8 u (capOneshot (s.cap u).cnt)
      else .capPcm16 u (capOneshot (s.cap u).cnt)) s = .next (s.feedCap u) := by
  have feed : s.feedCap u = s.runCap u (capFmt8 (s.cap u).cnt) (capOneshot (s.cap u).cnt) := by
    simp [State.feedCap, h]
  rw [feed]
  cases capFmt8 (s.cap u).cnt
  · exact next_andThen_of_live hs _
  · exact next_andThen_of_live hs _

/-- The state in which the phases of a mix begin: its locals at 0 (R240). -/
def State.mixCleared (s : State) : State :=
  { s with mix := { s.mix with left := 0, right := 0, outl := 0, outr := 0 } }

theorem State.runMix_disabled {s : State} (h : masterEnable s.soundcnt = false) : s.runMix = s.mixCleared := by
  simp [State.runMix, State.mixCleared, h]

/-- With the mixer enabled, the first phase that raises is the last (R240, R400). -/
theorem State.runMix_enabled {s : State} (h : masterEnable s.soundcnt = true) :
    let lanes := s.mixCleared.runLanes allLanes
    let c0 := lanes.accumulate.feedCap 0
    let c1 := c0.feedCap 1
    s.runMix =
      if lanes.fatal = none then
        if c0.fatal = none then
          if c1.fatal = none then (c1.outputSelect .left).outputSelect .right else c1
        else c0
      else lanes := by
  intro lanes c0 c1
  have phases : s.runMix = lanes.andThen fun t => t.accumulate.captureFeed.andThen fun t =>
      (t.outputSelect .left).outputSelect .right := by
    simp [State.runMix, h, lanes, State.mixCleared]
  rw [phases, State.andThen_eq_ite, State.andThen_eq_ite, State.captureFeed, State.andThen_eq_ite]
  by_cases h0 : c0.fatal = none
  · rw [if_pos h0, if_pos h0]
  · rw [if_neg h0, if_neg h0, if_neg h0]

end Sys2Proof.Machine
end

section
/-!
PROOFS for spec/42_mixer.md: the accumulators, the output select, the phases of a mix and the final stage (R240 to R247).
-/

namespace Sys2Proof.Proofs

open Sys2Proof Sys2Proof.Machine

/-- Settles O24: each accumulator is a sum over all lanes (`State.accumulated_eq_sum`) of panned values. -/
theorem accumulateSumsThePannedLanes : Obligations.AccumulateSumsThePannedLanes := by
  intro s
  simp only [State.accumulate, State.accumulated_eq_sum, State.bypassed_iff, State.panned_left, State.panned_right]

/-- Settles O27: the two shifts of R246 are one (`State.final_eq`); the clamp gives the bounds
(`State.signed16_final`). -/
theorem finalStage : Obligations.FinalStage := by
  intro s o vol
  have volume : (masterVol s.soundcnt : Int) = vol := by
    rw [masterVol_eq]
    push_cast
    rfl
  refine ⟨?_, s.signed16_final o⟩
  rw [State.final_eq, volume, asr, clamp]
  omega

/-- Settles O25: each row sets its side's output, and the select is `State.outputSelect_eq`. -/
theorem outputRows : Obligations.OutputRows := by
  intro s hs
  exact ⟨next_andThen_of_live hs _, next_andThen_of_live hs _, next_andThen_of_live hs _, next_andThen_of_live hs _,
    next_andThen_of_live hs _, next_andThen_of_live hs _, next_andThen_of_live hs _, next_andThen_of_live hs _,
    s.outputSelect_eq .left, s.outputSelect_eq .right⟩

/-- Settles O26: a lane that runs is `State.runLane_ok` or `State.runLane_error`, a unit that is fed `State.exec_feedCap`;
the phases of an enabled mix, and where they stop, are `State.runMix_enabled`. -/
theorem mixRunsItsPhasesInOrder : Obligations.MixRunsItsPhasesInOrder := by
  intro s hs
  refine ⟨fun n hon hgen => ?_, rfl, fun n ns => State.andThen_eq_ite _ _, fun u h => State.exec_feedCap hs h,
    fun u h => State.feedCap_disabled h, ?_⟩
  · have hrun := laneRuns_of_keyon hon hgen
    exact ⟨State.runLane_ok hs hrun, fun a => State.runLane_error hs hrun⟩
  · intro z lanes c0 c1
    refine ⟨State.runMix_disabled, fun h => ?_⟩
    have mix := State.runMix_enabled h
    exact ⟨fun hl => mix.trans (if_neg hl), fun hl h0 => mix.trans ((if_pos hl).trans (if_neg h0)),
      fun hl h0 h1 => mix.trans ((if_pos hl).trans ((if_pos h0).trans (if_neg h1))),
      fun hl h0 h1 => mix.trans ((if_pos hl).trans ((if_pos h0).trans (if_pos h1)))⟩

end Sys2Proof.Proofs
end

section
/-!
SUPPORT for spec/43_capture.md. What one row commits, the turns of the capture loop, one captured sample, and where a
flush puts its bytes.
-/

namespace Sys2Proof.Machine

/-! ### The rows (R245, R271, R272) -/

/-- A capture row is CAP_RUN of its unit, in the row's format. -/
theorem exec_capRow {s : State} (hs : s.fatal = none) (u : CapIx) (fmt8 oneshot : Bool) :
    exec (if fmt8 = true then .capPcm8 u oneshot else .capPcm16 u oneshot) s = .next (s.runCap u fmt8 oneshot) := by
  cases fmt8
  · exact next_andThen_of_live hs _
  · exact next_andThen_of_live hs _

/-- The sample fed to a unit, its shift written as the division it is. -/
theorem State.captureSample_eq (s : State) (u : CapIx) :
    s.captureSample u = max (-0x8000) (min 0x7FFF ((if u = 0 then s.mix.left else s.mix.right) / 256)) := by
  rw [State.captureSample, clamp, asr, Config.capShift]
  omega

/-! ### The capture loop (R271, R272) -/

theorem CapOut.andThen_eq_ite (r : CapOut) (f : Capture → List Host.Cell → CapOut) :
    r.andThen f = if r.err = none then f r.cap r.mem else r := by
  unfold CapOut.andThen
  cases r.err <;> rfl

/-- The unit as a turn of the loop hands it to the sample store. -/
def Capture.reloaded (c : Capture) : Capture := { c with timer := c.tmr.toNat + (c.timer - Config.timerWrap) }

/-- A turn lowers the timer, so what fuel is left is enough for the rest. -/
theorem capStore_reloaded_timer (fmt8 oneshot : Bool) (sample : Int) {c : Capture} (m : List Host.Cell) {f : Nat}
    (hw : Config.timerWrap ≤ c.timer) (hf : c.timer < Config.timerWrap + (f + 1)) :
    (capStore fmt8 oneshot sample c.reloaded m).cap.timer < Config.timerWrap + f := by
  have htmr := c.tmr.isLt
  rw [(capStore_timer ..).1]
  simp only [Capture.reloaded, Config.timerWrap] at *
  omega

/-- A turn goes on unless the store was abandoned or cleared the enable. -/
theorem capLoop_succ (fmt8 oneshot : Bool) (sample : Int) (f : Nat) {c : Capture} (m : List Host.Cell)
    (hw : Config.timerWrap ≤ c.timer) :
    let r := capStore fmt8 oneshot sample c.reloaded m
    capLoop fmt8 oneshot sample (f + 1) c m =
      if r.err = none ∧ capEnable r.cap.cnt = true then capLoop fmt8 oneshot sample f r.cap r.mem else r := by
  intro r
  rw [capLoop_turn fmt8 oneshot sample f c m hw]
  show r.andThen _ = _
  rcases r with ⟨c', m', _ | a⟩ <;> simp [CapOut.andThen, CapOut.ok]

/-- Any two fuels that are enough answer the same (log 22). -/
theorem capLoop_enough (fmt8 oneshot : Bool) (sample : Int) {c : Capture} (m : List Host.Cell) {f f' : Nat}
    (hf : c.timer < Config.timerWrap + f) (hf' : c.timer < Config.timerWrap + f') :
    capLoop fmt8 oneshot sample f c m = capLoop fmt8 oneshot sample f' c m := by
  induction f generalizing c m f' with
  | zero => rw [capLoop_below _ _ _ _ _ _ hf, capLoop_below _ _ _ _ _ _ hf]
  | succ f ih =>
    rcases Nat.lt_or_ge c.timer Config.timerWrap with hlt | hw
    · rw [capLoop_below _ _ _ _ _ _ hlt, capLoop_below _ _ _ _ _ _ hlt]
    · obtain ⟨f', rfl⟩ : ∃ g, f' = g + 1 := ⟨f' - 1, by omega⟩
      rw [capLoop_succ _ _ _ _ _ hw, capLoop_succ _ _ _ _ _ hw,
        ih _ (capStore_reloaded_timer _ _ _ _ hw hf) (capStore_reloaded_timer _ _ _ _ hw hf')]

/-! ### One captured sample (R271, R272) -/

/-- The bytes of a sample as remainders, which R271 calls the two's complement encoding. -/
theorem sampleBytes_eq (fmt8 : Bool) (sample : Int) :
    sampleBytes fmt8 sample = if fmt8 = true then [BitVec.ofNat 8 (sample / 256 % 256).toNat]
      else [BitVec.ofNat 8 (sample % 256).toNat, BitVec.ofNat 8 (sample / 256 % 256).toNat] := by
  have byte : ∀ x : Int, (BitVec.ofInt 8 x : Byte) = BitVec.ofNat 8 (x % 256).toNat := fun x => by
    apply BitVec.eq_of_toNat_eq
    simp only [BitVec.toNat_ofInt, BitVec.toNat_ofNat]
    omega
  simp only [sampleBytes, asr, byte]
  rfl

/-- The unit with one sample more in its FIFO. -/
def Capture.sampled (fmt8 : Bool) (sample : Int) (c : Capture) : Capture :=
  { c with fifo := c.fifo ++ sampleBytes fmt8 sample, pos := c.pos + sampleWidth fmt8 }

/-- The end of the buffer, once the position has reached its length. -/
def endIfFull (oneshot : Bool) (c : Capture) (m : List Host.Cell) : CapOut :=
  if c.length ≤ c.pos then capEnd oneshot c m else .ok c m

/-- A sample is appended, four waiting samples are flushed, and the buffer ends if it is full. -/
theorem capStore_eq (fmt8 oneshot : Bool) (sample : Int) (c : Capture) (m : List Host.Cell) :
    let c1 := c.sampled fmt8 sample
    capStore fmt8 oneshot sample c m =
      if 4 * sampleWidth fmt8 ≤ c1.fifo.length then (capFlush c1 m).andThen (endIfFull oneshot)
      else endIfFull oneshot c1 m :=
  apply_ite (CapOut.andThen · (endIfFull oneshot)) ..

/-! ### Where a flush puts its bytes (R273) -/

/-- The offset of waiting byte `i`: round the buffer, an offset at or above its length being used once (log 23). -/
def Capture.offsetOf (c : Capture) (i : Nat) : Nat :=
  if c.woff < c.length then (c.woff + i) % c.length else if i = 0 then c.woff else (i - 1) % c.length

/-- The address of waiting byte `i`. -/
def Capture.placeOf (c : Capture) (i : Nat) : Word := c.dst + BitVec.ofNat 32 (c.offsetOf i)

/-- `m'` is `m` after the first `k` waiting bytes: of those that share a place the last stands there, and every other
byte is as before. -/
def Capture.wrote (c : Capture) (m : List Host.Cell) (k : Nat) (m' : List Host.Cell) : Prop :=
  Memory.wf m' ∧
  (∀ i b, i < k → c.fifo[i]? = some b → (∀ j < k, i < j → c.offsetOf j ≠ c.offsetOf i) →
    Memory.read m' (c.placeOf i).toNat = b) ∧
  ∀ a, (∀ i < k, (c.placeOf i).toNat ≠ a) → Memory.read m' a = Memory.read m a

theorem Capture.offsetOf_zero (c : Capture) : c.offsetOf 0 = c.woff := by
  unfold Capture.offsetOf
  split
  · rename_i h; exact Nat.mod_eq_of_lt h
  · exact if_pos rfl

/-- The offset after a byte is the one the flush loop goes on with. -/
theorem Capture.offsetOf_succ {c : Capture} (hl : 0 < c.length) (i : Nat) :
    c.offsetOf (i + 1) = if c.offsetOf i + 1 ≥ c.length then 0 else c.offsetOf i + 1 := by
  have next : ∀ k, (k + 1) % c.length = if k % c.length + 1 ≥ c.length then 0 else k % c.length + 1 := fun k => by
    have hlt := Nat.mod_lt k hl
    rw [← Nat.mod_add_mod k c.length 1]
    split_ifs with hend
    · rw [show k % c.length + 1 = c.length by omega, Nat.mod_self]
    · exact Nat.mod_eq_of_lt (by omega)
  unfold Capture.offsetOf
  by_cases h : c.woff < c.length
  · simp only [if_pos h]
    exact next (c.woff + i)
  · simp only [if_neg h]
    cases i with
    | zero => rw [if_neg (by omega), if_pos rfl, if_pos (by omega), Nat.zero_mod]
    | succ i => exact next i

/-- Flushing goes byte by byte: the second part goes on where the first ended, unless that was abandoned. -/
theorem flushBytes_append (bs bs' : List Byte) (c : Capture) (m : List Host.Cell) :
    flushBytes (bs ++ bs') c m = (flushBytes bs c m).andThen (flushBytes bs') := by
  induction bs generalizing c m with
  | nil => rfl
  | cons b bs ih =>
    rw [List.cons_append, flushBytes_cons, flushBytes_cons]
    split
    · exact ih _ _
    · rfl

section

variable {c : Capture} {m : List Host.Cell} (hm : Memory.wf m) (hc : c.registersInRange)
include hc

theorem Capture.offsetOf_lt (i : Nat) : c.offsetOf i < 2 ^ 32 := by
  obtain ⟨-, -, -, hpos, hlen, hoff⟩ := hc
  have hmod : ∀ k, k % c.length < c.length := fun k => Nat.mod_lt k (by omega)
  unfold Capture.offsetOf
  split_ifs
  · have := hmod (c.woff + i); omega
  · omega
  · have := hmod (i - 1); omega

/-- Bytes at different offsets have different places. -/
theorem Capture.placeOf_ne {i j : Nat} (h : c.offsetOf i ≠ c.offsetOf j) :
    (c.placeOf i).toNat ≠ (c.placeOf j).toNat := by
  rcases Nat.lt_or_gt_of_ne h with hlt | hgt
  · exact toNat_add_ofNat_ne c.dst hlt (Capture.offsetOf_lt hc j)
  · exact (toNat_add_ofNat_ne c.dst hgt (Capture.offsetOf_lt hc i)).symm

/-- Byte `k`, written at its place, takes the memory after `k` bytes to that after `k + 1`. -/
theorem Capture.wrote.succ {k : Nat} {m' : List Host.Cell} (h : c.wrote m k m') {b : Byte} (hb : c.fifo[k]? = some b) :
    c.wrote m (k + 1) (Memory.write m' (c.placeOf k).toNat b) := by
  obtain ⟨hwf, hread, hrest⟩ := h
  refine ⟨Memory.wf_write hwf _ _, fun i b' hi hb' hlast => ?_, fun a ha => ?_⟩
  · rcases Nat.lt_succ_iff_lt_or_eq.1 hi with hlt | rfl
    · have hne := hlast k k.lt_succ_self hlt
      rw [Memory.read_write_other _ _ (Capture.placeOf_ne hc hne.symm)]
      exact hread i b' hlt hb' fun j hj => hlast j (Nat.lt_succ_of_lt hj)
    · rw [Memory.read_write_self hwf]
      exact Option.some.inj (hb.symm.trans hb')
  · rw [Memory.read_write_other _ _ (ha k k.lt_succ_self).symm]
    exact hrest a fun i hi => ha i (Nat.lt_succ_of_lt hi)

include hm

/-- The first `k` bytes of a flush, all to mapped addresses. -/
theorem flushBytes_take {k : Nat} (hk : k ≤ c.fifo.length) (hmap : ∀ i < k, Config.mapped (c.placeOf i) = true) :
    ∃ m', flushBytes (c.fifo.take k) c m = ⟨{ c with woff := c.offsetOf k }, m', none⟩ ∧ c.wrote m k m' := by
  induction k with
  | zero =>
    refine ⟨m, ?_, hm, fun i b hi => absurd hi i.not_lt_zero, fun _ _ => rfl⟩
    rw [Capture.offsetOf_zero]
    rfl
  | succ k ih =>
    obtain ⟨m', hflush, hwrote⟩ := ih (by omega) fun i hi => hmap i (Nat.lt_succ_of_lt hi)
    have hpos : 0 < c.length := by omega
    refine ⟨_, ?_, hwrote.succ hc (List.getElem?_eq_getElem hk)⟩
    have place : c.dst + BitVec.ofNat 32 (c.offsetOf k) = c.placeOf k := rfl
    rw [← List.take_append_getElem hk, flushBytes_append, hflush, CapOut.andThen, flushBytes_cons]
    simp only [place, hmap k k.lt_succ_self, if_true, flushBytes, CapOut.ok, c.offsetOf_succ hpos]

/-- A flush to mapped addresses empties the FIFO. -/
theorem capFlush_mapped (hmap : ∀ i < c.fifo.length, Config.mapped (c.placeOf i) = true) :
    ∃ m', capFlush c m = ⟨{ c with fifo := [], woff := c.offsetOf c.fifo.length }, m', none⟩ ∧
      c.wrote m c.fifo.length m' := by
  obtain ⟨m', hflush, hwrote⟩ := flushBytes_take hm hc le_rfl hmap
  rw [List.take_length] at hflush
  refine ⟨m', ?_, hwrote⟩
  rw [capFlush, hflush]
  rfl

/-- A flush that meets its first unmapped address at byte `k` is abandoned there, with the bytes before it written
(R404). -/
theorem capFlush_abandoned {k : Nat} (hk : k < c.fifo.length) (hu : Config.mapped (c.placeOf k) = false)
    (hmap : ∀ i < k, Config.mapped (c.placeOf i) = true) :
    ∃ m', capFlush c m = ⟨{ c with woff := c.offsetOf k }, m', some (c.placeOf k)⟩ ∧ c.wrote m k m' := by
  obtain ⟨m', hflush, hwrote⟩ := flushBytes_take hm hc hk.le hmap
  refine ⟨m', ?_, hwrote⟩
  have place : c.dst + BitVec.ofNat 32 (c.offsetOf k) = c.placeOf k := rfl
  have cut : c.fifo = c.fifo.take k ++ c.fifo[k] :: c.fifo.drop (k + 1) := by
    rw [← List.drop_eq_getElem_cons hk, List.take_append_drop]
  have loop : flushBytes c.fifo c m = ⟨{ c with woff := c.offsetOf k }, m', some (c.placeOf k)⟩ := by
    refine (congrArg (flushBytes · c m) cut).trans ?_
    rw [flushBytes_append, hflush, CapOut.andThen, flushBytes_cons]
    simp only [place, hu, Bool.false_eq_true, if_false]
  rw [capFlush, loop]
  rfl

end

end Sys2Proof.Machine
end

section
/-!
PROOFS for spec/43_capture.md: the capture rows, the flush and the end of the buffer (R271 to R274).
-/

namespace Sys2Proof.Proofs

open Sys2Proof Sys2Proof.Machine

/-- Settles O30: a row commits its unit's run (`exec_capRow`), the loop goes turn by turn (`capLoop_succ`) with a timer
that falls at each turn, and a turn stores one sample (`capStore_eq`). -/
theorem captureRun : Obligations.CaptureRun := by
  refine ⟨fun s u fmt8 oneshot hs => ?_, fun fmt8 oneshot sample m => ⟨fun c => ⟨c.timer + 512, ?_, rfl⟩,
    fun c f f' hf hf' => capLoop_enough fmt8 oneshot sample m hf hf',
    fun c f h => capLoop_below fmt8 oneshot sample f c m h,
    fun c f hw hf => ⟨capStore_reloaded_timer fmt8 oneshot sample m hw hf,
      capLoop_succ fmt8 oneshot sample f m hw⟩⟩,
    fun fmt8 oneshot sample c m => ?_⟩
  · have row := exec_capRow hs u fmt8 oneshot
    rw [State.runCap, State.captureSample_eq] at row
    exact ⟨fun he => row.trans (congrArg _ (s.commitCap_ok u he)),
      fun a he => row.trans (congrArg _ (State.commitCap_error hs u he))⟩
  · show c.timer + 512 < Config.timerWrap + (c.timer + 512)
    rw [Config.timerWrap]
    omega
  · intro width low high c1 f store
    have sampled : c.sampled fmt8 sample = c1 := by rw [Capture.sampled, sampleBytes_eq]; rfl
    have turn := capStore_eq fmt8 oneshot sample c m
    rw [sampled] at turn
    have waiting (few : c1.fifo.length < 4 * width) : store = endIfFull oneshot c1 m :=
      turn.trans (if_neg (Nat.not_le.2 few))
    have flushed (four : 4 * width ≤ c1.fifo.length) : store = f.andThen (endIfFull oneshot) :=
      turn.trans (if_pos four)
    refine ⟨fun few inside => (waiting few).trans (if_neg (Nat.not_le.2 inside)),
      fun few full => (waiting few).trans (if_pos full), fun four stop => (flushed four).trans ?_,
      fun four he full => (flushed four).trans ?_⟩
    · rcases f.andThen_cases (endIfFull oneshot) with ⟨he, e⟩ | ⟨-, e⟩
      · rw [e, endIfFull, if_neg (Nat.not_le.2 (stop.resolve_left (· he))), CapOut.ok, ← he]
      · exact e
    · rw [CapOut.andThen_eq_ite, if_pos he]
      exact if_pos full

/-- Settles O31: `capFlush_mapped` and `capFlush_abandoned`; CAP_END goes on from a flush that was not abandoned. -/
theorem captureFlushAndEnd : Obligations.CaptureFlushAndEnd := by
  intro c m hm hc off addr wrote
  refine ⟨fun hmap => ?_, fun k hk hu hmap => ?_⟩
  · obtain ⟨m', hflush, hwrote⟩ := capFlush_mapped hm hc hmap
    exact ⟨m', hflush, hwrote, by rw [capEnd, hflush]; rfl, by rw [capEnd, hflush]; rfl⟩
  · obtain ⟨m', hflush, hwrote⟩ := capFlush_abandoned hm hc hk hu hmap
    exact ⟨m', hflush, hwrote, fun oneshot => by rw [capEnd, hflush]; rfl⟩

end Sys2Proof.Proofs
end

section
/-!
SUPPORT for spec/44_channel_manager.md. Which lane REQCH finds and what it does then, and which voices each operation
and each part of the voice engine leaves alone.
-/

namespace Sys2Proof.Machine

/-! ### REQCH (R293, R295) -/

/-- The place of a tier in the order of R293, from 1. -/
def Tier.number : Tier → Nat
  | .opened => 1
  | .silentFreeing => 2
  | .sameTrackDrum => 3
  | .anyFreeing => 4
  | .sameTrack => 5

theorem mem_tiers (t : Tier) : t ∈ tiers := by
  cases t <;> decide

theorem tiers_ascending : tiers.Pairwise fun t t' => t.number < t'.number := by
  decide

theorem Tier.number_mem (t : Tier) : t.number ∈ [1, 2, 3, 4, 5] := by
  cases t <;> decide

theorem Tier.exists_number {i : Nat} (h : i ∈ [1, 2, 3, 4, 5]) : ∃ t : Tier, t.number = i := by
  have named : [1, 2, 3, 4, 5] = tiers.map Tier.number := rfl
  obtain ⟨t, -, ht⟩ := List.mem_map.1 (named ▸ h)
  exact ⟨t, ht⟩

/-- The first lane of the first tier that holds of any lane of the list is the lane REQCH finds (R295). -/
theorem State.findLane_eq_some {s : State} {category : Category} {track : Nat} {t : Tier} {before after : List LaneIx}
    {n : LaneIx} (hpref : prefLanes category = before ++ n :: after)
    (holds : tierHolds category track t (s.voice n) = true)
    (tierFirst : ∀ t' : Tier, t'.number < t.number → ∀ k ∈ prefLanes category, ¬tierHolds category track t' (s.voice k))
    (laneFirst : ∀ k ∈ before, ¬tierHolds category track t (s.voice k)) :
    s.findLane category track = some n := by
  obtain ⟨earlier, later, cut⟩ := List.append_of_mem (mem_tiers t)
  have ascending := tiers_ascending
  rw [cut, List.pairwise_append] at ascending
  obtain ⟨-, -, below⟩ := ascending
  refine List.findSome?_eq_some_iff.2 ⟨earlier, t, later, cut, ?_, fun t' ht' => ?_⟩
  · exact List.find?_eq_some_iff_append.2 ⟨holds, before, after, hpref, by simpa using laneFirst⟩
  · exact List.find?_eq_none.2 (tierFirst t' (below t' ht' t (by simp)))

/-- When no tier holds of any lane of the list, REQCH finds none (R295). -/
theorem State.findLane_eq_none {s : State} {category : Category} {track : Nat}
    (h : ∀ t : Tier, ∀ k ∈ prefLanes category, ¬tierHolds category track t (s.voice k)) :
    s.findLane category track = none :=
  List.findSome?_eq_none_iff.2 fun t _ => List.find?_eq_none.2 (h t)

/-- REQCH withholds the lane it finds and returns it (R295). -/
theorem exec_reqch_some {s : State} (hs : s.fatal = none) {category : Category} {track : Nat} {n : LaneIx}
    (h : s.findLane category track = some n) :
    exec (.reqch category track) s = .next ((s.setVoice n .withheld).emit (.lane n)) := by
  have row : exec (.reqch category track) s =
      .next ((s.reqch category track).2.returning (s.reqch category track).1) := next_andThen_of_live hs _
  rw [row, State.reqch, h]
  rfl

/-- REQCH that finds no lane records NoLaneAvailable (R295, R407). -/
theorem exec_reqch_none {s : State} (hs : s.fatal = none) {category : Category} {track : Nat}
    (h : s.findLane category track = none) :
    exec (.reqch category track) s = .next { s with fatal := some (.noLaneAvailable category track) } := by
  have row : exec (.reqch category track) s =
      .next ((s.reqch category track).2.returning (s.reqch category track).1) := next_andThen_of_live hs _
  rw [row, State.reqch, h, State.raise_of_live hs]
  rfl

/-- No tier takes a Withheld voice (R293). -/
theorem tierHolds_not_withheld {category : Category} {track : Nat} {t : Tier} {x : Voice}
    (h : tierHolds category track t x = true) : x ≠ .withheld := by
  rintro rfl
  cases t <;> simp [tierHolds] at h

/-- REQCH finds no lane whose voice is Withheld already (R295). -/
theorem State.findLane_ne_withheld {s : State} {category : Category} {track : Nat} {k n : LaneIx}
    (h : s.findLane category track = some k) (hn : s.voice n = .withheld) : k ≠ n := by
  obtain ⟨-, t, -, ht⟩ := State.findLane_some h
  rintro rfl
  exact tierHolds_not_withheld ht hn

/-! ### The voices that an allocation leaves alone (R290) -/

@[simp] theorem State.voice_returning (s : State) (r : Option LaneIx) (n : LaneIx) :
    (s.returning r).voice n = s.voice n := by
  cases r <;> rfl

theorem State.voice_setVoice_other (s : State) {k n : LaneIx} (x : Voice) (h : k ≠ n) :
    (s.setVoice k x).voice n = s.voice n := by
  rw [State.voice_setVoice, if_neg h]

/-- A lane operand names at most the lane of that index (R322). -/
theorem laneOperand_some {i : Int} {k : LaneIx} (h : laneOperand i = some k) : i = (k.val : Int) := by
  unfold laneOperand at h
  split at h <;> cases h
  exact (Int.toNat_of_nonneg (by omega)).symm

/-- POPULATE reaches the voice of its lane only (R322). -/
theorem State.voice_populate_other (s : State) {i : Int} (ev : Event) (rt : ResolvedTimbre) {n : LaneIx}
    (h : i ≠ (n.val : Int)) : (s.populate i ev rt).voice n = s.voice n := by
  unfold State.populate
  split
  · exact State.voice_raise ..
  · rename_i k hk
    have other : k ≠ n := fun e => h (e ▸ laneOperand_some hk)
    split
    · split
      · exact State.voice_raise ..
      · exact (State.voice_programLane ..).trans (s.voice_setVoice_other _ other)
    all_goals exact State.voice_raise ..

theorem State.withheld_reqch {s : State} {n : LaneIx} (h : s.voice n = .withheld) (category : Category) (track : Nat) :
    (s.reqch category track).2.voice n = .withheld := by
  unfold State.reqch
  split
  · rename_i k hk
    exact (s.voice_setVoice_other _ (State.findLane_ne_withheld hk h)).trans h
  · exact (State.voice_raise ..).trans h

/-- TRIGGER populates the lane it has just found, which is none that was Withheld before (R320). -/
theorem State.withheld_trigger {s : State} {n : LaneIx} (h : s.voice n = .withheld) (ev : Event) :
    (s.trigger ev).2.voice n = .withheld := by
  have reserved := State.withheld_reqch h (Config.resolve ev).category ev.track
  unfold State.trigger State.triggerWith
  cases hk : s.findLane (Config.resolve ev).category ev.track with
  | none => simpa only [State.reqch, hk] using reserved
  | some k =>
    have other : (k.val : Int) ≠ (n.val : Int) := fun e =>
      State.findLane_ne_withheld hk h (Fin.ext (Int.ofNat.inj e))
    simp only [State.reqch, hk] at reserved ⊢
    exact (State.voice_populate_other _ _ _ other).trans reserved

/-! ### The voices that the engine leaves alone (R348) -/

@[simp] theorem State.voice_retrigger (s : State) (k : LaneIx) (rt : ResolvedTimbre) (pan : Nat)
    (segs : List (Nat × SampleSeg)) (n : LaneIx) : (s.retrigger k rt pan segs).voice n = s.voice n := by
  rw [State.voice, (s.retrigger_keeps k rt pan segs).1]
  rfl

section

variable (s : State) {k n : LaneIx} (h : k ≠ n)
include h

theorem State.voice_applyEnv_other (u : UsedVoice) (x : EnvValue) : (s.applyEnv k u x).voice n = s.voice n :=
  (State.voice_setVolume ..).trans (s.voice_setVoice_other _ h)

theorem State.voice_evalPitch_other (vt : Nat) : (s.evalPitch k vt).voice n = s.voice n := by
  refine s.onUsed_holds k (P := fun t => t.voice n = s.voice n) rfl fun u _ => ?_
  split
  · rfl
  · exact (State.voice_setVoice_other _ _ h).trans (State.voice_writeTmr ..)

theorem State.voice_evalSamples_other (vt : Nat) : (s.evalSamples k vt).voice n = s.voice n := by
  refine s.onUsed_holds k (P := fun t => t.voice n = s.voice n) rfl fun u _ => ?_
  exact Closed.andThen (P := fun t => t.voice n = s.voice n) (State.voice_retrigger ..) fun _ h' =>
    (State.voice_setVoice_other _ _ h).trans h'

theorem State.voice_evalVolume_other (vt : Nat) : (s.evalVolume k vt).voice n = s.voice n := by
  refine s.onUsed_holds k (P := fun t => t.voice n = s.voice n) rfl fun u _ => ?_
  split
  exacts [rfl, s.voice_applyEnv_other h _ _]

theorem State.voice_evalCompletion_other (vt : Nat) : (s.evalCompletion k vt).voice n = s.voice n := by
  refine s.onUsed_holds k (P := fun t => t.voice n = s.voice n) rfl fun u _ => ?_
  split
  · split
    · split
      · exact s.voice_applyEnv_other h _ _
      · exact (State.voice_setVolume ..).trans (s.voice_setVoice_other _ h)
    · exact (State.voice_setVoice_other _ _ h).trans (State.voice_setVolume ..)
  · rfl

theorem State.voice_evalUsed_other (vt : Nat) : (s.evalUsed k vt).voice n = s.voice n := by
  refine Closed.andThen (P := fun t => t.voice n = s.voice n)
    ((State.voice_evalSamples_other _ h vt).trans (s.voice_evalPitch_other h vt)) fun _ h' => ?_
  exact (State.voice_evalCompletion_other _ h vt).trans ((State.voice_evalVolume_other _ h vt).trans h')

theorem State.voice_evalFreeing_other (f : FreeingVoice) : (s.evalFreeing k f).voice n = s.voice n := by
  unfold State.evalFreeing
  dsimp only
  split
  · exact (State.voice_setVoice_other _ _ h).trans (State.voice_setVolume ..)
  · exact (State.voice_setVolume ..).trans (s.voice_setVoice_other _ h)

/-- The evaluation of one voice leaves every other voice alone (R348). -/
theorem State.voice_evalVoice_other : (s.evalVoice k).voice n = s.voice n := by
  unfold State.evalVoice
  split
  · split
    exacts [s.voice_evalUsed_other h _, rfl]
  · split
    exacts [s.voice_evalFreeing_other h _, rfl]
  all_goals rfl

end

/-- A Withheld voice is not evaluated (R348). -/
theorem State.evalVoice_withheld {s : State} {n : LaneIx} (h : s.voice n = .withheld) : s.evalVoice n = s := by
  simp only [State.evalVoice, h]

/-! ### A Withheld voice through the tick (R290, R380) -/

theorem State.withheld_evalVoices {s : State} {n : LaneIx} (h : s.voice n = .withheld) (ks : List LaneIx) :
    (s.evalVoices ks).voice n = .withheld := by
  induction ks generalizing s with
  | nil => exact h
  | cons k ks ih =>
    have first : (s.evalVoice k).voice n = .withheld := by
      by_cases e : k = n
      · rw [e, State.evalVoice_withheld h, h]
      · exact (s.voice_evalVoice_other e).trans h
    exact Closed.andThen (P := fun t => t.voice n = .withheld) first fun _ h => ih h

theorem State.withheld_dispatchFrom {s : State} {n : LaneIx} (h : s.voice n = .withheld) (events : List Event) :
    (s.dispatchFrom events).voice n = .withheld := by
  induction events generalizing s with
  | nil => exact h
  | cons ev rest ih =>
    unfold State.dispatchFrom
    split
    · have triggered := State.withheld_trigger (s := { s with events := rest }) h ev
      exact Closed.andThen (P := fun t => t.voice n = .withheld) triggered fun _ h => ih h
    · exact h

@[simp] theorem State.voice_runMix (s : State) (n : LaneIx) : s.runMix.voice n = s.voice n := by
  obtain ⟨-, -, voices, -⟩ := s.runMix_keeps
  rw [State.voice, voices]
  rfl

theorem State.withheld_outputTick {s : State} {n : LaneIx} (h : s.voice n = .withheld) :
    s.outputTick.voice n = .withheld := by
  unfold State.outputTick
  refine Closed.andThen (P := fun t => t.voice n = .withheld) (State.withheld_dispatchFrom h _) fun _ h => ?_
  refine Closed.andThen (P := fun t => t.voice n = .withheld) (State.withheld_evalVoices h _) fun _ h => ?_
  exact Closed.andThen (P := fun t => t.voice n = .withheld) ((State.voice_runMix ..).trans h) fun _ h => h

/-- RELEASE leaves a Withheld voice alone (R298). -/
theorem State.withheld_releaseTrack {s : State} {n : LaneIx} (h : s.voice n = .withheld) (track tick : Nat) :
    (s.releaseTrack track tick).voice n = .withheld := by
  rw [State.voice_releaseTrack, h]
  rfl

/-! ### The operations that leave the voice table alone -/

@[simp] theorem State.busWrite8_voices (s : State) (a : Word) (v : Byte) : (s.busWrite8 a v).voices = s.voices := by
  unfold State.busWrite8
  split <;> simp

@[simp] theorem State.busWrite16_voices (s : State) (a : Word) (v : Half) : (s.busWrite16 a v).voices = s.voices := by
  unfold State.busWrite16
  split <;> simp

@[simp] theorem State.busWrite32_voices (s : State) (a v : Word) : (s.busWrite32 a v).voices = s.voices := by
  unfold State.busWrite32
  split <;> simp

@[simp] theorem State.hostWrite_voices (s : State) (a : Word) (b : Byte) : (s.hostWrite a b).voices = s.voices := by
  unfold State.hostWrite
  split <;> simp

@[simp] theorem State.loadEvents_voices (s : State) (events : List Event) :
    (s.loadEvents events).voices = s.voices := by
  unfold State.loadEvents
  split <;> simp

/-- The operations of the voice table (R290, R298, R320, R322, R380, R430). -/
def changesVoices : Instr → Bool
  | .reset | .step | .trigger .. | .reqch .. | .populate .. | .release .. => true
  | _ => false

/-- No operation but RESET, STEP and the four of the voices changes the voice table. -/
theorem exec_voices {i : Instr} {s t : State} (hi : changesVoices i = false) (he : exec i s = .next t) :
    t.voices = s.voices := by
  have go : ∀ f : State → State, (f s).voices = s.voices → (Host.Outcome.next (s.andThen f) : Result) = .next t →
      t.voices = s.voices := fun f hf => next_andThen_holds (P := fun t => t.voices = s.voices) rfl hf
  cases i with
  | reset | step | trigger | reqch | populate | release => cases hi
  | memw a b => exact go _ (State.hostWrite_voices ..) he
  | loadEvents events => exact go _ (State.loadEvents_voices ..) he
  | wr8 a v => exact go _ (State.busWrite8_voices ..) he
  | wr16 a v => exact go _ (State.busWrite16_voices ..) he
  | wr32 a v => exact go _ (State.busWrite32_voices ..) he
  | chCnt n v => exact go _ (State.writeCnt_voices ..) he
  | chTmr n v => exact go _ (State.writeTmr_voices ..) he
  | genPcm8 n | genPcm16 n | genAdpcm n | genPsg n d | genNoise n => exact go _ (State.commitLane_voices ..) he
  | capPcm8 u oneshot => exact go (fun s => s.runCap u true oneshot) (State.commitCap_voices ..) he
  | capPcm16 u oneshot => exact go (fun s => s.runCap u false oneshot) (State.commitCap_voices ..) he
  | outMixer side | outCh1 side | outCh3 side | outCh1Ch3 side => exact go _ (State.setOutput_voices ..) he
  | chSad | chPnt | chLen | soundcnt | soundbias | sndcap0cnt | sndcap1cnt | sndcap0dad | sndcap1dad | sndcap0len
  | sndcap1len | genNone | genOff => exact go _ rfl he

end Sys2Proof.Machine
end

section
/-!
PROOFS for spec/44_channel_manager.md: allocation (R290, R293, R295) and release (R298).
-/

namespace Sys2Proof.Proofs

open Sys2Proof Sys2Proof.Machine

/-- Settles O33: the statement's numbered tiers are the model's (`Tier.number`), and the search over them ends at the
first tier and lane (`State.findLane_eq_some`) or at none (`State.findLane_eq_none`). -/
theorem reqchFindsTheFirstLane : Obligations.ReqchFindsTheFirstLane := by
  intro s category track hs pref tier
  have lanes : prefLanes category = pref := by cases category <;> rfl
  have tier_iff : ∀ (t : Tier) (x : Voice), tier t.number x ↔ tierHolds category track t x = true := by
    intro t x
    cases t with
    | opened | anyFreeing | sameTrack => cases x <;> simp [tier, Tier.number, tierHolds]
    | silentFreeing => cases x <;> simp [tier, Tier.number, tierHolds, realLe_iff, Config.freeSilent]
    | sameTrackDrum => cases x <;> simp [tier, Tier.number, tierHolds, and_assoc]
  refine ⟨fun i hi before n after cut holds tierFirst laneFirst => ?_, fun noTier => ?_⟩
  · obtain ⟨t, rfl⟩ := Tier.exists_number hi
    refine exec_reqch_some hs (State.findLane_eq_some (lanes.trans cut) ((tier_iff t _).1 holds) ?_ ?_)
    · exact fun t' ht' k hk => mt (tier_iff t' _).2 (tierFirst _ ht' k (lanes ▸ hk))
    · exact fun k hk => mt (tier_iff t _).2 (laneFirst k hk)
  · exact exec_reqch_none hs (State.findLane_eq_none fun t k hk =>
      mt (tier_iff t _).2 (noTier _ t.number_mem k (lanes ▸ hk)))

/-- Settles O35: of the operations that change the voice table, TRIGGER and REQCH take no Withheld lane
(`State.findLane_ne_withheld`), RELEASE and the engine pass a Withheld voice by, and POPULATE reaches its own lane only. -/
theorem withheldLeavesOnlyByPopulate : Obligations.WithheldLeavesOnlyByPopulate := by
  intro i s t n he h
  have go : ∀ f : State → State, (f s).voice n = .withheld → (Host.Outcome.next (s.andThen f) : Result) = .next t →
      t.voice n = .withheld := fun f hf => next_andThen_holds (P := fun t => t.voice n = .withheld) h hf
  cases i with
  | reset => exact .inr (.inl rfl)
  | step => exact .inl (go _ (State.withheld_outputTick h) he)
  | trigger ev => exact .inl (go _ ((State.voice_returning ..).trans (State.withheld_trigger h ev)) he)
  | reqch category track =>
    exact .inl (go _ ((State.voice_returning ..).trans (State.withheld_reqch h category track)) he)
  | populate i ev rt =>
    by_cases own : i = (n.val : Int)
    · exact .inr (.inr ⟨ev, rt, own ▸ rfl⟩)
    · exact .inl (go _ ((s.voice_populate_other ev rt own).trans h) he)
  | release track tick => exact .inl (go _ (State.withheld_releaseTrack h track tick) he)
  | _ => exact .inl ((congrArg (·[n]) (exec_voices rfl he)).trans h)

/-- Settles O34: RELEASE maps the voice table (`State.voice_releaseTrack`). -/
theorem releaseFreesTheTrack : Obligations.ReleaseFreesTheTrack := by
  intro s track tick hs
  refine ⟨s.releaseTrack track tick, next_andThen_of_live hs _, rfl, fun n => ?_⟩
  rw [State.voice_releaseTrack]
  cases s.voice n <;> rfl

end Sys2Proof.Proofs
end

section
/-!
SUPPORT for spec/45_envelope_engine.md (R331 to R340). What the envelope and pitch formulas denote over the reals, for any
EXP, LN and POW2 with the properties of R12, and what VOLQ and ENV_EVAL answer, branch by branch.
-/

namespace Sys2Proof

/-! ### EXP, LN and POW2 (R12) -/

theorem RealInterp.strictMono_exp (I : RealInterp) : StrictMono I.exp := fun x y h => I.exp_strictMono x y h

/-- LN is not positive up to 1: EXP(LN(y)) = y is at most 1 = EXP(0). -/
theorem RealInterp.ln_nonpos (I : RealInterp) {y : ℝ} (hy : 0 < y) (h1 : y ≤ 1) : I.ln y ≤ 0 := by
  rwa [← I.strictMono_exp.le_iff_le, I.exp_ln y hy, I.exp_zero]

/-- PITCH_TIMER cancels in the formula path, whatever POW2 and PITCH_TIMER are (R340). -/
theorem RealInterp.val_pitchReal (I : RealInterp) (b : Half) (o : RealNum) (h : I.pow2 (I.val o / 12) ≠ 0) :
    I.val (Machine.pitchReal b o) = 0x10000 - (0x10000 - (b.toNat : ℝ)) / I.pow2 (I.val o / 12) := by
  have below : (b.toNat : ℝ) < 0x10000 := by exact_mod_cast b.isLt
  have distance : (0x10000 : ℝ) - b.toNat ≠ 0 := (sub_pos.2 below).ne'
  have timer := I.pitchTimer_pos.ne'
  simp only [Machine.pitchReal, Config.maxReload, Config.pitchTimer, Config.realNat, RealInterp.val]
  push_cast
  rw [if_neg distance, if_neg (by norm_num : (12 : ℝ) ≠ 0), if_neg (mul_ne_zero h (div_ne_zero timer distance))]
  field_simp

namespace Machine

open Config (realInterp realLe)

/-! ### ENV_VALIDATE (R331) -/

/-- An exponential release has no constant without a positive sustain level, a positive floor and a duration. -/
theorem exponentialUndefined_iff (e : Envelope) :
    exponentialUndefined e = true ↔
      ∃ duration floor,
        (e.release = some (.exponential duration floor) ∨ e.release = some (.exponentialUntil duration floor)) ∧
        ((∀ sus, e.sustain = some sus → sus.volume.val ≤ 0) ∨ floor.val ≤ 0 ∨ duration = 0) := by
  obtain ⟨attack, decay, sustain, release⟩ := e
  rcases release with _ | (_ | _ | _ | ⟨d, f⟩ | ⟨d, f⟩ | _ | _) <;>
    cases sustain <;> simp [exponentialUndefined, realLe_iff, or_assoc]

/-- The envelopes that are refused (R331), whichever condition is recorded (log 18). -/
theorem envDefect_ne_none_iff (e : Envelope) :
    envDefect e ≠ none ↔
      e.attack = some (.exactPoints []) ∨ ((∃ d, e.decay = some (.linear d)) ∧ e.sustain = none) ∨
        exponentialUndefined e = true := by
  rcases hd : e.decay with _ | (_ | _)
  all_goals
    simp only [envDefect, hd]
    split_ifs <;> simp_all

/-! ### The breakpoints and phase values (R332 to R334) -/

@[simp] theorem envFull_val : Config.envFull.val = 127 := by simp [Config.envFull]

section

variable {e : Envelope}

theorem shape_attack_none (h : e.attack = none) : (shape e).ta = 0 ∧ (shape e).peak = Config.envFull := by
  simp [shape, attackShape, h]

theorem shape_attack_linear {v : RealNum} {d : Nat} (h : e.attack = some (.linear v d)) :
    (shape e).ta = d ∧ (shape e).peak = v := by
  simp [shape, attackShape, h]

/-- The last point ends an Exact attack and is its peak. -/
theorem shape_attack_exactPoints {before : List (Nat × RealNum)} {p : Nat × RealNum}
    (h : e.attack = some (.exactPoints (before ++ [p]))) : (shape e).ta = p.1 ∧ (shape e).peak = p.2 := by
  simp [shape, attackShape, h]

theorem shape_decay {d : Option Decay} (h : e.decay = d) : (shape e).td = decayTime d := congrArg decayTime h

theorem shape_sustain_some {x : Sustain} (h : e.sustain = some x) :
    (shape e).sus = x.volume ∧ (shape e).ts = x.duration := by
  simp [shape, sustainShape, h]

theorem shape_sustain_none (h : e.sustain = none) : (shape e).ts = .ticks 0 := by
  rcases hd : e.decay with _ | (_ | _) <;> simp [shape, sustainShape, h, hd]

/-- Without a sustain phase the sustain level is where an exponential decay comes to (R332). -/
theorem shape_sus_val_exponential {c : RealNum} {d : Nat} (hs : e.sustain = none)
    (hd : e.decay = some (.exponential c d)) :
    (shape e).sus.val = (shape e).peak.val * realInterp.exp (c.val * d) := by
  simp [shape, sustainShape, hs, hd]

/-- Without a sustain phase and without an exponential decay the sustain level is the peak (R332). -/
theorem shape_sus_eq_peak (hs : e.sustain = none) (hd : ∀ c d, e.decay ≠ some (.exponential c d)) :
    (shape e).sus = (shape e).peak := by
  rcases h : e.decay with _ | (_ | ⟨c, d⟩)
  · simp [shape, sustainShape, hs, h]
  · simp [shape, sustainShape, hs, h]
  · exact absurd h (hd c d)

end

theorem attackValue_linear_val (v : RealNum) {d : Nat} (hd : 0 < d) (t : Nat) :
    (attackValue (some (.linear v d)) t).val = v.val * t / d := by
  simp [attackValue, hd.ne']

/-- Before its first point an Exact attack is silent. -/
theorem attackValue_exactPoints_before {points : List (Nat × RealNum)} {t : Nat} (h : ∀ q ∈ points, t < q.1) :
    (attackValue (some (.exactPoints points)) t).val = 0 := by
  have none_due : points.filter (fun q => q.1 ≤ t) = [] := by simpa using h
  simp [attackValue, none_due]

/-- From a point on, until the next, an Exact attack has that point's volume. -/
theorem attackValue_exactPoints_at {before after : List (Nat × RealNum)} {p : Nat × RealNum} {t : Nat} (hp : p.1 ≤ t)
    (h : ∀ q ∈ after, t < q.1) : attackValue (some (.exactPoints (before ++ p :: after))) t = p.2 := by
  have none_due : after.filter (fun q => q.1 ≤ t) = [] := by simpa using h
  simp [attackValue, hp, none_due]

theorem decayValue_linear_val (peak sus : RealNum) {d : Nat} (hd : 0 < d) (u : Nat) :
    (decayValue (some (.linear d)) peak sus u).val = peak.val + (sus.val - peak.val) * u / d := by
  simp [decayValue, hd.ne']

theorem decayValue_exponential_val (c : RealNum) (d : Nat) (peak sus : RealNum) (u : Nat) :
    (decayValue (some (.exponential c d)) peak sus u).val = peak.val * realInterp.exp (c.val * u) := by
  simp [decayValue]

/-! ### RELEASE_CURVE (R336) -/

@[simp] theorem decayed_val (v0 c : RealNum) (t : Nat) : (decayed v0 c t).val = v0.val * realInterp.exp (c.val * t) := by
  simp [decayed]

theorem releaseConstant_val {d : Nat} (hd : 0 < d) (f : RealNum) {sus : RealNum} (hs : 0 < sus.val) :
    (releaseConstant d f sus).val = realInterp.ln (f.val / sus.val) / d := by
  simp [releaseConstant, hd.ne', hs.ne']

/-- After its duration the factor of an exponential release is the floor's share of the sustain level. -/
theorem exp_releaseConstant_mul {d : Nat} (hd : 0 < d) {f sus : RealNum} (hf : 0 < f.val) (hs : 0 < sus.val) :
    realInterp.exp ((releaseConstant d f sus).val * d) = f.val / sus.val := by
  rw [releaseConstant_val hd f hs, div_mul_cancel₀ _ (Nat.cast_ne_zero.2 hd.ne'), realInterp.exp_ln _ (div_pos hf hs)]

/-- The constant of an exponential release to a floor not above the sustain level is not positive (R349). -/
theorem releaseConstant_nonpos {d : Nat} (hd : 0 < d) {f sus : RealNum} (hf : 0 < f.val) (hle : f.val ≤ sus.val) :
    (releaseConstant d f sus).val ≤ 0 := by
  have hs : 0 < sus.val := hf.trans_le hle
  rw [releaseConstant_val hd f hs]
  exact div_nonpos_of_nonpos_of_nonneg (realInterp.ln_nonpos (div_pos hf hs) ((div_le_one hs).2 hle)) d.cast_nonneg

/-- What decays with a constant that is not positive does not rise (R349). -/
theorem decayed_antitone {v0 c : RealNum} (hv : 0 ≤ v0.val) (hc : c.val ≤ 0) {t t' : Nat} (h : t ≤ t') :
    (decayed v0 c t').val ≤ (decayed v0 c t).val := by
  rw [decayed_val, decayed_val]
  exact mul_le_mul_of_nonneg_left
    (realInterp.strictMono_exp.monotone (mul_le_mul_of_nonpos_left (Nat.cast_le.2 h) hc)) hv

/-- What is multiplied by a ratio below 1 at each interval does not rise (R349). -/
theorem geometric_antitone {v0 r : RealNum} (hv : 0 ≤ v0.val) (hr : 0 < r.val ∧ r.val < 1) {t t' : Nat} (h : t ≤ t') :
    (RealNum.mul v0 (.pow r t')).val ≤ (RealNum.mul v0 (.pow r t)).val :=
  mul_le_mul_of_nonneg_left (pow_le_pow_of_le_one hr.1.le hr.2.le h) hv

/-! ### ENV_EVAL (R337) -/

theorem envEval_attack {e : Envelope} {tau : Nat} (h : tau < (shape e).ta) :
    envEval e tau = ⟨attackValue e.attack tau, .attack, false⟩ := by
  simp only [envEval, h, if_true]

theorem envEval_decay {e : Envelope} {tau : Nat} (ha : (shape e).ta ≤ tau) (hd : tau < (shape e).ta + (shape e).td) :
    envEval e tau = ⟨decayValue e.decay (shape e).peak (shape e).sus (tau - (shape e).ta), .decay, false⟩ := by
  simp only [envEval, ha.not_gt, hd, if_true, if_false]

theorem envEval_sustain {e : Envelope} {tau : Nat} (hd : (shape e).ta + (shape e).td ≤ tau)
    (hs : (shape e).ts = .inf ∨ ∃ ts, (shape e).ts = .ticks ts ∧ tau < (shape e).ta + (shape e).td + ts) :
    envEval e tau = ⟨(shape e).sus, .sustain, false⟩ := by
  have ha : ¬tau < (shape e).ta := by omega
  rcases hs with inf | ⟨ts, ticks, hts⟩
  · simp only [envEval, ha, hd.not_gt, if_false, inf]
  · simp only [envEval, ha, hd.not_gt, if_false, ticks, hts, if_true]

theorem envEval_release {e : Envelope} {tau ts : Nat} (hts : (shape e).ts = .ticks ts)
    (hr : (shape e).ta + (shape e).td + ts ≤ tau) :
    envEval e tau = envRelease e (shape e).sus (tau - ((shape e).ta + (shape e).td + ts)) := by
  have ha : ¬tau < (shape e).ta := by omega
  have hd : ¬tau < (shape e).ta + (shape e).td := by omega
  simp only [envEval, ha, hd, if_false, hts, hr.not_gt]

/-- A release is done when it is forced or at most 1.5 (R337). -/
theorem envRelease_done (e : Envelope) (sus : RealNum) (t : Nat) :
    (envRelease e sus t).done = true ↔
      (releaseCurve e.release sus sus t).2 = true ∨ (releaseCurve e.release sus sus t).1.val ≤ 3 / 2 := by
  simp [envRelease, realLe_iff, Config.relDoneThreshold]

/-! ### VOLQ (R338) -/

/-- VOLQ halves the natural floor, which is 0 for what is not positive. -/
theorem volq_eq (v : RealNum) : volq v = BitVec.ofNat 7 (downShift ⌊v.val⌋₊ ⌊v.val⌋₊) := by
  have floor : (if realLe v (.rat 0) then 0 else (Config.realFloor v).toNat) = ⌊v.val⌋₊ := by
    rw [realFloor_eq, Int.floor_toNat]
    split_ifs with h
    · exact (Nat.floor_of_nonpos (by simpa [realLe_iff] using h)).symm
    · rfl
  simp only [volq, floor]

/-- Below 128 nothing is halved. -/
theorem toNat_volq_of_lt {v : RealNum} (h : v.val < 128) : (volq v).toNat = ⌊v.val⌋₊ := by
  have small : ⌊v.val⌋₊ < 128 := Nat.floor_lt' (by norm_num) |>.2 (by exact_mod_cast h)
  rw [volq_eq, downShift_small _ _ (by omega), BitVec.toNat_ofNat, Nat.mod_eq_of_lt small]

/-- From 128 on the first halving is that of the volume. -/
theorem volq_half {v w : RealNum} (h : 128 ≤ v.val) (hw : w.val = v.val / 2) : volq v = volq w := by
  have large : 128 ≤ ⌊v.val⌋₊ := Nat.le_floor (by exact_mod_cast h)
  have halved : ⌊w.val⌋₊ = ⌊v.val⌋₊ / 2 := by rw [hw, Nat.floor_div_ofNat]
  have turn : downShift ⌊v.val⌋₊ ⌊v.val⌋₊ = downShift (⌊v.val⌋₊ - 1) (⌊v.val⌋₊ / 2) := by
    obtain ⟨k, hk⟩ : ∃ k, ⌊v.val⌋₊ = k + 1 := ⟨⌊v.val⌋₊ - 1, by omega⟩
    rw [hk, downShift, if_pos (by omega), Nat.add_sub_cancel]
  rw [volq_eq, volq_eq, turn, halved, downShift_fuel (⌊v.val⌋₊ - 1) (⌊v.val⌋₊ / 2) _ (by omega) le_rfl]

/-! ### PITCH (R340) -/

/-- The reload of the formula path is its value rounded and held in 16 bits. -/
theorem toNat_pitchReload_formula (b : Half) (o : RealNum) :
    ((pitchReload (.formula b o)).toNat : Int) = max 0 (min 0xFFFF (Config.pitchRound (pitchReal b o))) := by
  simp only [pitchReload, clamp, BitVec.toNat_ofInt]
  omega

/-- An offset of 0 gives the base reload: POW2(0) = 1 (R340). -/
theorem pitchReload_offset_zero (b : Half) {o : RealNum} (ho : o.val = 0) : pitchReload (.formula b o) = b := by
  have unit : realInterp.pow2 (o.val / 12) = 1 := by rw [ho, zero_div, realInterp.pow2_zero]
  have value : (pitchReal b o).val = (b.toNat : ℝ) := by
    have h := realInterp.val_pitchReal b o (by rw [← RealNum.val, unit]; exact one_ne_zero)
    rw [← RealNum.val, ← RealNum.val, unit] at h
    rw [h]
    ring
  have h := toNat_pitchReload_formula b o
  rw [Proofs.pitchRound_eq, value, if_pos b.toNat.cast_nonneg, Int.floor_natCast] at h
  apply BitVec.eq_of_toNat_eq
  omega

end Machine
end Sys2Proof
end

section
/-!
SUPPORT for spec/45_envelope_engine.md (R320 to R323, R339 to R348). The moves that programming a lane and evaluating a voice
are made of, and what each part of an evaluation does, branch by branch.
-/

namespace Sys2Proof.Machine

/-! ### A lane written twice -/

@[simp] theorem State.setLane_setLane (s : State) (n : LaneIx) (l l' : Lane) :
    (s.setLane n l).setLane n l' = s.setLane n l' := by
  simp [State.setLane]

@[simp] theorem State.commitLane_setLane (s : State) (n : LaneIx) (l : Lane) (r : LaneOut) :
    (s.setLane n l).commitLane n r = s.commitLane n r := by
  simp only [State.commitLane, State.setLane_setLane]

/-! ### The volume field (R339) -/

/-- The bits of a control word above the volume field. -/
theorem and_volumeMask (cnt : Word) : cnt &&& 0xFFFFFF80#32 = cnt >>> 7 <<< 7 := by
  ext i hi
  have mask : (0xFFFFFF80#32)[i] = decide (7 ≤ i) := by revert i; decide
  rw [BitVec.getElem_and, mask]
  by_cases h : 7 ≤ i
  · simp [h, BitVec.getLsbD_eq_getElem hi]
  · simp [h, show i < 7 by omega]

/-- Below bit 7 the word is the volume, above it what it was. -/
theorem toNat_withVolumeField (cnt : Word) (q : BitVec 7) :
    (withVolumeField cnt q).toNat = cnt.toNat / 128 * 128 + q.toNat := by
  have field : q.toNat < 2 ^ 7 := q.isLt
  have high : (cnt >>> 7 <<< 7).toNat = (cnt.toNat / 128) <<< 7 := by
    have word := cnt.isLt
    rw [BitVec.toNat_shiftLeft, BitVec.toNat_ushiftRight, Nat.shiftLeft_eq, Nat.shiftRight_eq_div_pow]
    omega
  calc (withVolumeField cnt q).toNat = (cnt.toNat / 128) <<< 7 ||| q.toNat := by
        rw [← high, ← and_volumeMask, ← BitVec.toNat_setWidth_of_le (b := q) (show 7 ≤ 32 by decide)]
        rfl
    _ = cnt.toNat / 128 * 128 + q.toNat := by
        rw [← Nat.shiftLeft_add_eq_or_of_lt field, Nat.shiftLeft_eq]
/-- SET_VOLUME and a new voice touch separate components, so their order does not matter (R339). -/
theorem State.setVolume_setVoice (s : State) (n : LaneIx) (x : Voice) (q : BitVec 7) :
    (s.setVoice n x).setVolume n q = (s.setVolume n q).setVoice n x := by
  rw [State.setVolume_eq, State.setVolume_eq]
  rfl

/-! ### PROGRAM_LANE (R323) -/

/-- The register writes of PROGRAM_LANE touch the lane alone, unless they write the reload that lane 1 or 3 shares with a
capture unit (R120). -/
theorem State.programRegs_eq (s : State) (n : LaneIx) (src : Word) (lw : Half) (len : BitVec 21) {r : Option Half}
    (h : r = none ∨ n ≠ 1 ∧ n ≠ 3) :
    s.programRegs n src lw len r = s.setLane n ((s.programRegs n src lw len r).lane n) := by
  unfold State.programRegs
  rw [State.writeCnt_zero]
  rcases h with rfl | ⟨h1, h3⟩
  · simp [State.writeSad, State.writePnt, State.writeLen]
  · cases r <;> simp [State.writeSad, State.writePnt, State.writeLen, State.writeTmr, h1, h3]

/-- PROGRAM_LANE writes the registers and commits what START(n) answers on them, under the condition of
`State.programRegs_eq`. -/
theorem State.programLane_eq_commit (s : State) (n : LaneIx) (rt : ResolvedTimbre) (pan : Nat) (src : Word) (lw : Half)
    (len : BitVec 21) (q : BitVec 7) {r : Option Half} (h : r = none ∨ n ≠ 1 ∧ n ≠ 3) :
    s.programLane n rt pan src lw len q r = s.commitLane n (laneStart s.mem { s.lane n with
      cnt := packCnt true rt.format rt.duty (if rt.repeating then 1 else 2) pan rt.shiftSel q,
      tmr := r.getD (s.lane n).tmr, src := src &&& 0x07FFFFFC, loopPos := 4 * lw.toNat, length := 4 * len.toNat }) := by
  have words : lengthBytes (len.setWidth 32) = 4 * len.toNat := by
    rw [lengthBytes_eq, BitVec.toNat_setWidth]
    omega
  rw [State.programLane_eq, State.programRegs_eq s n src lw len h, State.commitLane_setLane, State.lane_setLane,
    if_pos rfl, State.lane_programRegs, loopBytes_eq, words]
  rfl

/-! ### POPULATE and TRIGGER (R320, R322) -/

/-- The pan is held in 0..128, around the centre at 64 (R322). -/
theorem panOf_eq (offset : Int) : panOf offset = (max 0 (min 128 (64 + offset))).toNat := by
  simp only [panOf, clamp, Config.panCentre]
  omega

/-- An index in 0..15 names its lane. -/
@[simp] theorem laneOperand_val (k : LaneIx) : laneOperand (k.val : Int) = some k := by
  unfold laneOperand
  rw [dif_pos (by omega)]
  rfl

/-- A timbre without a defective envelope has no defect. -/
theorem timbreDefect_none {rt : ResolvedTimbre} (h : envDefect rt.env = none)
    (hq : ∀ p ∈ rt.queue, envDefect p.2 = none) : timbreDefect rt = none := by
  refine List.findSome?_eq_none_iff.2 fun e he => ?_
  rcases List.mem_cons.1 he with rfl | he
  · exact h
  · obtain ⟨p, hp, rfl⟩ := List.mem_map.1 he
    exact hq p hp

theorem State.populate_withheld {s : State} {k : LaneIx} (ev : Event) {rt : ResolvedTimbre}
    (hv : s.voice k = .withheld) (hd : timbreDefect rt = none) : s.populate (k.val : Int) ev rt = s.fillVoice k ev rt := by
  simp only [State.populate, laneOperand_val, hv, hd]

/-- With Blocked voices on lanes 1 and 3, a Withheld lane shares no reload. -/
theorem State.withheld_unshared {s : State} {k : LaneIx} (hb : s.blockedExactly) (hv : s.voice k = .withheld) :
    k ≠ 1 ∧ k ≠ 3 := by
  have free : k ∉ Config.blockedLanes := fun h => by simpa [hv] using (hb k).2 h
  simpa [Config.blockedLanes] using free

theorem State.trigger_none {s : State} {ev : Event}
    (h : s.findLane (Config.resolve ev).category ev.track = none) :
    s.trigger ev = (none, s.raise (.noLaneAvailable (Config.resolve ev).category ev.track)) := by
  simp only [State.trigger, State.triggerWith, State.reqch, h]

theorem State.trigger_some {s : State} {ev : Event} {n : LaneIx}
    (h : s.findLane (Config.resolve ev).category ev.track = some n) :
    s.trigger ev =
      let t := (s.setVoice n .withheld).populate (n.val : Int) ev (Config.resolve ev)
      (if t.fatal.isSome then none else some n, t) := by
  simp only [State.trigger, State.triggerWith, State.reqch, h]

/-- The lane is handed to the host unless a fatal error is set (R320). -/
theorem State.returning_unless_raised (t : State) (n : LaneIx) :
    t.returning (if t.fatal.isSome then none else some n) = if t.fatal = none then t.emit (.lane n) else t := by
  by_cases h : t.fatal = none
  · simp [h, State.returning]
  · simp [h, Option.isSome_iff_ne_none.2 h, State.returning]

/-! ### The parts of an evaluation (R342 to R348) -/

theorem State.onUsed_used {s : State} {n : LaneIx} {u : UsedVoice} (h : s.voice n = .used u) (f : UsedVoice → State) :
    s.onUsed n f = f u := by
  simp only [State.onUsed, h]

/-- How the latest due adjustment is updated by the next in the list (R342). -/
def laterDue (best : Option (Nat × Half)) (p : Nat × Half) : Option (Nat × Half) :=
  match best with
  | none => some p
  | some b => if b.1 ≤ p.1 then some p else some b

theorem latestDue_eq_foldl (due : List (Nat × Half)) : latestDue due = due.foldl laterDue none := rfl

theorem laterDue_of_le {best : Option (Nat × Half)} {p : Nat × Half} (h : ∀ b ∈ best, b.1 ≤ p.1) :
    laterDue best p = some p := by
  cases best with
  | none => rfl
  | some b => exact if_pos (h b rfl)

/-- What the search holds is one of those it has seen. -/
theorem foldl_laterDue_mem (due : List (Nat × Half)) (best : Option (Nat × Half)) :
    ∀ b ∈ due.foldl laterDue best, b ∈ best ∨ b ∈ due := by
  induction due generalizing best with
  | nil => exact fun b hb => .inl hb
  | cons p due ih =>
    intro b hb
    rcases ih _ b hb with hb | hb
    · cases best with
      | none => exact .inr (by simp_all [laterDue])
      | some b' =>
        simp only [laterDue] at hb
        split_ifs at hb <;> simp_all
    · exact .inr (List.mem_cons_of_mem _ hb)

theorem foldl_laterDue_of_lt {due : List (Nat × Half)} {a : Nat × Half} (h : ∀ b ∈ due, b.1 < a.1) :
    due.foldl laterDue (some a) = some a := by
  induction due with
  | nil => rfl
  | cons p due ih =>
    obtain ⟨hp, hdue⟩ := List.forall_mem_cons.1 h
    have kept : laterDue (some a) p = some a := if_neg hp.not_ge
    rw [List.foldl_cons, kept, ih hdue]

/-- The latest due adjustment is the greatest, among equals the last (R342). -/
theorem latestDue_eq_some {before after : List (Nat × Half)} {a : Nat × Half} (hb : ∀ b ∈ before, b.1 ≤ a.1)
    (ha : ∀ b ∈ after, b.1 < a.1) : latestDue (before ++ a :: after) = some a := by
  have reached : laterDue (before.foldl laterDue none) a = some a :=
    laterDue_of_le fun b h => hb b ((foldl_laterDue_mem before none b h).resolve_left (by simp))
  rw [latestDue_eq_foldl, List.foldl_append, List.foldl_cons, reached, foldl_laterDue_of_lt ha]

section

variable {s : State} {n : LaneIx} {u : UsedVoice} (hv : s.voice n = .used u)
include hv

/-- With no adjustment due nothing is written (R342). -/
theorem State.evalPitch_none_due {vt : Nat} (h : ∀ a ∈ u.pitchAdj, vt < a.1) : s.evalPitch n vt = s := by
  have none_due : u.pitchAdj.filter (fun p => p.1 ≤ vt) = [] := by simpa using h
  rw [State.evalPitch, State.onUsed_used hv, none_due]
  rfl

/-- The latest due adjustment is written and every due one dropped (R342). -/
theorem State.evalPitch_due {vt : Nat} {before after : List (Nat × Half)} {a : Nat × Half}
    (cut : u.pitchAdj = before ++ a :: after) (due : a.1 ≤ vt) (hb : ∀ b ∈ before, b.1 ≤ vt → b.1 ≤ a.1)
    (ha : ∀ b ∈ after, b.1 ≤ vt → b.1 < a.1) :
    s.evalPitch n vt =
      (s.writeTmr n a.2).setVoice n (.used { u with pitchAdj := u.pitchAdj.filter fun b => vt < b.1 }) := by
  have latest : latestDue (u.pitchAdj.filter fun p => p.1 ≤ vt) = some a := by
    rw [cut, List.filter_append, List.filter_cons_of_pos (by simpa using due)]
    exact latestDue_eq_some (by simpa using hb) (by simpa using ha)
  simp only [State.evalPitch, State.onUsed_used hv, latest]

theorem State.evalSamples_eq (vt : Nat) :
    s.evalSamples n vt = (s.retrigger n u.rt u.pan (u.samples.filter fun x => x.1 = vt)).andThen
      fun t => t.setVoice n (.used { u with samples := u.samples.filter fun x => vt < x.1 }) :=
  State.onUsed_used hv _

theorem State.evalVolume_completed (h : u.completed = true) (vt : Nat) : s.evalVolume n vt = s := by
  simp only [State.evalVolume, State.onUsed_used hv, h, if_true]

theorem State.evalVolume_running (h : u.completed = false) (vt : Nat) :
    s.evalVolume n vt = s.applyEnv n u (envEval u.env ((vt - u.segStart) * Config.envTimeScale)) := by
  simp only [State.evalVolume, State.onUsed_used hv, h, Bool.false_eq_true, if_false]

theorem State.evalVoice_used : s.evalVoice n =
    if (s.tick - u.start) % Config.eventTiming = 0 then s.evalUsed n ((s.tick - u.start) / Config.eventTiming) else s := by
  simp only [State.evalVoice, hv]

end

/-- Taking over an envelope value in a segment that has not completed yet (R344, R345). -/
theorem State.applyEnv_eq (s : State) (n : LaneIx) {u : UsedVoice} (h : u.completed = false) (x : EnvValue) :
    s.applyEnv n u x =
      (s.setVolume n (volq x.v)).setVoice n (.used { u with cur := x.v, completed := x.done }) := by
  rw [State.applyEnv, State.setVolume_setVoice, h, Bool.false_or]

/-- One segment is programmed, its reload kept, and the others follow unless it raises (R343). -/
theorem State.retrigger_cons (s : State) (n : LaneIx) (rt : ResolvedTimbre) (pan t : Nat) (seg : SampleSeg)
    (rest : List (Nat × SampleSeg)) :
    s.retrigger n rt pan ((t, seg) :: rest) =
      (s.commitLane n (laneStart s.mem { s.lane n with
        cnt := packCnt true rt.format rt.duty (if rt.repeating then 1 else 2) pan rt.shiftSel (volq seg.volume),
        src := seg.src &&& 0x07FFFFFC, loopPos := 4 * seg.loopWords.toNat, length := 4 * seg.lenWords.toNat })).andThen
      fun t => t.retrigger n rt pan rest := by
  rw [State.retrigger, State.programLane_eq_commit _ _ _ _ _ _ _ _ (.inl rfl)]
  rfl

theorem State.evalVoice_freeing {s : State} {n : LaneIx} {f : FreeingVoice} (hv : s.voice n = .freeing f) :
    s.evalVoice n =
      if f.relTick < s.tick ∧ (s.tick - f.relTick) % Config.eventTiming = 0 then s.evalFreeing n f else s := by
  simp only [State.evalVoice, hv, Bool.and_eq_true, decide_eq_true_eq]

/-- A Freeing voice opens when its curve is forced or at most 1, and takes the curve's value otherwise (R347). -/
theorem State.evalFreeing_eq (s : State) (n : LaneIx) (f : FreeingVoice) :
    let r := releaseCurve f.release f.init f.sus ((s.tick - f.relTick) / Config.eventTiming * Config.envTimeScale)
    s.evalFreeing n f =
      if r.2 = true ∨ r.1.val ≤ 1 then (s.setVolume n 0).setVoice n .opened
      else (s.setVolume n (volq r.1)).setVoice n (.freeing { f with cur := r.1 }) := by
  intro r
  have opens : (r.2 || Config.realLe r.1 Config.freeSilent) = true ↔ r.2 = true ∨ r.1.val ≤ 1 := by
    simp [realLe_iff, Config.freeSilent]
  simp only [← opens, State.evalFreeing, State.setVolume_setVoice]
  rfl

/-- A voice that is neither Used nor Freeing is left alone (R348). -/
theorem State.evalVoice_idle {s : State} {n : LaneIx}
    (h : s.voice n = .opened ∨ s.voice n = .withheld ∨ s.voice n = .blocked) : s.evalVoice n = s := by
  rcases h with h | h | h <;> simp only [State.evalVoice, h]

/-! ### The moves of an evaluation (R348) -/

/-- A predicate that the moves of one voice and its lane keep. -/
structure VoiceMoves (n : LaneIx) (P : State → Prop) : Prop where
  voice : ∀ s x, P s → P (s.setVoice n x)
  cnt : ∀ s v, P s → P (s.writeCnt n v)
  tmr : ∀ s v, P s → P (s.writeTmr n v)
  sad : ∀ s v, P s → P (s.writeSad n v)
  pnt : ∀ s v, P s → P (s.writePnt n v)
  len : ∀ s v, P s → P (s.writeLen n v)

namespace VoiceMoves

variable {n : LaneIx} {P : State → Prop} (c : VoiceMoves n P) {s : State} (h : P s)
include c h

theorem setVolume (q : BitVec 7) : P (s.setVolume n q) := c.cnt _ _ h

theorem programLane (rt : ResolvedTimbre) (pan : Nat) (src : Word) (lw : Half) (len : BitVec 21) (q : BitVec 7)
    (r : Option Half) : P (s.programLane n rt pan src lw len q r) := by
  have off := c.cnt _ 0 h
  cases r with
  | none => exact c.cnt _ _ (c.len _ _ (c.pnt _ _ (c.sad _ _ off)))
  | some r => exact c.cnt _ _ (c.len _ _ (c.pnt _ _ (c.sad _ _ (c.tmr _ _ off))))

theorem retrigger (rt : ResolvedTimbre) (pan : Nat) (segs : List (Nat × SampleSeg)) :
    P (s.retrigger n rt pan segs) := by
  induction segs generalizing s with
  | nil => exact h
  | cons p segs ih => exact Closed.andThen (c.programLane h ..) fun _ h => ih h

theorem applyEnv (u : UsedVoice) (x : EnvValue) : P (s.applyEnv n u x) := c.setVolume (c.voice _ _ h) _

theorem evalPitch (vt : Nat) : P (s.evalPitch n vt) := by
  refine s.onUsed_holds n h fun u _ => ?_
  split
  exacts [h, c.voice _ _ (c.tmr _ _ h)]

theorem evalSamples (vt : Nat) : P (s.evalSamples n vt) :=
  s.onUsed_holds n h fun _ _ => Closed.andThen (c.retrigger h ..) fun _ h => c.voice _ _ h

theorem evalVolume (vt : Nat) : P (s.evalVolume n vt) := by
  refine s.onUsed_holds n h fun u _ => ?_
  split
  exacts [h, c.applyEnv h _ _]

theorem evalCompletion (vt : Nat) : P (s.evalCompletion n vt) := by
  refine s.onUsed_holds n h fun u _ => ?_
  split
  · split
    · split
      exacts [c.applyEnv h _ _, c.setVolume (c.voice _ _ h) _]
    · exact c.voice _ _ (c.setVolume h _)
  · exact h

theorem evalUsed (vt : Nat) : P (s.evalUsed n vt) :=
  Closed.andThen (c.evalSamples (c.evalPitch h vt) vt) fun _ h => c.evalCompletion (c.evalVolume h vt) vt

theorem evalFreeing (f : FreeingVoice) : P (s.evalFreeing n f) := by
  unfold State.evalFreeing
  dsimp only
  split
  exacts [c.voice _ _ (c.setVolume h _), c.setVolume (c.voice _ _ h) _]

/-- The evaluation of a voice is made of moves of that voice and its lane. -/
theorem evalVoice : P (s.evalVoice n) := by
  unfold State.evalVoice
  split
  · split
    exacts [c.evalUsed h _, h]
  · split
    exacts [c.evalFreeing h _, h]
  all_goals exact h

end VoiceMoves

/-- What the moves of voice `n` leave alone outside the voice table: the other lanes, and the capture units unless the lane
shares a reload with one (R120). -/
def State.sparesAround (n : LaneIx) (s t : State) : Prop :=
  (∀ k, n ≠ k → t.lane k = s.lane k) ∧ (n ≠ 1 → n ≠ 3 → t.caps = s.caps)

theorem VoiceMoves.sparesAround (n : LaneIx) (s : State) : VoiceMoves n (s.sparesAround n) where
  voice _ _ h := h
  cnt t v h := ⟨fun k hk => (t.lane_writeCnt_other v hk).trans (h.1 k hk), by simpa using h.2⟩
  tmr t v h := ⟨fun k hk => by simpa [hk] using h.1 k hk,
    fun h1 h3 => by simpa [State.writeTmr, h1, h3] using h.2 h1 h3⟩
  sad t v h := ⟨fun k hk => by simpa [State.writeSad, hk] using h.1 k hk, h.2⟩
  pnt t v h := ⟨fun k hk => by simpa [State.writePnt, hk] using h.1 k hk, h.2⟩
  len t v h := ⟨fun k hk => by simpa [State.writeLen, hk] using h.1 k hk, h.2⟩

/-- The evaluation of a voice spares the other lanes, and the capture units unless its lane shares a reload (R348). -/
theorem State.evalVoice_sparesAround (s : State) (n : LaneIx) : s.sparesAround n (s.evalVoice n) :=
  (VoiceMoves.sparesAround n s).evalVoice ⟨fun _ _ => rfl, fun _ _ => rfl⟩

/-- What the voice engine reaches at all, as an update. -/
theorem State.voiceKeeps.eq_update {s t : State} (h : s.voiceKeeps t) :
    t = { s with voices := t.voices, lanes := t.lanes, caps := t.caps, fatal := t.fatal } := by
  obtain ⟨events, tick, soundcnt, bias, out, mem, mix, port, emitted, -⟩ := h
  rw [← events, ← tick, ← soundcnt, ← bias, ← out, ← mem, ← mix, ← port, ← emitted]

end Sys2Proof.Machine
end

section
/-!
PROOFS for spec/45_envelope_engine.md: creating a voice (R320 to R323), the envelope and pitch arithmetic (R331 to R340,
R349), and the engine (R339, R342 to R348).
-/

namespace Sys2Proof.Proofs

open Sys2Proof Sys2Proof.Machine Sys2Proof.Config

/-- Settles O36: a Withheld lane is none of the Blocked ones, so PROGRAM_LANE's registers are the lane's alone
(`State.programLane_eq_commit`), and the state commits what START(n) answers. -/
theorem populateFillsTheVoice : Obligations.PopulateFillsTheVoice := by
  intro s k ev rt hs hb hv hd hq pan u l r
  have row : exec (.populate (k.val : Int) ev rt) s = .next ((s.setVoice k (.used u)).commitLane k r) := by
    refine (next_andThen_of_live hs _).trans (congrArg _ ?_)
    rw [State.populate_withheld ev hv (timbreDefect_none hd hq), State.fillVoice,
      State.programLane_eq_commit _ _ _ _ _ _ _ _ (.inr (State.withheld_unshared hb hv)), newVoice, panOf_eq]
    rfl
  rw [row]
  exact ⟨fun ok => congrArg _ (State.commitLane_ok _ k ok), fun a err =>
    congrArg _ (State.commitLane_error (s := s.setVoice k (.used u)) hs k err)⟩

/-- Settles O38: what remains of `envDefect_ne_none_iff` is the exponential release. -/
theorem envelopeDefects : Obligations.EnvelopeDefects := fun e => by
  rw [envDefect_ne_none_iff, exponentialUndefined_iff]

/-- Settles O39, by whether REQCH finds a lane (`State.trigger_none`, `State.trigger_some`). -/
theorem triggerAllocatesThenPopulates : Obligations.TriggerAllocatesThenPopulates := by
  intro s ev hs rt
  have row : exec (.trigger ev) s = .next ((s.trigger ev).2.returning (s.trigger ev).1) := next_andThen_of_live hs _
  refine ⟨fun none_found => ?_, fun n found => ?_⟩
  · rw [row, State.trigger_none none_found, State.raise_of_live hs]
    rfl
  · have live : (s.setVoice n .withheld).fatal = none := hs
    refine ⟨_, next_andThen_of_live live _, ?_⟩
    rw [row, State.trigger_some found, State.returning_unless_raised]
    rfl

/-- Settles O40: SET_VOLUME is no rising edge (`State.setVolume_eq`), and the word it stores is `toNat_withVolumeField`. -/
theorem setVolumeNeverStartsALane : Obligations.SetVolumeNeverStartsALane := fun s n q =>
  ⟨_, s.setVolume_eq n q, toNat_withVolumeField _ q⟩

/-- Settles O41, interval by interval; in R337's example EXP(LN(1/2)) = 1/2 after the decay's whole duration. -/
theorem envelopePhases : Obligations.EnvelopePhases := by
  intro e tau sh
  refine ⟨envEval_attack, envEval_decay, envEval_sustain, fun ts hts hr => ?_, fun attack decay sustain => ?_⟩
  · rw [envEval_release hts hr]
    exact ⟨rfl, rfl, envRelease_done ..⟩
  · have hta : sh.ta = 0 := (shape_attack_none attack).1
    have hpeak : sh.peak.val = 127 := by rw [(shape_attack_none attack).2, envFull_val]
    have htd : sh.td = 192 := shape_decay decay
    have hsus : sh.sus = .rat (127 / 2) := (shape_sustain_some sustain).1
    have hts : sh.ts = .inf := (shape_sustain_some sustain).2
    have start : envEval e 0 = ⟨decayValue e.decay sh.peak sh.sus (0 - sh.ta), .decay, false⟩ :=
      envEval_decay hta.le (show 0 < sh.ta + sh.td by omega)
    refine ⟨?_, by rw [start], fun late => ?_, ?_⟩
    · rw [start, decay, decayValue_exponential_val, hpeak, hta]
      simp [realInterp.exp_zero]
    · rw [envEval_sustain (show sh.ta + sh.td ≤ tau by omega) (.inl hts)]
      exact congrArg (EnvValue.mk · .sustain false) hsus
    · have whole : realInterp.ln (1 / 2) / 192 * 192 = realInterp.ln (1 / 2) := by ring
      rw [decay, decayValue_exponential_val, hpeak]
      norm_num [whole, realInterp.exp_ln]

/-- Settles O44, from the natural floor that VOLQ halves (`volq_eq`). -/
theorem volumeQuantisation : Obligations.VolumeQuantisation := by
  refine ⟨fun v h => ?_, fun v h0 h => ?_, fun v w => volq_half, fun v => Nat.le_of_lt_succ (volq v).isLt⟩
  · rw [volq_eq, Nat.floor_of_nonpos h]
    rfl
  · rw [toNat_volq_of_lt h, Int.natCast_floor_eq_floor h0.le]

/-- Settles O45: PITCH_TIMER cancels (`RealInterp.val_pitchReal`), and the value is rounded and held in 16 bits. -/
theorem pitchFormula : Obligations.PitchFormula := by
  refine ⟨fun b o => ⟨?_, realInterp.val_pitchReal b o⟩, fun b o => pitchReload_offset_zero b, fun I b octave => ?_,
    fun r => rfl⟩
  · rw [toNat_pitchReload_formula, pitchRound_eq]
  · have unit : I.pow2 (I.val (.rat 12) / 12) = 2 := by
      rw [← octave]
      norm_num [RealInterp.val]
    rw [I.val_pitchReal b _ (by rw [unit]; exact two_ne_zero), unit]
    ring

/-- Settles O46, variant by variant: an EXP with a constant that is not positive, or a ratio below 1. -/
theorem envelopeMonotone : Obligations.EnvelopeMonotone := by
  refine ⟨fun v d t t' hv hd h => ?_, fun rel v0 sus t t' hv h hrel => ?_⟩
  · rw [attackValue_linear_val v hd, attackValue_linear_val v hd]
    have later : (t : ℝ) ≤ t' := Nat.cast_le.2 h
    gcongr
  · cases rel with
    | basic => exact decayed_antitone hv (by norm_num [basicK]) h
    | keepBlowing => exact decayed_antitone hv (by norm_num [keepblowK]) h
    | geometric => exact geometric_antitone (r := geomRatio) hv realInterp.geomRatio_mem h
    | geometricStopBlowing => exact geometric_antitone (r := geomSbRatio) hv realInterp.geomSbRatio_mem h
    | exponential d f | exponentialUntil d f =>
      obtain ⟨hd, hf, hle⟩ := hrel
      exact decayed_antitone hv (releaseConstant_nonpos hd hf hle) h
    | staticValue v => exact hrel.elim

/-- Settles O47, by whether the voice is due and, if it is, by the two branches of EVAL_FREEING
(`State.evalFreeing_eq`). -/
theorem freeingVoiceDecaysThenOpens : Obligations.FreeingVoiceDecaysThenOpens := by
  intro s n f hv due r vol
  rw [State.evalVoice_freeing hv]
  refine ⟨fun h => if_neg h, fun h silent => ?_, fun h unforced loud => ?_⟩
  · rw [if_pos h, State.evalFreeing_eq, if_pos silent, State.setVolume_eq]
    rfl
  · rw [if_pos h, State.evalFreeing_eq, if_neg (by simp [r, unforced, loud]), State.setVolume_eq]
    rfl

/-- Settles O48, part by part: `State.evalPitch_due`, `State.evalSamples_eq`, `State.retrigger_cons` and
`State.applyEnv_eq`. -/
theorem usedVoiceIsEvaluatedOnSchedule : Obligations.UsedVoiceIsEvaluatedOnSchedule := by
  intro s n u hs hv
  refine ⟨fun h => ?_, fun h => ?_, fun vt => ⟨State.evalPitch_none_due hv, ?_, ?_, rfl, ?_,
    fun h => State.evalVolume_completed hv h vt, fun h => ?_⟩⟩
  · rw [State.evalVoice_used hv, if_neg h]
  · intro vt t
    have parts : s.evalVoice n = t.andThen fun t => (t.evalVolume n vt).evalCompletion n vt := by
      rw [State.evalVoice_used hv, if_pos h]
      rfl
    rw [parts, State.andThen_eq_ite]
    exact ⟨fun live => if_pos live, fun raised => if_neg raised⟩
  · intro before a after cut due hb ha
    exact ⟨_, next_andThen_of_live hs _, State.evalPitch_due hv cut due hb ha⟩
  · rw [State.evalSamples_eq hv, State.andThen_eq_ite]
  · intro t seg rest l r
    rw [State.retrigger_cons]
    refine ⟨fun ok => ?_, fun a err => ?_⟩
    · rw [State.commitLane_ok _ _ ok, State.andThen_of_live (s := s.setLane n r.lane) hs]
    · rw [State.commitLane_error hs _ err]
      rfl
  · rw [State.evalVolume_running hv h, State.applyEnv_eq _ _ h, State.setVolume_eq]
    rfl

/-- Settles O49: the evaluation of a voice is made of moves of that voice and its lane (`State.evalVoice_sparesAround`), and
the engine keeps the rest (`State.voiceKeeps.evalVoice`). -/
theorem engineEvaluatesVoicesInOrder : Obligations.EngineEvaluatesVoicesInOrder := by
  refine fun s => ⟨rfl, rfl, fun n ns => ?_⟩
  obtain ⟨lanes, caps⟩ := s.evalVoice_sparesAround n
  exact ⟨State.andThen_eq_ite .., State.evalVoice_idle,
    fun k other => ⟨s.voice_evalVoice_other other.symm, lanes k other.symm⟩, caps,
    ((State.voiceKeeps.refl s).evalVoice n).eq_update⟩

/-- Settles O50, by the branches of EVAL_USED's last part. -/
theorem completedVoiceRearmsHoldsOrOpens : Obligations.CompletedVoiceRearmsHoldsOrOpens := by
  intro s n vt u hv vol
  simp only [State.evalCompletion, State.onUsed_used hv]
  refine ⟨fun h => ?_, fun h queue => ?_, fun trig e rest h queue early => ?_, fun trig e rest h queue due => ?_⟩
  · simp only [h, Bool.false_eq_true, if_false]
  · simp only [h, queue, if_true, State.setVolume_eq]
    rfl
  · simp only [h, queue, if_true, early.not_ge, if_false, State.setVolume_eq]
    rfl
  · simp only [h, queue, due, if_true, State.applyEnv_eq, State.setVolume_eq]
    rfl

/-- Settles O42, from one lemma per variant: the breakpoints are read off, and the values are those of R333, R334, R336. -/
theorem envelopeCurves : Obligations.EnvelopeCurves := by
  refine ⟨fun e => ⟨fun attack => ?_, fun v d attack => ?_, fun before p attack => ?_, fun points t attack => ?_,
      fun decay => ?_, fun d decay => ?_, fun c d decay => ?_, fun x sustain => ?_, fun sustain => ⟨?_, ?_⟩⟩,
    ⟨realInterp.geomRatio_mem.1, realInterp.geomRatio_mem.2, realInterp.geomSbRatio_mem⟩,
    fun v0 sus t => ⟨?_, ?_, rfl, rfl, fun v => rfl, ?_, fun d f hd hf hs => ⟨?_, ?_, ?_, ?_⟩⟩⟩
  · obtain ⟨ta, peak⟩ := shape_attack_none attack
    exact ⟨ta, (congrArg RealNum.val peak).trans envFull_val⟩
  · obtain ⟨ta, peak⟩ := shape_attack_linear attack
    refine ⟨ta, peak, fun hd t => ?_⟩
    rw [attack, attackValue_linear_val v hd]
  · exact shape_attack_exactPoints attack
  · rw [attack]
    refine ⟨attackValue_exactPoints_before, fun before p after cut hp ha => ?_⟩
    rw [cut, attackValue_exactPoints_at hp ha]
  · exact shape_decay decay
  · refine ⟨shape_decay decay, fun hd u => ?_⟩
    rw [decay, decayValue_linear_val _ _ hd]
  · refine ⟨shape_decay decay, fun u => ?_⟩
    rw [decay, decayValue_exponential_val]
  · exact shape_sustain_some sustain
  · exact shape_sustain_none sustain
  · rcases decay : e.decay with _ | (_ | ⟨c, d⟩)
    case some.exponential => exact shape_sus_val_exponential sustain decay
    all_goals exact congrArg _ (shape_sus_eq_peak sustain (by simp [decay]))
  · simp [releaseCurve, basicK]
  · simp [releaseCurve, keepblowK]
  · simp [releaseCurve, noReleaseValue]
  · simp only [releaseCurve, decayed_val, releaseConstant_val hd f hs]
  · simp only [releaseCurve, decayed_val, releaseConstant_val hd f hs]
  · simp only [releaseCurve, realLe_iff, decayed_val, releaseConstant_val hd f hs]
  · simp only [releaseCurve, decayed_val, exp_releaseConstant_mul hd hf hs]
    exact mul_div_cancel₀ _ hs.ne'

end Sys2Proof.Proofs
end

section
/-!
SUPPORT for spec/46_tick_sequence.md. What the phases of a STEP leave alone and where it stops, the step in which nothing
sounds, the checked event list, and the operations that leave T alone.
-/

namespace Sys2Proof.Machine

/-! ### The phases of STEP (R380, R403) -/

/-- What dispatch, engine and mix leave alone: T, the output pair, the host's sides, SOUNDCNT and SOUNDBIAS (R21, R380). -/
def State.phaseKeeps (s t : State) : Prop :=
  t.tick = s.tick ∧ t.out = s.out ∧ t.emitted = s.emitted ∧ t.port = s.port ∧ t.soundcnt = s.soundcnt ∧
    t.bias = s.bias

theorem State.voiceKeeps.phaseKeeps {s t : State} (h : s.voiceKeeps t) : s.phaseKeeps t := by
  obtain ⟨-, tick, soundcnt, bias, out, -, -, port, emitted, -⟩ := h
  exact ⟨tick, out, emitted, port, soundcnt, bias⟩

theorem State.mixKeeps.phaseKeeps {s t : State} (h : s.mixKeeps t) : s.phaseKeeps t := by
  obtain ⟨-, tick, -, out, emitted, port, soundcnt, bias⟩ := h
  exact ⟨tick, out, emitted, port, soundcnt, bias⟩

theorem State.phaseKeeps.trans {s t r : State} (h : s.phaseKeeps t) (h' : t.phaseKeeps r) : s.phaseKeeps r := by
  obtain ⟨tick, out, emitted, port, soundcnt, bias⟩ := h
  obtain ⟨tick', out', emitted', port', soundcnt', bias'⟩ := h'
  exact ⟨tick'.trans tick, out'.trans out, emitted'.trans emitted, port'.trans port, soundcnt'.trans soundcnt,
    bias'.trans bias⟩

theorem State.dispatch_phaseKeeps (s : State) : s.phaseKeeps s.dispatch := by
  obtain ⟨tick, out, emitted, port, soundcnt, bias⟩ := s.dispatch_keeps.phaseKeeps
  exact ⟨tick, out, emitted, port, soundcnt, bias⟩

theorem State.engine_phaseKeeps (s : State) : s.phaseKeeps s.dispatch.engine :=
  s.dispatch_phaseKeeps.trans (State.voiceKeeps.refl s.dispatch).engine.phaseKeeps

theorem State.runMix_phaseKeeps (s : State) : s.phaseKeeps s.dispatch.engine.runMix :=
  s.engine_phaseKeeps.trans s.dispatch.engine.runMix_keeps.phaseKeeps

/-- STEP as a choice: the first phase that raises is the last, and only after three that do not is there an output. -/
theorem State.outputTick_eq (s : State) :
    let d := s.dispatch
    let e := d.engine
    let m := e.runMix
    s.outputTick =
      if d.fatal = none then if e.fatal = none then if m.fatal = none then m.finishStep else m else e else d := by
  simp only [State.outputTick, State.andThen_eq_ite]

/-- A STEP ends in what a phase that raised has left, or in the output of a mix that did not raise. -/
theorem State.outputTick_cases (s : State) :
    (s.outputTick.fatal ≠ none ∧ s.phaseKeeps s.outputTick) ∨
      ∃ m, m.fatal = none ∧ s.phaseKeeps m ∧ s.outputTick = m.finishStep := by
  rw [State.outputTick_eq]
  by_cases hd : s.dispatch.fatal = none
  · by_cases he : s.dispatch.engine.fatal = none
    · by_cases hm : s.dispatch.engine.runMix.fatal = none
      · rw [if_pos hd, if_pos he, if_pos hm]
        exact .inr ⟨_, hm, s.runMix_phaseKeeps, rfl⟩
      · rw [if_pos hd, if_pos he, if_neg hm]
        exact .inl ⟨hm, s.runMix_phaseKeeps⟩
    · rw [if_pos hd, if_neg he]
      exact .inl ⟨he, s.engine_phaseKeeps⟩
  · rw [if_neg hd]
    exact .inl ⟨hd, s.dispatch_phaseKeeps⟩

/-- The end of a STEP, its sample numbered by the T that the phases have kept. -/
theorem State.finishStep_eq {s m : State} (h : s.phaseKeeps m) :
    let p := (m.final m.mix.outl, m.final m.mix.outr)
    m.finishStep = { m with out := p, emitted := .sample s.tick p.1 p.2 :: m.emitted, tick := s.tick + 1 } := by
  obtain ⟨tick, -⟩ := h
  rw [← tick]
  rfl

/-! ### Operations that leave T alone (R21) -/

theorem State.voiceKeeps.tick_eq {s t : State} (h : s.voiceKeeps t) : t.tick = s.tick := by
  obtain ⟨-, tick, -⟩ := h
  exact tick

@[simp] theorem State.returning_tick (s : State) (n : Option LaneIx) : (s.returning n).tick = s.tick := by
  cases n <;> rfl

@[simp] theorem State.reqch_tick (s : State) (category : Category) (track : Nat) :
    (s.reqch category track).2.tick = s.tick := by
  unfold State.reqch
  split <;> simp

@[simp] theorem State.busWrite8_tick (s : State) (a : Word) (v : Byte) : (s.busWrite8 a v).tick = s.tick := by
  unfold State.busWrite8
  split <;> simp

@[simp] theorem State.busWrite16_tick (s : State) (a : Word) (v : Half) : (s.busWrite16 a v).tick = s.tick := by
  unfold State.busWrite16
  split <;> simp

@[simp] theorem State.busWrite32_tick (s : State) (a v : Word) : (s.busWrite32 a v).tick = s.tick := by
  unfold State.busWrite32
  split <;> simp

@[simp] theorem State.hostWrite_tick (s : State) (a : Word) (b : Byte) : (s.hostWrite a b).tick = s.tick := by
  unfold State.hostWrite
  split <;> simp

@[simp] theorem State.loadEvents_tick (s : State) (events : List Event) : (s.loadEvents events).tick = s.tick := by
  unfold State.loadEvents
  split <;> simp

/-- No operation but STEP and RESET changes T. -/
theorem exec_tick {i : Instr} {s t : State} (hr : i ≠ .reset) (hs : i ≠ .step) (he : exec i s = .next t) :
    t.tick = s.tick := by
  have go : ∀ f : State → State, (f s).tick = s.tick → (Host.Outcome.next (s.andThen f) : Result) = .next t →
      t.tick = s.tick := fun f hf => next_andThen_holds (P := fun t => t.tick = s.tick) rfl hf
  cases i with
  | reset => exact (hr rfl).elim
  | step => exact (hs rfl).elim
  | memw a b => exact go _ (State.hostWrite_tick ..) he
  | loadEvents events => exact go _ (State.loadEvents_tick ..) he
  | trigger ev => exact go _ ((State.returning_tick ..).trans ((State.voiceKeeps.refl s).trigger ev).tick_eq) he
  | reqch category track => exact go _ ((State.returning_tick ..).trans (State.reqch_tick ..)) he
  | populate n ev rt => exact go _ ((State.voiceKeeps.refl s).populate n ev rt).tick_eq he
  | wr8 a v => exact go _ (State.busWrite8_tick ..) he
  | wr16 a v => exact go _ (State.busWrite16_tick ..) he
  | wr32 a v => exact go _ (State.busWrite32_tick ..) he
  | chCnt n v => exact go _ (State.writeCnt_tick ..) he
  | chTmr n v => exact go _ (State.writeTmr_tick ..) he
  | genPcm8 n | genPcm16 n | genAdpcm n | genPsg n d | genNoise n => exact go _ (State.commitLane_tick ..) he
  | capPcm8 u oneshot => exact go (fun s => s.runCap u true oneshot) (State.commitCap_tick ..) he
  | capPcm16 u oneshot => exact go (fun s => s.runCap u false oneshot) (State.commitCap_tick ..) he
  | outMixer side | outCh1 side | outCh3 side | outCh1Ch3 side => exact go _ (State.setOutput_tick ..) he
  | release | chSad | chPnt | chLen | soundcnt | soundbias | sndcap0cnt | sndcap1cnt | sndcap0dad | sndcap1dad
  | sndcap0len | sndcap1len | genNone | genOff => exact go _ rfl he

/-- STEP is the output tick, or nothing while a fatal error is set (R401). -/
theorem exec_step_eq {s t : State} (he : exec .step s = .next t) :
    t = if s.fatal = none then s.outputTick else s := by
  rw [← State.andThen_eq_ite]
  exact (Host.Outcome.next.inj he).symm

/-! ### The event list (R381, R382) -/

/-- The first event that comes too early, after a list that was in order, is the one that is reported (R381). -/
theorem firstLate_eq_some {before after : List Event} {ev : Event} {last : Nat}
    (ordered : before.Pairwise fun a b => a.tick ≤ b.tick) (begins : ∀ b ∈ before, last ≤ b.tick)
    (late : ev.tick < last ∨ ∃ b ∈ before, ev.tick < b.tick) :
    firstLate last (before ++ ev :: after) = some ev.tick := by
  induction before generalizing last with
  | nil => exact if_pos (by simpa using late)
  | cons b before ih =>
    obtain ⟨first, ordered⟩ := List.pairwise_cons.1 ordered
    have step : last ≤ b.tick := begins b List.mem_cons_self
    refine (if_neg step.not_gt).trans (ih ordered first ?_)
    rcases late with late | ⟨c, hc, late⟩
    · exact .inl (late.trans_le step)
    · rcases List.mem_cons.1 hc with rfl | hc
      exacts [.inl late, .inr ⟨c, hc, late⟩]

/-- DISPATCH does nothing while the first event is not due (R382). -/
theorem State.dispatch_idle {s : State} (h : ∀ ev rest, s.events = ev :: rest → ev.tick ≠ s.tick) :
    s.dispatch = s := by
  unfold State.dispatch
  cases he : s.events with
  | nil => rfl
  | cons ev rest => exact if_neg (h ev rest he)

/-- A due event leaves the list and is triggered; DISPATCH goes on with the rest, which TRIGGER has kept (R382). -/
theorem State.dispatch_due {s : State} {ev : Event} {rest : List Event} (he : s.events = ev :: rest)
    (due : ev.tick = s.tick) :
    let u := (({ s with events := rest } : State).trigger ev).2
    s.dispatch = if u.fatal = none then u.dispatch else u := by
  intro u
  have kept : u.events = rest := (State.trigger_events { s with events := rest } ev).1
  have turn : s.dispatch = u.andThen fun t => t.dispatchFrom rest := by
    rw [State.dispatch, he]
    exact if_pos due
  rw [turn, State.andThen_eq_ite, State.dispatch, kept]

/-- What TRIGGER returns to the host is all that it emits (R320). -/
theorem State.trigger_unreturned (s : State) (ev : Event) (n : Option LaneIx) :
    ({ (s.trigger ev).2.returning n with emitted := s.emitted } : State) = (s.trigger ev).2 := by
  obtain ⟨-, -, emitted, -⟩ := ((State.voiceKeeps.refl s).trigger ev).phaseKeeps
  rw [← emitted]
  cases n <;> rfl

/-! ### A STEP in which nothing sounds (R240, R348) -/

/-- The engine passes by voices that are neither Used nor Freeing (R348). -/
theorem State.engine_idle {s : State} (h : ∀ n, s.voice n = .opened ∨ s.voice n = .withheld ∨ s.voice n = .blocked)
    (hs : s.fatal = none) : s.engine = s := by
  have pass : ∀ ns, s.evalVoices ns = s := fun ns => by
    induction ns with
    | nil => rfl
    | cons n ns ih => rw [State.evalVoices, State.evalVoice_idle (h n), State.andThen_of_live hs, ih]
  exact pass _

/-- Lanes that are all keyed off give 0 each, and nothing else happens (R191, R241). -/
theorem State.runLanes_silent (ns : List LaneIx) {s : State} (hs : s.fatal = none)
    (off : ∀ n, keyon (s.lane n).cnt = false) :
    ∃ x, s.runLanes ns = { s with mix := x } ∧
      ∀ n, n ∈ ns ∨ s.laneValue n = 0 → (s.runLanes ns).laneValue n = 0 := by
  induction ns generalizing s with
  | nil => exact ⟨s.mix, rfl, fun n h => h.resolve_left List.not_mem_nil⟩
  | cons k ns ih =>
    have live : (s.setLaneValue k 0).fatal = none := hs
    have first : s.runLanes (k :: ns) = (s.setLaneValue k 0).runLanes ns := by
      rw [State.runLanes, State.runLane_silent (.inl (off k)), State.andThen_of_live live]
    obtain ⟨x, rest, silent⟩ := ih live off
    rw [first]
    refine ⟨x, rest, fun n h => silent n ?_⟩
    rw [State.laneValue_setLaneValue]
    by_cases hk : k = n
    · simp [hk]
    · simpa [hk, Ne.symm hk] using h

section

variable {s : State} (silent : ∀ n, s.laneValue n = 0)
include silent

theorem State.panned_silent (side : Side) (n : LaneIx) : s.panned side n = 0 := by
  cases side <;> simp [State.panned, silent n, asr]

theorem State.accumulator_silent (side : Side) : s.accumulate.accumulator side = 0 := by
  have sum : s.accumulated side = 0 := by simp [State.accumulated_eq_sum, State.panned_silent silent]
  cases side <;> exact sum

/-- Of lanes at 0 every select is 0, when the side's accumulator is (R244). -/
theorem State.outputSelect_silent {side : Side} (sum : s.accumulator side = 0) :
    s.outputSelect side = s.setOutput side 0 := by
  rw [State.outputSelect_eq]
  simp only [State.panned_silent silent, sum, add_zero]
  exact congrArg _ (List.getD_replicate (n := 4) 0 (outSelect s.soundcnt side).isLt)

/-- Lanes at 0 leave 0 on both sides (R243, R244). -/
theorem State.outputs_silent :
    ∃ x, (s.accumulate.outputSelect .left).outputSelect .right = { s with mix := x } ∧ x.outl = 0 ∧ x.outr = 0 := by
  rw [State.outputSelect_silent (s := s.accumulate) silent (State.accumulator_silent silent .left),
    State.outputSelect_silent (s := s.accumulate.setOutput .left 0) (side := .right) silent
      (State.accumulator_silent silent .right)]
  exact ⟨_, rfl, rfl, rfl⟩

end

/-- With both capture units off, an enabled mix goes from the sums on to the output select (R240). -/
theorem State.runMix_uncaptured {s t : State} (enabled : masterEnable s.soundcnt = true)
    (lanes : s.mixCleared.runLanes allLanes = t) (live : t.fatal = none)
    (capsOff : ∀ u, capEnable (t.cap u).cnt = false) :
    s.runMix = (t.accumulate.outputSelect .left).outputSelect .right := by
  have unfed : ∀ u, t.accumulate.feedCap u = t.accumulate := fun u => State.feedCap_disabled (capsOff u)
  have summed : t.accumulate.fatal = none := live
  simpa only [lanes, unfed, live, summed, if_true] using State.runMix_enabled enabled

/-- A mix with the mixer disabled, or with every lane and both capture units off, selects 0 on both sides and changes its
own locals only (R240). -/
theorem State.runMix_idle {s : State} (hs : s.fatal = none)
    (off : masterEnable s.soundcnt = false ∨
      ((∀ n, keyon (s.lane n).cnt = false) ∧ ∀ u, capEnable (s.cap u).cnt = false)) :
    ∃ x, s.runMix = { s with mix := x } ∧ x.outl = 0 ∧ x.outr = 0 := by
  by_cases enabled : masterEnable s.soundcnt = true
  · obtain ⟨lanesOff, capsOff⟩ := off.resolve_left (by simp [enabled])
    obtain ⟨x, lanes, silent⟩ := State.runLanes_silent allLanes (s := s.mixCleared) hs lanesOff
    have silent := fun n => silent n (.inl (List.mem_finRange n))
    rw [lanes] at silent
    rw [State.runMix_uncaptured enabled lanes hs capsOff]
    exact State.outputs_silent silent
  · exact ⟨_, State.runMix_disabled (by simpa using enabled), rfl, rfl⟩

/-- FINAL of 0 is 0, the bias being off (R246, log 13). -/
theorem State.final_zero (s : State) : s.final 0 = 0 := by
  simp [State.final_eq, asr, clamp]

/-! ### MEMW (R385) -/

theorem State.hostWrite_mapped (s : State) {a : Word} (h : Config.mapped a = true) (b : Byte) :
    s.hostWrite a b = { s with mem := Memory.write s.mem a.toNat b } := by
  simp [State.hostWrite, memWrite_one, h]

theorem State.hostWrite_unmapped (s : State) {a : Word} (h : Config.mapped a = false) (b : Byte) :
    s.hostWrite a b = s.raise (.busError a) := by
  simp [State.hostWrite, memWrite_one, h]

end Sys2Proof.Machine
end

section
/-!
PROOFS for spec/46_tick_sequence.md: the output tick (R380), the event list and its dispatch (R381, R382), and host writes
of sample memory (R385).
-/

namespace Sys2Proof.Proofs

open Sys2Proof Sys2Proof.Machine

/-- Settles O28: DISPATCH and the engine do nothing (`State.dispatch_idle`, `State.engine_idle`), the mix sets only its
locals, the outputs to 0 (`State.runMix_idle`), and FINAL of 0 is 0. -/
theorem idleStepEmitsSilence : Obligations.IdleStepEmitsSilence := by
  intro s hs events voices off
  obtain ⟨x, mix, left, right⟩ := State.runMix_idle hs off
  have tick : s.outputTick = s.runMix.finishStep := by
    rw [State.outputTick_eq, State.dispatch_idle events, State.engine_idle voices hs, if_pos hs, if_pos hs, if_pos]
    rw [mix]
    exact hs
  refine ⟨_, next_andThen_of_live hs _, ?_⟩
  rw [tick, mix, State.finishStep, State.mixed, left, right, State.final_zero]

/-- Settles O29: the phases and where they stop are `State.outputTick_eq`; T stays through each of them
(`State.runMix_phaseKeeps`), and through every operation but STEP and RESET (`exec_tick`). -/
theorem stepRunsItsPhasesInOrder : Obligations.StepRunsItsPhasesInOrder := by
  refine ⟨fun s hs => ?_, fun i s t he => ?_, fun s t he => ?_⟩
  · intro d e m p
    have step : exec .step s = .next s.outputTick := next_andThen_of_live hs _
    rw [step, State.outputTick_eq]
    refine ⟨fun hd => congrArg _ (if_neg hd), fun hd he => congrArg _ ((if_pos hd).trans (if_neg he)),
      fun hd he hm => congrArg _ ((if_pos hd).trans ((if_pos he).trans (if_neg hm))), fun hd he hm => ?_⟩
    exact congrArg _ ((if_pos hd).trans ((if_pos he).trans ((if_pos hm).trans (State.finishStep_eq s.runMix_phaseKeeps))))
  · by_cases hr : i = .reset
    · subst hr
      cases he
      exact .inl ⟨rfl, rfl⟩
    by_cases hi : i = .step
    · subst hi
      by_cases hs : s.fatal = none
      · rw [exec_step_eq he, if_pos hs]
        rcases s.outputTick_cases with ⟨raised, tick, out, emitted, -⟩ | ⟨m, live, ⟨tick, -⟩, finish⟩
        · exact .inr (.inr ⟨tick, fun _ => ⟨raised, out, emitted⟩⟩)
        · rw [finish, ← tick]
          exact .inr (.inl ⟨rfl, hs, live, rfl⟩)
      · rw [exec_step_eq he, if_neg hs]
        exact .inr (.inr ⟨rfl, fun _ => ⟨hs, rfl, rfl⟩⟩)
    · exact .inr (.inr ⟨exec_tick hr hi he, fun h => absurd h hi⟩)
  · rw [exec_step_eq he]
    split
    · rcases s.outputTick_cases with ⟨-, -, -, -, port, soundcnt, bias⟩ |
        ⟨m, -, ⟨-, -, -, port, soundcnt, bias⟩, finish⟩
      · exact ⟨soundcnt, bias, port⟩
      · rw [finish]
        exact ⟨soundcnt, bias, port⟩
    · exact ⟨rfl, rfl, rfl⟩

/-- Settles O51: the check of a loaded list is `firstLate_none` and `firstLate_eq_some`; one turn of DISPATCH is
`State.dispatch_due`, and all its turns are `State.dispatchFrom_spec`. -/
theorem eventListIsKeptInOrder : Obligations.EventListIsKeptInOrder := by
  refine ⟨fun s events hs => ⟨fun ordered begins => ?_, fun before ev after cut ordered begins late => ?_⟩,
    fun s => State.dispatch_idle, fun s ev rest hs he due => ?_, fun s _ live => ?_⟩
  · refine (next_andThen_of_live hs _).trans ?_
    rw [State.loadEvents, (firstLate_none events s.tick).2 ⟨ordered, begins⟩]
  · refine (next_andThen_of_live hs _).trans ?_
    rw [State.loadEvents, cut, firstLate_eq_some ordered begins late]
    exact congrArg _ (State.raise_of_live hs _)
  · refine ⟨_, next_andThen_of_live (s := { s with events := rest }) hs _, ?_⟩
    intro u
    have unreturned : u = (({ s with events := rest } : State).trigger ev).2 := State.trigger_unreturned ..
    rw [unreturned]
    exact State.dispatch_due he due
  · obtain ⟨-, removed⟩ := s.dispatchFrom_spec s.events rfl
    exact removed live

/-- Settles O52, by whether the address is mapped; a byte written is the only one that changes. -/
theorem memwWritesOneByte : Obligations.MemwWritesOneByte := by
  intro s a b hs wf
  have row : exec (.memw a b) s = .next (s.hostWrite a b) := next_andThen_of_live hs _
  rw [row]
  refine ⟨fun mapped => ⟨_, rfl, ?_⟩, fun unmapped => ?_⟩
  · rw [State.hostWrite_mapped s mapped]
    refine ⟨rfl, Memory.wf_write wf _ _, fun k => ?_⟩
    split
    · subst k
      exact Memory.read_write_self wf _ _
    · exact Memory.read_write_other _ _ ‹_›
  · rw [State.hostWrite_unmapped s unmapped, State.raise_of_live hs]

end Sys2Proof.Proofs
end

section
/-!
SUPPORT for spec/60_exceptions.md and spec/70_reset_and_hazards.md. Operations under a fatal error, what one step does,
and the two errors of POPULATE.
-/

namespace Sys2Proof.Machine

/-! ### Operations under a fatal error (R400, R401) -/

/-- Every operation but RESET is a body that is performed unless a fatal error is set. -/
theorem exec_eq_andThen {i : Instr} (hr : i ≠ .reset) :
    ∃ f : State → State, ∀ s, exec i s = .next (s.andThen f) := by
  cases i with
  | reset => exact (hr rfl).elim
  | _ => exact ⟨_, fun _ => rfl⟩

/-- Every operation answers a next state (log 1). -/
theorem exec_answers (i : Instr) (s : State) : ∃ t, exec i s = .next t := by
  by_cases hr : i = .reset
  · exact ⟨s.resetBlock, hr ▸ rfl⟩
  · obtain ⟨f, row⟩ := exec_eq_andThen hr
    exact ⟨s.andThen f, row s⟩

/-- What is no operation is dropped while a fatal error is set (R401). -/
theorem State.rejected_of_set {s : State} (h : s.fatal ≠ none) (r : Reject) : s.rejected r = s := by
  obtain ⟨e, he⟩ := Option.ne_none_iff_exists'.1 h
  cases r with
  | badCommand opcode why => exact State.raise_fatal_of_set he _
  | badRegister width addr => exact State.raise_fatal_of_set he _
  | selectsNothing => rfl

/-! ### One step (log 2) -/

theorem step_idle {s : State} (h : s.port = []) : step s = .next s := by
  simp only [step, h]

section

variable {s : State} {item : PortItem} {rest : List PortItem} (hp : s.port = item :: rest)
include hp

theorem step_decoded {i : Instr} (hd : decode item = .ok i) : step s = exec i { s with port := rest } := by
  simp only [step, hp, hd]

theorem step_rejected {r : Reject} (hd : decode item = .error r) :
    step s = .next ({ s with port := rest }.rejected r) := by
  simp only [step, hp, hd]

/-- What is rejected with an error records it and is gone from the ports (R405, R406). -/
theorem step_raises {r : Reject} {e : FatalError} (hd : decode item = .error r)
    (hr : ∀ s, State.rejected s r = s.raise e) (hs : s.fatal = none) :
    step s = .next { s with port := rest, fatal := some e } := by
  rw [step_rejected hp hd, hr]
  exact congrArg _ (State.raise_of_live (s := { s with port := rest }) hs e)

/-- While a fatal error is set, what is rejected is only gone from the ports (R401). -/
theorem step_drops {r : Reject} (hd : decode item = .error r) (hs : s.fatal ≠ none) :
    step s = .next { s with port := rest } := by
  rw [step_rejected hp hd]
  exact congrArg _ (State.rejected_of_set (s := { s with port := rest }) hs r)

end

/-- Every step answers a next state (log 1). -/
theorem step_answers (s : State) : ∃ t, step s = .next t := by
  cases hp : s.port with
  | nil => exact ⟨s, step_idle hp⟩
  | cons item rest =>
    cases hd : decode item with
    | error r => exact ⟨_, step_rejected hp hd⟩
    | ok i =>
      rw [step_decoded hp hd]
      exact exec_answers i _

/-! ### The errors of POPULATE (R408, R409) -/

/-- POPULATE of anything but a Withheld lane raises LaneIndex (R408). -/
theorem State.populate_not_withheld {s : State} {n : Int} (ev : Event) (rt : ResolvedTimbre)
    (h : ¬∃ k : LaneIx, n = (k.val : Int) ∧ s.voice k = .withheld) : s.populate n ev rt = s.raise (.laneIndex n) := by
  unfold State.populate
  split
  · rfl
  · rename_i k hk
    split
    · rename_i hv
      exact (h ⟨k, laneOperand_some hk, hv⟩).elim
    all_goals rfl

/-- A timbre with a defective envelope, first or queued, has a defect (R331). -/
theorem timbreDefect_some {rt : ResolvedTimbre} (h : ∃ e ∈ rt.env :: rt.queue.map (·.2), envDefect e ≠ none) :
    ∃ reason, timbreDefect rt = some reason := by
  obtain ⟨e, he, defect⟩ := h
  exact Option.ne_none_iff_exists'.1 fun none_found => defect (List.findSome?_eq_none_iff.1 none_found e he)

/-- POPULATE of a Withheld lane with a defective timbre raises EnvelopeIncomplete (R409). -/
theorem State.populate_defective {s : State} {k : LaneIx} (ev : Event) {rt : ResolvedTimbre} {reason : EnvDefect}
    (hv : s.voice k = .withheld) (hd : timbreDefect rt = some reason) :
    s.populate (k.val : Int) ev rt = s.raise (.envelopeIncomplete reason) := by
  simp only [State.populate, laneOperand_val, hv, hd]

end Sys2Proof.Machine
end

section
/-!
PROOFS for spec/60_exceptions.md and spec/70_reset_and_hazards.md: the fatal error (R401, R405 to R409) and RESET (R430).
-/

namespace Sys2Proof.Proofs

open Sys2Proof Sys2Proof.Machine

/-- Settles O8: every operation but RESET is guarded (`exec_eq_andThen`). -/
theorem fatalIgnoresEverythingButReset : Obligations.FatalIgnoresEverythingButReset := by
  intro i s hs hr
  obtain ⟨f, row⟩ := exec_eq_andThen hr
  obtain ⟨e, he⟩ := Option.ne_none_iff_exists'.1 hs
  rw [row, State.andThen_of_set he]

/-- Settles O37: POPULATE raises before it changes anything (`State.populate_not_withheld`, `State.populate_defective`). -/
theorem populateFaultsBeforeAnyChange : Obligations.PopulateFaultsBeforeAnyChange := by
  intro s n ev rt hs
  have row : exec (.populate n ev rt) s = .next (s.populate n ev rt) := next_andThen_of_live hs _
  rw [row]
  refine ⟨fun h => ?_, fun k hn hv incomplete => ?_⟩
  · rw [State.populate_not_withheld ev rt h, State.raise_of_live hs]
  · obtain ⟨reason, hd⟩ := timbreDefect_some incomplete
    rw [hn, State.populate_defective ev hv hd, State.raise_of_live hs]
    exact ⟨reason, rfl⟩

/-- Settles O7, by what is at the ports and what it decodes to (`step_idle`, `step_decoded`, `step_raises`,
`step_drops`). -/
theorem stepRunsTheDecodedOperation : Obligations.StepRunsTheDecodedOperation := by
  refine ⟨fun _ _ _ _ hp hd => step_decoded hp hd, fun _ _ _ _ _ hp hd => step_raises hp hd fun _ => rfl,
    fun _ _ _ _ _ hp hd => step_raises hp hd fun _ => rfl, fun _ _ _ hp hd => step_rejected hp hd,
    fun _ _ _ _ hp hd => step_drops hp hd, fun _ => step_idle, step_answers, fun s t he => ?_, rfl, rfl, rfl⟩
  cases he
  exact ⟨rfl, rfl⟩

/-- Settles O9: RESET answers `State.resetBlock`, whose components are those of the reset state. -/
theorem resetEstablishesTheResetState : Obligations.ResetEstablishesTheResetState := by
  refine ⟨fun s => ⟨s.resetBlock, rfl, rfl, rfl, rfl, rfl, rfl, rfl, fun n => ?_, fun u => ?_, fun n => ?_, rfl⟩, rfl⟩
  · rw [State.lane_resetBlock, State.lane_reset]
    decide
  · rw [State.cap_resetBlock, State.cap_reset]
    decide
  · simp [State.voice_reset, Config.blockedLanes]

/-- Settles O60: the invariants of the lanes and of the units hold of one lane and one unit at reset; there is no Used
voice, no event and no byte of memory. -/
theorem resetMeetsTheInvariants : Obligations.ResetMeetsTheInvariants := by
  refine ⟨⟨rfl, fun n => ?_, fun u => ?_⟩, ⟨fun n => ?_, signed16_zero, signed16_zero⟩, ⟨fun n => ?_, fun u => ?_⟩,
    by decide, ⟨.nil, by simp [State.reset]⟩, fun n u hu => ?_, ⟨⟨.nil, by simp [State.reset]⟩, by simp [State.reset]⟩,
    fun u => ?_⟩
  · exact State.lane_reset n ▸ LaneClosed.registersInRange.reset
  · exact State.cap_reset u ▸ CapClosed.registersInRange.reset
  · exact State.lane_reset n ▸ LaneClosed.runStateInRange.reset
  · exact State.lane_reset n ▸ LaneClosed.timerInRange.fatal _ _ LaneClosed.timerInRange.reset
  · exact State.cap_reset u ▸ CapClosed.timerInRange.fatal _ _ CapClosed.timerInRange.reset
  · rw [State.voice_reset] at hu
    split at hu <;> cases hu
  · rw [State.cap_reset]
    decide

end Sys2Proof.Proofs
end
